-- ==== Sys2Proof/Word.lean ====
section
/-! DEFINITION. The word types of FFTE (00_scope.md R5, R6): a byte, the 32-bit register and bus word, and
the 64-bit DMEM word that holds one binary64 value. -/

namespace Sys2Proof

/-- Eight bits: the unit in which memory is listed. -/
abbrev Byte := BitVec 8

/-- A register, a block offset, a bus word or a command word: 32 bits (00_scope.md R5). -/
abbrev Word := BitVec 32

/-- A DMEM word: 64 bits, one binary64 interchange encoding (00_scope.md R10). -/
abbrev DWord := BitVec 64

end Sys2Proof
end

