-- ==== Sys2Proof/Config.lean ====
section
/-! DEFINITION. The parameters of 00_scope.md R5 and the free values of 93_implementation_defined.md.
An `opaque` here has no body: no proof can learn a value of it, so what is proved holds for every choice. -/

namespace Sys2Proof.Config

/-- TRIG's cosine away from +0.0 (00_scope.md R19, U3): any deterministic total function.
Property TRIG0 is added where TRIG is used (`Machine.cosF`). -/
opaque cosFree : DWord → DWord

/-- TRIG's sine away from +0.0 (00_scope.md R19, U3). -/
opaque sinFree : DWord → DWord

/-- The k-th draw of an unspecified 64-bit value: the payload of a NaN result (U1), a scratch word after success (U2),
a word lost to a reset while busy (U5). `State.draws` counts the draws already taken. -/
opaque freeWord : Nat → DWord

/-- The power-on contents of DMEM, one byte at each byte address (70_reset_and_hazards.md R332, U4). -/
opaque powerOnByte : Nat → Byte

/-- The block's base address on the host interconnect: the platform's, so any natural number (20_memory.md R70, U9; log 14). -/
opaque blockBase : Nat

/-- The largest legal DMEM_WORDS, 2^28 (00_scope.md R5). -/
def maxDmemWords : Nat := 2 ^ 28

/-- DESIGN CHOICE (log 3). The DMEM_WORDS of `State.reset`: the value of the vectors and programs of 95_test_vectors.md.
The parameter itself is OPEN; statements are about any state, hence about any `State.dmemWords`. -/
def dmemWordsAtReset : Nat := 256

end Sys2Proof.Config
end

