-- ==== Sys2Proof/Syntax.lean ====
section
/-! DEFINITION. The commands of FFTE, one constructor per row of spec/opcode_table.json (30_encoding.md R103).
A command carries no operand: everything comes from the operand snapshot (R102). -/

namespace Sys2Proof

/-- The 15 commands of 30_encoding.md R103. -/
inductive Instr where
  /-- 0x00 NOP (R160). -/
  | nop
  /-- 0x01 FFT, forward transform (R200). -/
  | fft
  /-- 0x02 IFFT, unnormalised inverse transform (R201). -/
  | ifft
  /-- 0x03 FFTR2, radix-2 transform (R202). -/
  | fftr2
  /-- 0x04 FFTBL, Bluestein transform (R203). -/
  | fftbl
  /-- 0x05 CONVC, complex circular convolution (R240). -/
  | convc
  /-- 0x06 CONVR, real circular convolution (R241). -/
  | convr
  /-- 0x07 FFT2R, spectra of two real signals (R270). -/
  | fft2r
  /-- 0x08 ABSFFT, one-sided magnitude spectrum (R271). -/
  | absfft
  /-- 0x09 ABSFFT2, two one-sided magnitude spectra (R272). -/
  | absfft2
  /-- 0x10 BITREV, bit-reversal permutation (R204). -/
  | bitrev
  /-- 0x11 CMUL, pointwise complex product (R242). -/
  | cmul
  /-- 0x12 SCALE, rescale by 1/n (R243). -/
  | scale
  /-- 0x13 TWTAB, read out the twiddle table (R205). -/
  | twtab
  /-- 0x14 CHIRPTAB, read out the chirp table (R206). -/
  | chirptab
  deriving DecidableEq, Repr

/-- Every command, in the order of the opcode map. -/
def Instr.all : List Instr :=
  [.nop, .fft, .ifft, .fftr2, .fftbl, .convc, .convr, .fft2r, .absfft, .absfft2, .bitrev, .cmul, .scale, .twtab, .chirptab]

end Sys2Proof
end

