-- ==== Sys2Proof/WellFormed.lean ====
section
/-! DEFINITION. Well-formedness: of a command (nothing to check: 30_encoding.md R102 gives a command no field), of a
command word (R101, R104: RSVD zero, OPCODE in the map), and of the parameter DMEM_WORDS (00_scope.md R5). -/

namespace Sys2Proof

/-- A command has no operand field (30_encoding.md R102), so every command is well formed. -/
def Instr.wellFormed : Instr → Bool
  | .nop | .fft | .ifft | .fftr2 | .fftbl | .convc | .convr | .fft2r | .absfft | .absfft2
  | .bitrev | .cmul | .scale | .twtab | .chirptab => true

/-- The OPCODE values that R103 does not reserve: 0x00–0x09 and 0x10–0x14 (30_encoding.md R104). -/
def opcodeDefined (op : Nat) : Bool :=
  decide (op ≤ 0x09) || (decide (0x10 ≤ op) && decide (op ≤ 0x14))

/-- A command word that names a command: bits 31:8 zero, bits 7:0 a defined OPCODE (30_encoding.md R101, R104). -/
def commandWordWellFormed (w : Word) : Bool :=
  decide (w.toNat / 256 = 0) && opcodeDefined (w.toNat % 256)

/-- A legal DMEM_WORDS: 1 ≤ DMEM_WORDS ≤ 2^28 (00_scope.md R5). -/
def dmemWordsLegal (n : Nat) : Bool :=
  decide (1 ≤ n) && decide (n ≤ Config.maxDmemWords)

end Sys2Proof
end

