-- ==== Sys2Proof/Decode.lean ====
section
/-! DEFINITION. The decoder of CMD32 words, total on all 2^32 words (30_encoding.md R105), and the encoder written from
the same opcode map (R103). -/

namespace Sys2Proof

/-- Why a command word is `Illegal` (30_encoding.md R105). Either way the command completes with ERR_CMD. -/
inductive DecodeError where
  /-- Bits 31:8 are not all zero (R101). -/
  | reservedBits
  /-- Bits 7:0 are a reserved OPCODE: 0x0A–0x0F, 0x15–0xFF (R104). -/
  | reservedOpcode
  deriving DecidableEq, Repr

/-- The OPCODE field, bits 7:0 (30_encoding.md R101). -/
def opcodeField (w : Word) : Nat := w.toNat % 256

/-- The RSVD field, bits 31:8 (30_encoding.md R101). -/
def reservedField (w : Word) : Nat := w.toNat / 256

/-- The opcode map (30_encoding.md R103). -/
def decodeOpcode (op : Nat) : Except DecodeError Instr :=
  match op with
  | 0x00 => .ok .nop
  | 0x01 => .ok .fft
  | 0x02 => .ok .ifft
  | 0x03 => .ok .fftr2
  | 0x04 => .ok .fftbl
  | 0x05 => .ok .convc
  | 0x06 => .ok .convr
  | 0x07 => .ok .fft2r
  | 0x08 => .ok .absfft
  | 0x09 => .ok .absfft2
  | 0x10 => .ok .bitrev
  | 0x11 => .ok .cmul
  | 0x12 => .ok .scale
  | 0x13 => .ok .twtab
  | 0x14 => .ok .chirptab
  | _ => .error .reservedOpcode

/-- decode(w), total on all 2^32 words (30_encoding.md R105). -/
def decode (w : Word) : Except DecodeError Instr :=
  if reservedField w = 0 then decodeOpcode (opcodeField w) else .error .reservedBits

/-- The OPCODE of a command (30_encoding.md R103). -/
def opcode : Instr → Nat
  | .nop => 0x00
  | .fft => 0x01
  | .ifft => 0x02
  | .fftr2 => 0x03
  | .fftbl => 0x04
  | .convc => 0x05
  | .convr => 0x06
  | .fft2r => 0x07
  | .absfft => 0x08
  | .absfft2 => 0x09
  | .bitrev => 0x10
  | .cmul => 0x11
  | .scale => 0x12
  | .twtab => 0x13
  | .chirptab => 0x14

/-- The command word of a command: RSVD = 0, OPCODE from the map (30_encoding.md R101, R103). -/
def encode (i : Instr) : Word := BitVec.ofNat 32 (opcode i)

/-- The command word whose low `nbits` bits are those of `w` and whose other bits are zero. -/
def tableWord (nbits w : Nat) : Word := BitVec.ofNat 32 (w % 2 ^ nbits)

/-- The instruction the decoder reads from a row's word of spec/opcode_table.json. A CMD32 word is one 32-bit word
(30_encoding.md R100) written to CMD as it stands, so no bytes are reordered. -/
def decodeTableWord (nbits w : Nat) : Option Instr := (decode (tableWord nbits w)).toOption

end Sys2Proof
end

