-- ==== Sys2Proof/Machine/State.lean ====
section
/-! DEFINITION. The state of FFTE as plain data (10_state.md R30–R57): the register file, DMEM, the hidden command state,
the reset input, the last bus response, and the events still to come. -/

namespace Sys2Proof.Machine

/-- The result codes that are ever produced (60_exceptions.md R300); 0x08–0xFF never are. -/
inductive ResultCode where
  /-- 0x00 OK. -/
  | ok
  /-- 0x01 ERR_CMD. -/
  | errCmd
  /-- 0x02 ERR_NOT_POW2. -/
  | errNotPow2
  /-- 0x03 ERR_ODD_N. -/
  | errOddN
  /-- 0x04 ERR_OVERFLOW. -/
  | errOverflow
  /-- 0x05 ERR_RANGE. -/
  | errRange
  /-- 0x06 ERR_NOMEM. -/
  | errNomem
  /-- 0x07 ERR_OVERLAP. -/
  | errOverlap
  deriving DecidableEq, Repr

/-- The registers of the map of 10_state.md R32. -/
inductive RegName where
  | id | version | cap | cmd | status | irqEn | n | xr | xi | yr | yi | outR | outI | out2R | out2I
  | scrBase | scrSize | scrNeed | blM
  deriving DecidableEq, Repr

/-- The bus response (20_memory.md R72). -/
inductive Resp where
  | okay
  | buserr
  deriving DecidableEq, Repr

/-- What the slave port answers to a transaction: data and response to a read, a response to a write (20_memory.md R72). -/
inductive Response where
  | read (data : Word) (resp : Resp)
  | write (resp : Resp)
  deriving DecidableEq, Repr

/-- The direction of a transaction, with the data of a write (20_memory.md R72). -/
inductive Access where
  | read
  | write (data : Word)
  deriving DecidableEq, Repr

/-- One host transaction at a block offset. `whole` says that it moves exactly 32 bits with every byte lane; every other
width, byte-enable pattern or burst is `whole = false` (20_memory.md R72). -/
structure Transaction where
  access : Access
  offset : Word
  whole  : Bool
  deriving DecidableEq, Repr

/-- What may happen next at the block's boundary (10_state.md R30, 70_reset_and_hazards.md R330). -/
inductive Event where
  /-- The interconnect delivers a host transaction. -/
  | transaction (t : Transaction)
  /-- The sequencer takes its turn: a busy command completes, an idle sequencer does nothing (60_exceptions.md R319). -/
  | sequencerTurn
  /-- The platform asserts the reset input. -/
  | resetAsserted
  /-- The platform releases the reset input. -/
  | resetReleased
  deriving DecidableEq, Repr

/-- The operand registers, also the shape of the snapshot L (10_state.md R36–R38, R55). `outR`, `outI`, `out2R` and `out2I`
are the spec's OR, OI, O2R and O2I. -/
structure Operands where
  n       : Word
  xr      : Word
  xi      : Word
  yr      : Word
  yi      : Word
  outR    : Word
  outI    : Word
  out2R   : Word
  out2I   : Word
  scrBase : Word
  scrSize : Word
  deriving DecidableEq, Repr

/-- DMEM as the bytes that have been written: (byte address, byte), byte address 8·w + b for byte b of word w. An unlisted
byte still holds its power-on value (log 4). -/
abbrev Memory := List Host.Cell

/-- The whole state of FFTE. -/
structure State where
  /-- DMEM_WORDS, shown by CAP (00_scope.md R5, 10_state.md R31); no step changes it. -/
  dmemWords : Nat
  /-- CMD: the last accepted command word (10_state.md R33). -/
  cmd       : Word
  /-- STATUS.BUSY and the hidden `busy` it mirrors (10_state.md R34, R55). -/
  busy      : Bool
  /-- STATUS.DONE (10_state.md R34). -/
  done      : Bool
  /-- STATUS.FAIL (10_state.md R34). -/
  fail      : Bool
  /-- STATUS.OVR (10_state.md R34). -/
  ovr       : Bool
  /-- STATUS.RESULT (10_state.md R34, 60_exceptions.md R300). -/
  result    : ResultCode
  /-- IRQ_EN.DONE_IE (10_state.md R35). -/
  doneIe    : Bool
  /-- N, XR … O2I, SCR_BASE, SCR_SIZE (10_state.md R36–R38). -/
  operands  : Operands
  /-- SCR_NEED (10_state.md R39). -/
  scrNeed   : Word
  /-- BL_M (10_state.md R39). -/
  blM       : Word
  /-- The hidden operand snapshot L (10_state.md R55). -/
  snapshot  : Operands
  /-- The hidden accepted command word `op` (10_state.md R55). -/
  op        : Word
  /-- DMEM (10_state.md R50). -/
  dmem      : Memory
  /-- The level of the reset input: true while asserted (70_reset_and_hazards.md R330). -/
  resetLine : Bool
  /-- The slave port's answer to the last transaction (20_memory.md R72). -/
  response  : Option Response
  /-- The model's own field: the events still to come, in delivery order (20_memory.md R90, R91; log 1). -/
  inbox     : List Event
  /-- The model's own field: how many free values have been drawn (log 7). -/
  draws     : Nat
  deriving DecidableEq, Repr

/-- No FFTE behaviour stops the machine: 93_implementation_defined.md, "No FFTE behaviour is `stuck`"; a bus error is a
response and a failed command a result (60_exceptions.md R300, R305). So there is no fault to raise (log 10). -/
inductive Fault where
  deriving DecidableEq, Repr

/-- The reasons a step has no meaning. -/
inductive Refusal where
  /-- Raised by an arm of `exec` whose instruction has no meaning yet. Safe. -/
  | notModelled (mnemonic : String)
  /-- Raised by `step` for a host transaction delivered while the reset input is asserted: "outside this spec: the platform
  must not issue them" (70_reset_and_hazards.md R333, U14). Safe (log 11). -/
  | transactionDuringReset
  deriving DecidableEq, Repr

/-- Operand registers of all zeros: their reset value (70_reset_and_hazards.md R330). -/
def Operands.zero : Operands :=
  { n := 0, xr := 0, xi := 0, yr := 0, yi := 0, outR := 0, outI := 0, out2R := 0, out2I := 0, scrBase := 0, scrSize := 0 }

/-- The machine after power-on reset (70_reset_and_hazards.md R330, R332). `snapshot` and `op` are unspecified and
unobservable there and take the value zero (DESIGN CHOICE, log 9); `dmemWords` is log 3's, `draws` log 7's, `response`
log 12's; the inbox is empty. -/
def State.reset : State :=
  { dmemWords := Config.dmemWordsAtReset
    cmd := 0, busy := false, done := false, fail := false, ovr := false, result := .ok, doneIe := false
    operands := .zero, scrNeed := 0, blM := 0
    snapshot := .zero, op := 0
    dmem := [], resetLine := false, response := none, inbox := [], draws := 0 }

end Sys2Proof.Machine
end

