-- ==== Sys2Proof/Machine/Flags.lean ====
section
/-! DEFINITION. STATUS, IRQ_EN and the interrupt output: the words software reads, the W1C write, and irq
(10_state.md R34, R35, R42; 60_exceptions.md R300, R310). -/

namespace Sys2Proof.Machine

/-- The code numbers of 60_exceptions.md R300. -/
def resultCode : ResultCode → BitVec 8
  | .ok => 0x00
  | .errCmd => 0x01
  | .errNotPow2 => 0x02
  | .errOddN => 0x03
  | .errOverflow => 0x04
  | .errRange => 0x05
  | .errNomem => 0x06
  | .errOverlap => 0x07

/-- A one-bit field as a bit vector. -/
def bit (b : Bool) : BitVec 1 := if b then 1 else 0

/-- STATUS as read: bits 31:16 zero, RESULT 15:8, 7:4 zero, OVR 3, FAIL 2, DONE 1, BUSY 0 (10_state.md R34). -/
def statusWord (s : State) : Word :=
  (0 : BitVec 16) ++ resultCode s.result ++ (0 : BitVec 4) ++ bit s.ovr ++ bit s.fail ++ bit s.done ++ bit s.busy

/-- IRQ_EN as read: DONE_IE in bit 0, the rest zero (10_state.md R35). -/
def irqEnWord (s : State) : Word := (0 : BitVec 31) ++ bit s.doneIe

/-- A host write to STATUS: a written one in bit 1 clears DONE and in bit 3 clears OVR; every other bit is ignored
(10_state.md R34). Clearing DONE is the return from a completion (60_exceptions.md R304). -/
def writeStatus (v : Word) (s : State) : State :=
  { s with done := s.done && !v.getLsbD 1, ovr := s.ovr && !v.getLsbD 3 }

/-- A host write to IRQ_EN sets DONE_IE from bit 0 and ignores the rest (10_state.md R35). -/
def writeIrqEn (v : Word) (s : State) : State := { s with doneIe := v.getLsbD 0 }

/-- irq = STATUS.DONE ∧ IRQ_EN.DONE_IE, a level at every instant (60_exceptions.md R310). -/
def irq (s : State) : Bool := s.done && s.doneIe

end Sys2Proof.Machine
end

