-- ==== Sys2Proof/Machine/Float.lean ====
section
/-! DEFINITION. IEEE 754 binary64 with roundTiesToEven (00_scope.md R10–R18; the operations' meaning is the standard's,
adopted by the spec: log 15). Every finite value is a whole number of UNITS of 2^-1074, the smallest subnormal; an operation
computes the exact result as a ratio (or square root) of whole numbers of units and rounds it once. -/

namespace Sys2Proof.Machine

/-- A value inside a command: an exact 64-bit pattern (loaded, constant, or a result that is no NaN), or the NaN an operation
of R11 produced, whose bits are open until it is stored (00_scope.md R16; log 5). -/
inductive FNum where
  | word (w : DWord)
  | nan
  deriving DecidableEq, Repr

/-- What a binary64 encoding stands for. `units` counts multiples of 2^-1074. -/
inductive FVal where
  | nan
  | inf (neg : Bool)
  | fin (neg : Bool) (units : Nat)
  deriving DecidableEq, Repr

/-- The unit of the exact arithmetic is 2^-1074. -/
def unitExponent : Nat := 1074

/-- The value of an interchange encoding: sign bit 63, biased exponent bits 62:52, trailing significand bits 51:0
(00_scope.md R10), with gradual underflow (R17). -/
def valueOf (w : DWord) : FVal :=
  let neg := decide (2 ^ 63 ≤ w.toNat)
  let e := w.toNat / 2 ^ 52 % 2 ^ 11
  let f := w.toNat % 2 ^ 52
  if e = 2047 then (if f = 0 then .inf neg else .nan)
  else if e = 0 then .fin neg f
  else .fin neg ((2 ^ 52 + f) * 2 ^ (e - 1))

/-- The value of a `FNum`. -/
def FNum.value : FNum → FVal
  | .word w => valueOf w
  | .nan => .nan

/-- The magnitude bits of +∞. -/
def infBits : Nat := 2047 * 2 ^ 52

/-- An encoding from its sign and its low 63 bits. -/
def withSign (neg : Bool) (bits : Nat) : FNum :=
  .word (BitVec.ofNat 64 (bits + if neg then 2 ^ 63 else 0))

/-- roundTiesToEven of a number that lies in [m, m+1), given how it compares with the midpoint m + 1/2. -/
def nearestEven (m : Nat) (c : Ordering) : Nat :=
  match c with
  | .lt => m
  | .eq => m + m % 2
  | .gt => m + 1

/-- The magnitude bits of a significand m < 2^53 + 1 at exponent step k, so of m·2^k units; +∞ when that is beyond the
largest finite value. -/
def packBits (k m : Nat) : Nat := min (k * 2 ^ 52 + m) infBits

/-- The magnitude bits of num/den units, rounded to nearest, ties to even (00_scope.md R11). -/
def roundRatio (num den : Nat) : Nat :=
  let k := (num / den).log2 - 52
  let d := den * 2 ^ k
  packBits k (nearestEven (num / d) (compare (2 * (num % d)) d))

/-- The integer square root of s, exact for s < 4^fuel. -/
def isqrt : Nat → Nat → Nat
  | 0, _ => 0
  | fuel + 1, s =>
    let r := 2 * isqrt fuel (s / 4)
    if (r + 1) * (r + 1) ≤ s then r + 1 else r

/-- The magnitude bits of √s units, rounded to nearest, ties to even (00_scope.md R11). -/
def roundSqrt (s : Nat) : Nat :=
  let k := s.log2 / 2 - 52
  let m := isqrt 54 (s / 4 ^ k)
  packBits k (nearestEven m (compare (4 * s) ((2 * m + 1) * (2 * m + 1) * 4 ^ k)))

/-- A signed whole number of units. -/
def signedUnits (neg : Bool) (u : Nat) : Int := if neg then -(u : Int) else u

/-- fneg: inverts bit 63 and changes no other bit (00_scope.md R13); of an open NaN it is an open NaN (R16). -/
def fneg : FNum → FNum
  | .word w => .word (w ^^^ 0x8000000000000000)
  | .nan => .nan

/-- The sum of two finite values. An exact zero sum is +0.0, unless both addends are negative zeros. -/
def addFinite (na : Bool) (a : Nat) (nb : Bool) (b : Nat) : FNum :=
  let sum := signedUnits na a + signedUnits nb b
  if sum = 0 then withSign (na && nb) 0
  else withSign (decide (sum < 0)) (roundRatio sum.natAbs 1)

/-- fadd (00_scope.md R11). -/
def fadd (x y : FNum) : FNum :=
  match x.value, y.value with
  | .nan, _ => .nan
  | _, .nan => .nan
  | .inf na, .inf nb => if na = nb then withSign na infBits else .nan
  | .inf na, .fin _ _ => withSign na infBits
  | .fin _ _, .inf nb => withSign nb infBits
  | .fin na a, .fin nb b => addFinite na a nb b

/-- fsub(a, b) = fadd(a, fneg(b)) (00_scope.md R11, R13; log 25). -/
def fsub (x y : FNum) : FNum := fadd x (fneg y)

/-- fmul (00_scope.md R11). -/
def fmul (x y : FNum) : FNum :=
  match x.value, y.value with
  | .nan, _ => .nan
  | _, .nan => .nan
  | .inf na, .inf nb => withSign (na != nb) infBits
  | .inf na, .fin nb b => if b = 0 then .nan else withSign (na != nb) infBits
  | .fin na a, .inf nb => if a = 0 then .nan else withSign (na != nb) infBits
  | .fin na a, .fin nb b => withSign (na != nb) (roundRatio (a * b) (2 ^ unitExponent))

/-- fdiv (00_scope.md R11). -/
def fdiv (x y : FNum) : FNum :=
  match x.value, y.value with
  | .nan, _ => .nan
  | _, .nan => .nan
  | .inf _, .inf _ => .nan
  | .inf na, .fin nb _ => withSign (na != nb) infBits
  | .fin na _, .inf nb => withSign (na != nb) 0
  | .fin na a, .fin nb b =>
    if b = 0 then (if a = 0 then .nan else withSign (na != nb) infBits)
    else withSign (na != nb) (roundRatio (a * 2 ^ unitExponent) b)

/-- fsqrt (00_scope.md R11): √(−0) is −0, and a negative argument is invalid. -/
def fsqrt (x : FNum) : FNum :=
  match x.value with
  | .nan => .nan
  | .inf neg => if neg then .nan else withSign false infBits
  | .fin neg a =>
    if a = 0 then withSign neg 0
    else if neg then .nan
    else withSign false (roundSqrt (a * 2 ^ unitExponent))

/-- f64(k): a natural number converted to binary64 (00_scope.md R14). -/
def f64 (k : Nat) : FNum := withSign false (roundRatio (k * 2 ^ unitExponent) 1)

/-- PI_D (00_scope.md R15). -/
def piD : FNum := .word 0x400921FB54442D18
/-- TWO_PI_D (00_scope.md R15). -/
def twoPiD : FNum := .word 0x401921FB54442D18
/-- HALF (00_scope.md R15). -/
def half : FNum := .word 0x3FE0000000000000
/-- TWO (00_scope.md R15). -/
def two : FNum := .word 0x4000000000000000
/-- PZERO, +0.0 (00_scope.md R15). -/
def pzero : FNum := .word 0x0000000000000000

/-- Whether a 64-bit pattern is a quiet NaN: exponent all ones, leading significand bit one (00_scope.md R16). -/
def isQuietNaN (w : DWord) : Bool := decide (w.toNat / 2 ^ 51 % 2 ^ 12 = 2 ^ 12 - 1)

/-- A quiet NaN with the sign and payload of a drawn word (00_scope.md R16). -/
def quietNaN (draw : DWord) : DWord := draw ||| 0x7FF8000000000000

end Sys2Proof.Machine
end

