-- ==== Sys2Proof/Machine/Operands.lean ====
section
/-! DEFINITION. Operand forms: which regions each command reads and writes, how long they are, and the range and overlap
predicates (40_command_execution.md R140–R142). Addresses and lengths are naturals, so nothing wraps (R141). -/

namespace Sys2Proof.Machine

/-- A region of DMEM words: {base, …, base + len − 1} (40_command_execution.md R141). -/
structure Region where
  base : Nat
  len  : Nat
  deriving DecidableEq, Repr

/-- The region of `len` words whose base address is in a register. -/
def regionAt (base : Word) (len : Nat) : Region := { base := base.toNat, len := len }

/-- n = L.N (30_encoding.md R102). -/
def Operands.length (l : Operands) : Nat := l.n.toNat

/-- (XR, n), (XI, n) (40_command_execution.md R140). -/
def signalX (l : Operands) : List Region := [regionAt l.xr l.length, regionAt l.xi l.length]

/-- (YR, n), (YI, n) (40_command_execution.md R140). -/
def signalY (l : Operands) : List Region := [regionAt l.yr l.length, regionAt l.yi l.length]

/-- (XR, n), (YR, n): two real inputs (40_command_execution.md R140). -/
def realXY (l : Operands) : List Region := [regionAt l.xr l.length, regionAt l.yr l.length]

/-- (OR, len), (OI, len) (40_command_execution.md R140). -/
def signalOut (l : Operands) (len : Nat) : List Region := [regionAt l.outR len, regionAt l.outI len]

/-- IN(c, L), the input regions of 40_command_execution.md R140. -/
def inputRegions : Instr → Operands → List Region
  | .nop, _ => []
  | .fft, l => signalX l
  | .ifft, l => signalX l
  | .fftr2, l => signalX l
  | .fftbl, l => signalX l
  | .bitrev, l => signalX l
  | .scale, l => signalX l
  | .convc, l => signalX l ++ signalY l
  | .cmul, l => signalX l ++ signalY l
  | .convr, l => realXY l
  | .fft2r, l => realXY l
  | .absfft, l => [regionAt l.xr l.length]
  | .absfft2, l => realXY l
  | .twtab, _ => []
  | .chirptab, _ => []

/-- OUT(c, L), the output regions of 40_command_execution.md R140. -/
def outputRegions : Instr → Operands → List Region
  | .nop, _ => []
  | .fft, l => signalX l
  | .ifft, l => signalX l
  | .fftr2, l => signalX l
  | .fftbl, l => signalX l
  | .bitrev, l => signalX l
  | .scale, l => signalX l
  | .convc, l => signalOut l l.length
  | .cmul, l => signalOut l l.length
  | .convr, l => [regionAt l.outR l.length]
  | .fft2r, l => signalOut l l.length ++ [regionAt l.out2R l.length, regionAt l.out2I l.length]
  | .absfft, l => [regionAt l.outR (l.length / 2 + 1)]
  | .absfft2, l => [regionAt l.outR (l.length / 2 + 1), regionAt l.out2R (l.length / 2 + 1)]
  | .twtab, l => signalOut l (l.length / 2)
  | .chirptab, l => signalOut l l.length

/-- inDMEM(p, len) ⇔ len = 0 ∨ p + len ≤ DMEM_WORDS (40_command_execution.md R142). -/
def inDmem (words : Nat) (r : Region) : Bool := decide (r.len = 0) || decide (r.base + r.len ≤ words)

/-- overlaps((p,a),(q,b)) ⇔ a > 0 ∧ b > 0 ∧ p < q + b ∧ q < p + a (40_command_execution.md R142). -/
def overlaps (r t : Region) : Bool :=
  decide (0 < r.len) && decide (0 < t.len) && decide (r.base < t.base + t.len) && decide (t.base < r.base + r.len)

/-- Two regions at distinct positions of the list overlap (40_command_execution.md R145 step 7). -/
def someOverlap : List Region → Bool
  | [] => false
  | r :: rs => rs.any (overlaps r) || someOverlap rs

/-- The scratch-used region S = (SCR_BASE, need) (40_command_execution.md R145 step 7). -/
def scratchUsed (l : Operands) (need : Nat) : Region := regionAt l.scrBase need

/-- The declared scratch region (SCR_BASE, SCR_SIZE) (10_state.md R38). -/
def scratchDeclared (l : Operands) : Region := regionAt l.scrBase l.scrSize.toNat

/-- Whether word w lies in the region. -/
def Region.contains (r : Region) (w : Nat) : Bool := decide (r.base ≤ w) && decide (w < r.base + r.len)

/-- The part of a region that lies inside DMEM (70_reset_and_hazards.md R331). -/
def Region.clip (words : Nat) (r : Region) : Region := { base := r.base, len := min r.len (words - r.base) }

end Sys2Proof.Machine
end

