-- ==== Sys2Proof/Machine/Sizes.lean ====
section
/-! DEFINITION. Size arithmetic in unbounded naturals: powers of two, the Bluestein length M(n), the scratch need
NEED(c, n), the top-level Bluestein flag, and the diagnostics written from them (40_command_execution.md R151–R153,
41_transform.md R181, 10_state.md R39). -/

namespace Sys2Proof.Machine

/-- is_pow2(n) ⇔ n ≥ 1 ∧ n AND (n−1) = 0 (00_scope.md R9). -/
def isPow2 (n : Nat) : Bool := decide (1 ≤ n) && decide (n &&& (n - 1) = 0)

/-- M(n), the smallest power of two that is at least 2n + 1 (41_transform.md R181). -/
def bluesteinLength (n : Nat) : Nat := if n = 0 then 1 else 2 ^ ((2 * n).log2 + 1)

/-- R2NEED(n) = 2·(n div 2) (40_command_execution.md R151). -/
def r2Need (n : Nat) : Nat := 2 * (n / 2)

/-- BLNEED(n) = 2·n + 6·M(n) + CCNEED(M(n)), with CCNEED at a power of two, 4·m + R2NEED(m)
(40_command_execution.md R151, R154). -/
def blNeed (n : Nat) : Nat :=
  2 * n + 6 * bluesteinLength n + (4 * bluesteinLength n + r2Need (bluesteinLength n))

/-- TNEED(n) (40_command_execution.md R151). -/
def tNeed (n : Nat) : Nat := if isPow2 n then r2Need n else blNeed n

/-- CCNEED(k) = 4·k + TNEED(k) (40_command_execution.md R151). DEDUCED (log 26): at k = 1 this is 4, as R151 defines it, where
42_convolution.md R240 glosses it as 5·n for a power of two. -/
def ccNeed (k : Nat) : Nat := 4 * k + tNeed k

/-- NEED(c, n), the scratch need in words (40_command_execution.md R151). -/
def scratchNeed : Instr → Nat → Nat
  | .fft, n => tNeed n
  | .ifft, n => tNeed n
  | .fftr2, n => r2Need n
  | .fftbl, n => blNeed n
  | .convc, n => ccNeed n
  | .convr, n => ccNeed n + n
  | .fft2r, n => 2 * n + tNeed n
  | .absfft, n => 2 * n + tNeed n
  | .absfft2, n => 2 * n + tNeed n
  | .nop, _ => 0
  | .bitrev, _ => 0
  | .cmul, _ => 0
  | .scale, _ => 0
  | .twtab, _ => 0
  | .chirptab, _ => 0

/-- BLTOP(c, n): the command uses the Bluestein adapter at its top level (40_command_execution.md R152). -/
def bluesteinAtTop : Instr → Nat → Bool
  | .fftbl, _ => true
  | .fft, n => !isPow2 n
  | .ifft, n => !isPow2 n
  | .convc, n => !isPow2 n
  | .convr, n => !isPow2 n
  | .fft2r, n => !isPow2 n
  | .absfft, n => !isPow2 n
  | .absfft2, n => !isPow2 n
  | .nop, _ => false
  | .fftr2, _ => false
  | .bitrev, _ => false
  | .cmul, _ => false
  | .scale, _ => false
  | .twtab, _ => false
  | .chirptab, _ => false

/-- The m of Exec's step 4: M(n) when the Bluestein adapter is used at the top level, else 0 (40_command_execution.md R145). -/
def topLength (c : Instr) (n : Nat) : Nat := if bluesteinAtTop c n then bluesteinLength n else 0

/-- The largest 32-bit unsigned value: the size domain's limit (00_scope.md R9). -/
def sizeLimit : Nat := 2 ^ 32 - 1

/-- need_r: the need saturated at 0xFFFF_FFFF (10_state.md R39, 40_command_execution.md R145 step 4). -/
def needReported (need : Nat) : Nat := min need sizeLimit

/-- m_r: m when m ≤ 2^31, else 0 (10_state.md R39, 40_command_execution.md R145 step 4). -/
def lengthReported (m : Nat) : Nat := if m ≤ 2 ^ 31 then m else 0

/-- Size-arithmetic overflow (40_command_execution.md R153). -/
def sizeOverflow (m need : Nat) : Bool := decide (sizeLimit < m) || decide (sizeLimit < need)

end Sys2Proof.Machine
end

