-- ==== Sys2Proof/Machine/Ops.lean ====
section
/-! DEFINITION. The named operations over memory and registers: bytes, halves and words of DMEM, regions, draws; the start
step, Exec's checks, the completion step, and the entry into a failed command (20_memory.md R73–R79,
40_command_execution.md R130–R147, 60_exceptions.md R302). -/

namespace Sys2Proof.Machine

/-! ### Bytes of DMEM -/

/-- The canonical form of a memory: addresses strictly rising. An unlisted address holds no written byte, and every listed
one holds one, so equal listings are equal memories (log 4). -/
def Memory.wf : Memory → Bool
  | [] => true
  | [_] => true
  | (a, _) :: (b, y) :: m => decide (a < b) && Memory.wf ((b, y) :: m)

/-- Every listed address is below the bound. -/
def Memory.below (bound : Nat) (m : Memory) : Bool := m.all fun c => decide (c.1 < bound)

/-- The byte written at an address, if any. -/
def writtenByte : Memory → Nat → Option Byte
  | [], _ => none
  | (k, b) :: m, a => if k = a then some b else writtenByte m a

/-- A byte of DMEM: the byte last written, or the power-on value (70_reset_and_hazards.md R332; log 4). -/
def readByte (m : Memory) (a : Nat) : Byte := (writtenByte m a).getD (Config.powerOnByte a)

/-- Write one byte, keeping the addresses strictly rising. -/
def writeByte : Memory → Nat → Byte → Memory
  | [], a, v => [(a, v)]
  | (k, b) :: m, a, v =>
    if a < k then (a, v) :: (k, b) :: m
    else if a = k then (a, v) :: m
    else (k, b) :: writeByte m a v

/-! ### Halves and words: the one place where byte order is decided (20_memory.md R73, R75) -/

/-- The byte address of half h of DMEM word w. -/
def halfAddress (w h : Nat) : Nat := 8 * w + 4 * h

/-- Half h of DMEM word w: bits 32h+31 : 32h, little-endian (20_memory.md R73, R75). -/
def readHalf (m : Memory) (w h : Nat) : Word :=
  let a := halfAddress w h
  readByte m (a + 3) ++ readByte m (a + 2) ++ readByte m (a + 1) ++ readByte m a

/-- Replace half h of DMEM word w and leave the other half (20_memory.md R73, R75). -/
def writeHalf (m : Memory) (w h : Nat) (v : Word) : Memory :=
  let a := halfAddress w h
  writeByte (writeByte (writeByte (writeByte m a (v.extractLsb' 0 8)) (a + 1) (v.extractLsb' 8 8))
    (a + 2) (v.extractLsb' 16 8)) (a + 3) (v.extractLsb' 24 8)

/-- D[w] (00_scope.md R7, 20_memory.md R73). -/
def readWord (m : Memory) (w : Nat) : DWord := readHalf m w 1 ++ readHalf m w 0

/-- D[w] <- v (00_scope.md R7). -/
def writeWord (m : Memory) (w : Nat) (v : DWord) : Memory :=
  writeHalf (writeHalf m w 0 (v.extractLsb' 0 32)) w 1 (v.extractLsb' 32 32)

/-! ### Regions and draws -/

/-- MemRead of a region: every word, exactly as it stands (00_scope.md R7, 20_memory.md R79). -/
def readRegion (m : Memory) (r : Region) : List FNum :=
  (List.range r.len).map fun i => .word (readWord m (r.base + i))

/-- The 64 bits stored for a value: its pattern, or the k-th draw as a quiet NaN for an open NaN (00_scope.md R16; log 5). -/
def storedBits (k : Nat) : FNum → DWord
  | .word w => w
  | .nan => quietNaN (Config.freeWord k)

/-- MemWrite of a sequence from word p on, the i-th value using draw k + i (00_scope.md R7). -/
def storeSeq (m : Memory) (p k : Nat) : List FNum → Memory
  | [] => m
  | v :: vs => storeSeq (writeWord m p (storedBits k v)) (p + 1) (k + 1) vs

/-- One output write: a base word address and the values. -/
abbrev Write := Nat × List FNum

/-- The output writes of a command, in order, the draws running on (40_command_execution.md R131). -/
def storeAll (m : Memory) (k : Nat) : List Write → Memory
  | [] => m
  | (p, vs) :: ws => storeAll (storeSeq m p k vs) (k + vs.length) ws

/-- How many words a list of writes stores. -/
def writtenWords : List Write → Nat
  | [] => 0
  | (_, vs) :: ws => vs.length + writtenWords ws

/-- havoc(p, len): each word gets an unspecified value, a draw per word (00_scope.md R7; log 6). -/
def havoc (m : Memory) (p k : Nat) : Nat → Memory
  | 0 => m
  | len + 1 => havoc (writeWord m p (Config.freeWord k)) (p + 1) (k + 1) len

/-- havoc of several regions, one after the other. -/
def havocAll (m : Memory) (k : Nat) : List Region → Memory
  | [] => m
  | r :: rs => havocAll (havoc m r.base k r.len) (k + r.len) rs

/-- The words of a list of regions, counted with repeats. -/
def regionWords : List Region → Nat
  | [] => 0
  | r :: rs => r.len + regionWords rs

/-! ### Exec (40_command_execution.md R145) -/

/-- What Exec returns: (res, writes, need_r, m_r) (40_command_execution.md R145). -/
structure ExecResult where
  res    : ResultCode
  writes : List Write
  needR  : Nat
  mR     : Nat
  deriving DecidableEq, Repr

/-- raise Fail(code): no writes, need_r and m_r as they stand (40_command_execution.md R145). -/
def failWith (code : ResultCode) (needR mR : Nat) : ExecResult :=
  { res := code, writes := [], needR := needR, mR := mR }

/-- A command's semantic function F_c: from n and the values of each input region to the values of each output region. -/
abbrev SemFn := Nat → List (List FNum) → List (List FNum)

/-- Step 2, the length preconditions (40_command_execution.md R145). -/
def lengthPrecondition : Instr → Nat → Option ResultCode
  | .fftr2, n => if isPow2 n then none else some .errNotPow2
  | .bitrev, n => if isPow2 n then none else some .errNotPow2
  | .twtab, n => if isPow2 n then none else some .errNotPow2
  | .fft2r, n => if n % 2 = 0 then none else some .errOddN
  | .absfft2, n => if n % 2 = 0 then none else some .errOddN
  | .nop, _ => none
  | .fft, _ => none
  | .ifft, _ => none
  | .fftbl, _ => none
  | .convc, _ => none
  | .convr, _ => none
  | .absfft, _ => none
  | .cmul, _ => none
  | .scale, _ => none
  | .chirptab, _ => none

/-- Step 5 fails: a region, or with need > 0 the declared scratch, leaves DMEM (40_command_execution.md R145). -/
def rangeFailure (c : Instr) (l : Operands) (words need : Nat) : Bool :=
  !((inputRegions c l ++ outputRegions c l).all (inDmem words)) ||
  (decide (0 < need) && decide (words < l.scrBase.toNat + l.scrSize.toNat))

/-- Step 7 fails: two outputs overlap, or the scratch-used region overlaps an operand (40_command_execution.md R145). -/
def overlapFailure (c : Instr) (l : Operands) (need : Nat) : Bool :=
  someOverlap (outputRegions c l) ||
  (inputRegions c l ++ outputRegions c l).any fun r => overlaps r (scratchUsed l need)

/-- Step 8: F_c of the input regions, written to the output regions (40_command_execution.md R143, R145). -/
def performWrites (c : Instr) (f : SemFn) (l : Operands) (m : Memory) : List Write :=
  List.zip ((outputRegions c l).map Region.base) (f l.length ((inputRegions c l).map (readRegion m)))

/-- Exec(op, L, D) for a word that decodes to c: steps 2–8, the first failing step deciding the result
(40_command_execution.md R145; 60_exceptions.md R301). Step 1 is the decoder's, in `Machine.sequencerCompletes`. -/
def execSteps (c : Instr) (f : SemFn) (l : Operands) (words : Nat) (m : Memory) : ExecResult :=
  let n := l.length
  match lengthPrecondition c n with
  | some code => failWith code 0 0
  | none =>
    if c = .nop ∨ n = 0 then { res := .ok, writes := [], needR := 0, mR := 0 }
    else
      let need := scratchNeed c n
      let m' := topLength c n
      let needR := needReported need
      let mR := lengthReported m'
      if sizeOverflow m' need then failWith .errOverflow needR mR
      else if rangeFailure c l words need then failWith .errRange needR mR
      else if l.scrSize.toNat < need then failWith .errNomem needR mR
      else if overlapFailure c l need then failWith .errOverlap needR mR
      else { res := .ok, writes := performWrites c f l m, needR := needR, mR := mR }

/-! ### The start and completion steps -/

/-- The start step of an accepted CMD write (40_command_execution.md R130). -/
def startStep (w : Word) (s : State) : State :=
  { s with
    cmd := w, op := w, snapshot := s.operands
    done := false, fail := false, result := .ok
    busy := true }

/-- DMEM after a completion: on success the output writes and then the havoc of the scratch-used words, on failure as before
(40_command_execution.md R131, R146, R147). -/
def dmemAfter (r : ExecResult) (s : State) : Memory :=
  if r.res = .ok then
    havoc (storeAll s.dmem s.draws r.writes) s.snapshot.scrBase.toNat (s.draws + writtenWords r.writes) r.needR
  else s.dmem

/-- The draws a completion takes: one per word stored. -/
def drawsAfter (r : ExecResult) (s : State) : Nat :=
  if r.res = .ok then s.draws + writtenWords r.writes + r.needR else s.draws

/-- The completion step, one atomic step (40_command_execution.md R131, 20_memory.md R90). -/
def completionStep (r : ExecResult) (s : State) : State :=
  { s with
    dmem := dmemAfter r s
    draws := drawsAfter r s
    scrNeed := BitVec.ofNat 32 r.needR
    blM := BitVec.ofNat 32 r.mR
    result := r.res
    fail := decide (r.res ≠ .ok)
    busy := false
    done := true }

/-- Entry into a failed command, this machine's exception: its completion step records the cause in RESULT, FAIL = 1, and
the size arithmetic reached; DMEM and every other register stay (60_exceptions.md R302, R303). -/
def takeFailure (code : ResultCode) (needR mR : Nat) (s : State) : State :=
  completionStep (failWith code needR mR) s

/-- The completion step of a command that decodes to c, with semantic function f. -/
def runCommand (c : Instr) (f : SemFn) (s : State) : State :=
  completionStep (execSteps c f s.snapshot s.dmemWords s.dmem) s

end Sys2Proof.Machine
end

