-- ==== Sys2Proof/Machine/Nop.lean ====
section
/-! DEFINITION. The command-execution family: NOP (40_command_execution.md R160). -/

namespace Sys2Proof.Machine

/-- NOP has no outputs: `F_NOP = ()` (40_command_execution.md R160). -/
def semNop : SemFn := fun _ _ => []

/-- NOP: Exec completes at step 3, whatever N and the pointers hold (40_command_execution.md R160). -/
def execNop (s : State) : Host.Outcome State Fault Refusal := .next (runCommand .nop semNop s)

end Sys2Proof.Machine
end

