-- ==== Sys2Proof/Machine/Radix2.lean ====
section
/-! DEFINITION. The radix-2 engine: Signals, the trigonometric parameter, the twiddle-factor ROM, the bit-reversal permuter,
the conjugate complex multiplier, the butterfly and its stages (00_scope.md R8, R19; 41_transform.md R170–R177). -/

namespace Sys2Proof.Machine

/-! ### Signals (00_scope.md R8) -/

/-- A complex value (re, im). -/
structure Cplx where
  re : FNum
  im : FNum
  deriving DecidableEq, Repr

/-- A Signal: two equal-length sequences, the real and the imaginary part (00_scope.md R8). -/
structure Signal where
  re : List FNum
  im : List FNum
  deriving DecidableEq, Repr

/-- x[i] of a sequence. Every index the rules use is inside the sequence; outside it this reads +0.0. -/
def elem (x : List FNum) (i : Nat) : FNum := x.getD i pzero

/-- The complex sample k of a Signal. -/
def Signal.sample (x : Signal) (k : Nat) : Cplx := { re := elem x.re k, im := elem x.im k }

/-- The sequence f(0), …, f(n−1): "for i in [0, n)" (00_scope.md R7). -/
def tabulate (n : Nat) (f : Nat → FNum) : List FNum := (List.range n).map f

/-- The Signal of length n with samples f(0), …, f(n−1). -/
def Signal.ofFn (n : Nat) (f : Nat → Cplx) : Signal :=
  { re := tabulate n fun i => (f i).re, im := tabulate n fun i => (f i).im }

/-- The real and imaginary sequences swapped (41_transform.md R191). -/
def Signal.swap (x : Signal) : Signal := { re := x.im, im := x.re }

/-! ### TRIG (00_scope.md R19) -/

/-- The encoding of 1.0. -/
def oneBits : DWord := 0x3FF0000000000000

/-- cosF: deterministic and total, with TRIG0, cosF(+0.0) = 1.0, and nothing else known (00_scope.md R19; log 8). -/
def cosF (x : DWord) : DWord := if x = 0 then oneBits else Config.cosFree x

/-- sinF: deterministic and total, with TRIG0, sinF(+0.0) = +0.0, and nothing else known (00_scope.md R19; log 8). -/
def sinF (x : DWord) : DWord := if x = 0 then 0 else Config.sinFree x

/-- (cosF(a), sinF(a)). No angle of R170 or R180 is a NaN, so the second line is never used (log 8). -/
def trig : FNum → Cplx
  | .word w => { re := .word (cosF w), im := .word (sinF w) }
  | .nan => { re := .nan, im := .nan }

/-! ### The twiddle-factor ROM (41_transform.md R170, R171) -/

/-- θ(n, k) = (TWO_PI_D · f64(k)) / f64(n) (41_transform.md R170). -/
def twiddleAngle (n k : Nat) : FNum := fdiv (fmul twoPiD (f64 k)) (f64 n)

/-- TW(n, k) = (cosF(θ), sinF(θ)) (41_transform.md R170). -/
def twiddle (n k : Nat) : Cplx := trig (twiddleAngle n k)

/-! ### The bit-reversal permuter (41_transform.md R172, R173) -/

/-- The loop of rev: w more bits of i to move onto r (41_transform.md R172). -/
def revLoop : Nat → Nat → Nat → Nat
  | 0, _, r => r
  | w + 1, i, r => revLoop w (i / 2) (2 * r + i % 2)

/-- rev(i, w), the w low bits of i reversed (41_transform.md R172). -/
def bitReverse (i w : Nat) : Nat := revLoop w i 0

/-- BR(re, im, n): re'[i] = re[rev(i, log2 n)], and im likewise (41_transform.md R173). -/
def permute (n : Nat) (x : Signal) : Signal := Signal.ofFn n fun i => x.sample (bitReverse i n.log2)

/-! ### The butterfly (41_transform.md R174–R177) -/

/-- cmulc(z, (c, s)) = z·conj(c + j·s) (41_transform.md R174). -/
def cmulConj (z w : Cplx) : Cplx :=
  { re := fadd (fmul z.re w.re) (fmul z.im w.im)
    im := fsub (fmul z.im w.re) (fmul z.re w.im) }

/-- One butterfly on positions j and j + h with twiddle w; both results use the old values (41_transform.md R175). -/
def butterfly (x : Signal) (j h : Nat) (w : Cplx) : Signal :=
  let l := j + h
  let t := cmulConj (x.sample l) w
  { re := (x.re.set l (fsub (elem x.re j) t.re)).set j (fadd (elem x.re j) t.re)
    im := (x.im.set l (fsub (elem x.im j) t.im)).set j (fadd (elem x.im j) t.im) }

/-- The butterflies of one block of a stage, q in [0, h), from position i0 on (41_transform.md R176). -/
def butterflyBlock (n size i0 : Nat) (x : Signal) : Signal :=
  (List.range (size / 2)).foldl (fun y q => butterfly y (i0 + q) (size / 2) (twiddle n (q * (n / size)))) x

/-- One stage: the blocks i0 = 0, size, 2·size, …, n − size (41_transform.md R176). -/
def butterflyStage (n size : Nat) (x : Signal) : Signal :=
  (List.range (n / size)).foldl (fun y b => butterflyBlock n size (b * size) y) x

/-- The stages size = 2, 4, …, n, in increasing size (41_transform.md R176). -/
def butterflyStages (n : Nat) (x : Signal) : Signal :=
  (List.range n.log2).foldl (fun y s => butterflyStage n (2 ^ (s + 1)) y) x

/-- R2(re, im, n), the radix-2 engine for a power of two n (41_transform.md R177). At n = 1 there is no arithmetic. -/
def radix2 (n : Nat) (x : Signal) : Signal := butterflyStages n (permute n x)

end Sys2Proof.Machine
end

