-- ==== Sys2Proof/Machine/Engine.lean ====
section
/-! DEFINITION. The complex multiplier, the circular-convolution engine, the Bluestein adapter and the transform dispatcher
(42_convolution.md R230–R234; 41_transform.md R180–R191). The convolution engine is written over the transform it uses, so
that the one level of nesting of 40_command_execution.md R154 is plain to see (log 17). -/

namespace Sys2Proof.Machine

/-! ### The complex multiplier and the convolution engine -/

/-- cmul(x, y), the plain product (42_convolution.md R230). -/
def cmulPlain (x y : Cplx) : Cplx :=
  { re := fsub (fmul x.re y.re) (fmul x.im y.im)
    im := fadd (fmul x.im y.re) (fmul x.re y.im) }

/-- INV over a given transform: swap, transform, swap back (41_transform.md R191). -/
def inverseBy (tr : Signal → Signal) (x : Signal) : Signal := (tr x.swap).swap

/-- One division of each part by f64(n) (42_convolution.md R232). -/
def divideBy (n : Nat) (z : Cplx) : Cplx := { re := fdiv z.re (f64 n), im := fdiv z.im (f64 n) }

/-- CC over a given transform (42_convolution.md R231). -/
def convolveBy (tr : Signal → Signal) (n : Nat) (x y : Signal) : Signal :=
  let fx := tr x
  let fy := tr y
  let q := inverseBy tr (Signal.ofFn n fun k => cmulPlain (fx.sample k) (fy.sample k))
  Signal.ofFn n fun k => divideBy n (q.sample k)

/-! ### The chirp table and the Bluestein adapter -/

/-- φ(n, i) = (PI_D · f64(i·i mod 2n)) / f64(n) (41_transform.md R180). -/
def chirpAngle (n i : Nat) : FNum := fdiv (fmul piD (f64 (i * i % (2 * n)))) (f64 n)

/-- CH(n, i) (41_transform.md R180). -/
def chirp (n i : Nat) : Cplx := trig (chirpAngle n i)

/-- (+0.0, +0.0). -/
def czero : Cplx := { re := pzero, im := pzero }

/-- Sequence a: the input times the conjugate chirp, zero-padded to M(n) (41_transform.md R182). -/
def bluesteinA (n : Nat) (x : Signal) : Signal :=
  Signal.ofFn (bluesteinLength n) fun i => if i < n then cmulConj (x.sample i) (chirp n i) else czero

/-- Sequence b: b[0] = chirp[0], b[i] = b[m−i] = chirp[i] for 1 ≤ i < n, zero elsewhere, both parts kept
(41_transform.md R183). -/
def bluesteinB (n : Nat) : Signal :=
  let m := bluesteinLength n
  Signal.ofFn m fun i => if i < n then chirp n i else if m - i < n then chirp n (m - i) else czero

/-- BL(re, im, n) (41_transform.md R186). Its convolution runs at M(n), a power of two, so by R184 and R154 every transform
inside takes the radix-2 path. -/
def bluestein (n : Nat) (x : Signal) : Signal :=
  let m := bluesteinLength n
  let c := convolveBy (radix2 m) m (bluesteinA n x) (bluesteinB n)
  Signal.ofFn n fun i => cmulConj (c.sample i) (chirp n i)

/-! ### The dispatcher -/

/-- T(re, im, n) (41_transform.md R190). -/
def transform (n : Nat) (x : Signal) : Signal :=
  if n = 0 then x else if isPow2 n then radix2 n x else bluestein n x

/-- INV(re, im, n), with no scaling (41_transform.md R191). -/
def inverse (n : Nat) (x : Signal) : Signal := inverseBy (transform n) x

/-- CC(xr, xi, yr, yi, n) (42_convolution.md R231). -/
def convolve (n : Nat) (x y : Signal) : Signal := convolveBy (transform n) n x y

end Sys2Proof.Machine
end

