-- ==== Sys2Proof/Machine/Transform.lean ====
section
/-! DEFINITION. The transform family: FFT, IFFT, FFTR2, FFTBL, BITREV, TWTAB, CHIRPTAB (41_transform.md R200–R206). -/

namespace Sys2Proof.Machine

/-- The i-th input sequence. -/
def inputSeq (ins : List (List FNum)) (i : Nat) : List FNum := ins.getD i []

/-- The Signal whose parts are the i-th and j-th input sequences. -/
def inputSignal (ins : List (List FNum)) (i j : Nat) : Signal := { re := inputSeq ins i, im := inputSeq ins j }

/-- A Signal as two output sequences, real then imaginary. -/
def Signal.outputs (x : Signal) : List (List FNum) := [x.re, x.im]

/-- F_FFT(n, xr, xi) = T(xr, xi, n) (41_transform.md R200). -/
def semFft : SemFn := fun n ins => (transform n (inputSignal ins 0 1)).outputs

/-- FFT (41_transform.md R200). -/
def execFft (s : State) : Host.Outcome State Fault Refusal := .next (runCommand .fft semFft s)

/-- F_IFFT(n, xr, xi) = INV(xr, xi, n), unscaled (41_transform.md R201). -/
def semIfft : SemFn := fun n ins => (inverse n (inputSignal ins 0 1)).outputs

/-- IFFT (41_transform.md R201). -/
def execIfft (s : State) : Host.Outcome State Fault Refusal := .next (runCommand .ifft semIfft s)

/-- F_FFTR2(n, xr, xi) = R2(xr, xi, n) (41_transform.md R202). -/
def semFftr2 : SemFn := fun n ins => (radix2 n (inputSignal ins 0 1)).outputs

/-- FFTR2 (41_transform.md R202). -/
def execFftr2 (s : State) : Host.Outcome State Fault Refusal := .next (runCommand .fftr2 semFftr2 s)

/-- F_FFTBL(n, xr, xi) = BL(xr, xi, n), at powers of two as well (41_transform.md R203). -/
def semFftbl : SemFn := fun n ins => (bluestein n (inputSignal ins 0 1)).outputs

/-- FFTBL (41_transform.md R203). -/
def execFftbl (s : State) : Host.Outcome State Fault Refusal := .next (runCommand .fftbl semFftbl s)

/-- F_BITREV(n, xr, xi) = BR(xr, xi, n): values move unchanged (41_transform.md R204). -/
def semBitrev : SemFn := fun n ins => (permute n (inputSignal ins 0 1)).outputs

/-- BITREV (41_transform.md R204). -/
def execBitrev (s : State) : Host.Outcome State Fault Refusal := .next (runCommand .bitrev semBitrev s)

/-- TWTAB: TW(n, k) for k in [0, n div 2) (41_transform.md R205). -/
def semTwtab : SemFn := fun n _ => (Signal.ofFn (n / 2) (twiddle n)).outputs

/-- TWTAB (41_transform.md R205). -/
def execTwtab (s : State) : Host.Outcome State Fault Refusal := .next (runCommand .twtab semTwtab s)

/-- CHIRPTAB: CH(n, i) for i in [0, n) (41_transform.md R206). -/
def semChirptab : SemFn := fun n _ => (Signal.ofFn n (chirp n)).outputs

/-- CHIRPTAB (41_transform.md R206). -/
def execChirptab (s : State) : Host.Outcome State Fault Refusal := .next (runCommand .chirptab semChirptab s)

end Sys2Proof.Machine
end

