-- ==== Sys2Proof/Machine/Convolution.lean ====
section
/-! DEFINITION. The convolution family: CONVC, CONVR, CMUL, SCALE (42_convolution.md R240–R243). -/

namespace Sys2Proof.Machine

/-- n copies of +0.0 (42_convolution.md R241). -/
def zeros (n : Nat) : List FNum := List.replicate n pzero

/-- A real sequence as a Signal with +0.0 imaginary part. -/
def realSignal (n : Nat) (x : List FNum) : Signal := { re := x, im := zeros n }

/-- F_CONVC = CC(xr, xi, yr, yi, n) (42_convolution.md R240). -/
def semConvc : SemFn := fun n ins => (convolve n (inputSignal ins 0 1) (inputSignal ins 2 3)).outputs

/-- CONVC (42_convolution.md R240). -/
def execConvc (s : State) : Host.Outcome State Fault Refusal := .next (runCommand .convc semConvc s)

/-- CONVR: the real part of CC(xr, 0, yr, 0, n); the imaginary part is discarded (42_convolution.md R241). -/
def semConvr : SemFn := fun n ins =>
  [(convolve n (realSignal n (inputSeq ins 0)) (realSignal n (inputSeq ins 1))).re]

/-- CONVR (42_convolution.md R241). -/
def execConvr (s : State) : Host.Outcome State Fault Refusal := .next (runCommand .convr semConvr s)

/-- CMUL: cmul(x[k], y[k]) for k in [0, n) (42_convolution.md R242). -/
def semCmul : SemFn := fun n ins =>
  (Signal.ofFn n fun k => cmulPlain ((inputSignal ins 0 1).sample k) ((inputSignal ins 2 3).sample k)).outputs

/-- CMUL (42_convolution.md R242). -/
def execCmul (s : State) : Host.Outcome State Fault Refusal := .next (runCommand .cmul semCmul s)

/-- SCALE: one division of each part by f64(n) (42_convolution.md R232, R243). -/
def semScale : SemFn := fun n ins => (Signal.ofFn n fun k => divideBy n ((inputSignal ins 0 1).sample k)).outputs

/-- SCALE (42_convolution.md R243). -/
def execScale (s : State) : Host.Outcome State Fault Refusal := .next (runCommand .scale semScale s)

end Sys2Proof.Machine
end

