-- ==== Sys2Proof/Machine/Packing.lean ====
section
/-! DEFINITION. The packing family: the dual-real packer and unpacker, the magnitude unit, and FFT2R, ABSFFT, ABSFFT2
(43_packing.md R260–R272). -/

namespace Sys2Proof.Machine

/-- Two real signals packed into one Signal: re = s1, im = s2, no arithmetic (43_packing.md R260). -/
def pack (s1 s2 : List FNum) : Signal := { re := s1, im := s2 }

/-- conj: the imaginary part negated by fneg (43_packing.md R261). -/
def Cplx.mirror (z : Cplx) : Cplx := { re := z.re, im := fneg z.im }

/-- The interior bin k of X1: (HALF·(a + c), HALF·(b − d)) (43_packing.md R261). -/
def interior1 (n : Nat) (x : Signal) (k : Nat) : Cplx :=
  { re := fmul half (fadd (elem x.re k) (elem x.re (n - k)))
    im := fmul half (fsub (elem x.im k) (elem x.im (n - k))) }

/-- The interior bin k of X2: (HALF·(b + d), HALF·(c − a)) (43_packing.md R261). -/
def interior2 (n : Nat) (x : Signal) (k : Nat) : Cplx :=
  { re := fmul half (fadd (elem x.im k) (elem x.im (n - k)))
    im := fmul half (fsub (elem x.re (n - k)) (elem x.re k)) }

/-- Bin k of a spectrum unpacked by conjugate symmetry: bins 0 and n/2 are special, bins 1 … n/2 − 1 are computed, and
bin n − k mirrors bin k (43_packing.md R261, R262). -/
def unpackBin (n : Nat) (special interior : Nat → Cplx) (k : Nat) : Cplx :=
  if k = 0 ∨ k = n / 2 then special k
  else if k < n / 2 then interior k
  else (interior (n - k)).mirror

/-- X1 of UNPACK(Xr, Xi, n) (43_packing.md R261). -/
def unpack1 (n : Nat) (x : Signal) : Signal :=
  Signal.ofFn n (unpackBin n (fun k => { re := elem x.re k, im := pzero }) (interior1 n x))

/-- X2 of UNPACK(Xr, Xi, n) (43_packing.md R261). -/
def unpack2 (n : Nat) (x : Signal) : Signal :=
  Signal.ofFn n (unpackBin n (fun k => { re := elem x.im k, im := pzero }) (interior2 n x))

/-- MAG(r, i, n) = (TWO · fsqrt((r·r) + (i·i))) / f64(n) (43_packing.md R265). -/
def magnitude (n : Nat) (z : Cplx) : FNum :=
  fdiv (fmul two (fsqrt (fadd (fmul z.re z.re) (fmul z.im z.im)))) (f64 n)

/-- The one-sided magnitudes of bins 0 … n div 2 (43_packing.md R265). -/
def magnitudes (n : Nat) (x : Signal) : List FNum := tabulate (n / 2 + 1) fun k => magnitude n (x.sample k)

/-- FFT2R: X1 and X2 of UNPACK(T(s1, s2, n), n) (43_packing.md R270). -/
def semFft2r : SemFn := fun n ins =>
  let x := transform n (pack (inputSeq ins 0) (inputSeq ins 1))
  (unpack1 n x).outputs ++ (unpack2 n x).outputs

/-- FFT2R (43_packing.md R270). -/
def execFft2r (s : State) : Host.Outcome State Fault Refusal := .next (runCommand .fft2r semFft2r s)

/-- ABSFFT: MAG of each bin of T(xr, 0, n), no packing (43_packing.md R271). -/
def semAbsfft : SemFn := fun n ins => [magnitudes n (transform n (realSignal n (inputSeq ins 0)))]

/-- ABSFFT (43_packing.md R271). -/
def execAbsfft (s : State) : Host.Outcome State Fault Refusal := .next (runCommand .absfft semAbsfft s)

/-- ABSFFT2: MAG of each bin of X1 and of X2 (43_packing.md R272). -/
def semAbsfft2 : SemFn := fun n ins =>
  let x := transform n (pack (inputSeq ins 0) (inputSeq ins 1))
  [magnitudes n (unpack1 n x), magnitudes n (unpack2 n x)]

/-- ABSFFT2 (43_packing.md R272). -/
def execAbsfft2 (s : State) : Host.Outcome State Fault Refusal := .next (runCommand .absfft2 semAbsfft2 s)

end Sys2Proof.Machine
end

