-- ==== Sys2Proof/Machine/Dispatch.lean ====
section
/-! DEFINITION. The dispatch from a command to its meaning (30_encoding.md R103). -/

namespace Sys2Proof.Machine

def exec (i : Instr) (s : State) : Host.Outcome State Fault Refusal :=
  match i with
  | .nop => Sys2Proof.Machine.execNop s
  | .fft => Sys2Proof.Machine.execFft s
  | .ifft => Sys2Proof.Machine.execIfft s
  | .fftr2 => Sys2Proof.Machine.execFftr2 s
  | .fftbl => Sys2Proof.Machine.execFftbl s
  | .convc => Sys2Proof.Machine.execConvc s
  | .convr => Sys2Proof.Machine.execConvr s
  | .fft2r => Sys2Proof.Machine.execFft2r s
  | .absfft => Sys2Proof.Machine.execAbsfft s
  | .absfft2 => Sys2Proof.Machine.execAbsfft2 s
  | .bitrev => Sys2Proof.Machine.execBitrev s
  | .cmul => Sys2Proof.Machine.execCmul s
  | .scale => Sys2Proof.Machine.execScale s
  | .twtab => Sys2Proof.Machine.execTwtab s
  | .chirptab => Sys2Proof.Machine.execChirptab s

end Sys2Proof.Machine
end

