-- ==== Sys2Proof/Machine/HostPort.lean ====
section
/-! DEFINITION. The slave port: the block space map, register reads and writes, the DMEM window, and the response to one
host transaction (20_memory.md R70–R78, 10_state.md R31–R41, 60_exceptions.md R305). -/

namespace Sys2Proof.Machine

/-- Every register, in the order of the map. -/
def allRegisters : List RegName :=
  [.id, .version, .cap, .cmd, .status, .irqEn, .n, .xr, .xi, .yr, .yi, .outR, .outI, .out2R, .out2I,
   .scrBase, .scrSize, .scrNeed, .blM]

/-- The offset of a register (10_state.md R32). -/
def registerOffset : RegName → Nat
  | .id => 0x000
  | .version => 0x004
  | .cap => 0x008
  | .cmd => 0x00C
  | .status => 0x010
  | .irqEn => 0x014
  | .n => 0x018
  | .xr => 0x01C
  | .xi => 0x020
  | .yr => 0x024
  | .yi => 0x028
  | .outR => 0x02C
  | .outI => 0x030
  | .out2R => 0x034
  | .out2I => 0x038
  | .scrBase => 0x03C
  | .scrSize => 0x040
  | .scrNeed => 0x044
  | .blM => 0x048

/-- The register at an offset, if there is one. -/
def registerAt (a : Nat) : Option RegName := allRegisters.find? fun r => decide (registerOffset r = a)

/-- Where a block offset leads (20_memory.md R71). -/
inductive Target where
  | register (r : RegName)
  | reserved
  | window (w h : Nat)
  | unmapped
  deriving DecidableEq, Repr

/-- The first offset of the DMEM window (20_memory.md R71). -/
def windowBase : Nat := 0x80000000

/-- The offset of half h of DMEM word w (20_memory.md R73). -/
def windowOffset (w h : Nat) : Nat := windowBase + 8 * w + 4 * h

/-! ### The block on the host interconnect (20_memory.md R70) -/

/-- An access as a bus master puts it on the host interconnect: to an address there, not to a block offset. -/
structure BusAccess where
  access  : Access
  address : Nat
  whole   : Bool
  deriving DecidableEq, Repr

/-- The interconnect address of a block offset, for a block at `base` (20_memory.md R70). -/
def busAddress (base : Nat) (a : Word) : Nat := base + a.toNat

/-- The block offset an interconnect address selects: the block's space is 32-bit byte addressed from `base` on, and an address
outside it does not reach the block (20_memory.md R70). -/
def blockOffset (base address : Nat) : Option Word :=
  if base ≤ address ∧ address < base + 2 ^ 32 then some (BitVec.ofNat 32 (address - base)) else none

/-- The transaction that a bus access becomes at the block's port, if it reaches the block (20_memory.md R70, R72). -/
def selectedTransaction (base : Nat) (b : BusAccess) : Option Transaction :=
  (blockOffset base b.address).map fun a => { access := b.access, offset := a, whole := b.whole }

/-- The access a bus master makes for a transaction of the block (20_memory.md R70). -/
def onBus (base : Nat) (t : Transaction) : BusAccess :=
  { access := t.access, address := busAddress base t.offset, whole := t.whole }

/-- The events that a list of bus accesses delivers to the block, in order (20_memory.md R70, R90). -/
def deliveredEvents (base : Nat) (bs : List BusAccess) : List Event := (bs.filterMap (selectedTransaction base)).map .transaction

/-- The state after the interconnect has taken bus accesses for the block at the platform's base address: those that reach it
stand behind the events already there (20_memory.md R70, R91; log 14). -/
def receiveBus (bs : List BusAccess) (s : State) : State :=
  { s with inbox := s.inbox ++ deliveredEvents Config.blockBase bs }

/-! ### The map inside the block -/

/-- The block space map at a 4-byte-aligned offset (20_memory.md R71, R73). -/
def blockTarget (words a : Nat) : Target :=
  if a < 0x1000 then
    match registerAt a with
    | some r => .register r
    | none => .reserved
  else if windowBase ≤ a ∧ a < windowBase + 8 * words then
    .window ((a - windowBase) / 8) ((a - windowBase) / 4 % 2)
  else .unmapped

/-- What a read of a register returns (10_state.md R31–R39). -/
def readRegister (s : State) : RegName → Word
  | .id => 0x46465445
  | .version => 0x00010000
  | .cap => BitVec.ofNat 32 s.dmemWords
  | .cmd => s.cmd
  | .status => statusWord s
  | .irqEn => irqEnWord s
  | .n => s.operands.n
  | .xr => s.operands.xr
  | .xi => s.operands.xi
  | .yr => s.operands.yr
  | .yi => s.operands.yi
  | .outR => s.operands.outR
  | .outI => s.operands.outI
  | .out2R => s.operands.out2R
  | .out2I => s.operands.out2I
  | .scrBase => s.operands.scrBase
  | .scrSize => s.operands.scrSize
  | .scrNeed => s.scrNeed
  | .blM => s.blM

/-- A host write to CMD: accepted while idle, refused with OVR while busy (10_state.md R33, 40_command_execution.md R130). -/
def writeCmd (v : Word) (s : State) : State := if s.busy then { s with ovr := true } else startStep v s

/-- What a write to a register does; writes to the read-only ones are ignored (10_state.md R31–R39). -/
def writeRegister (v : Word) (s : State) : RegName → State
  | .id => s
  | .version => s
  | .cap => s
  | .cmd => writeCmd v s
  | .status => writeStatus v s
  | .irqEn => writeIrqEn v s
  | .n => { s with operands := { s.operands with n := v } }
  | .xr => { s with operands := { s.operands with xr := v } }
  | .xi => { s with operands := { s.operands with xi := v } }
  | .yr => { s with operands := { s.operands with yr := v } }
  | .yi => { s with operands := { s.operands with yi := v } }
  | .outR => { s with operands := { s.operands with outR := v } }
  | .outI => { s with operands := { s.operands with outI := v } }
  | .out2R => { s with operands := { s.operands with out2R := v } }
  | .out2I => { s with operands := { s.operands with out2I := v } }
  | .scrBase => { s with operands := { s.operands with scrBase := v } }
  | .scrSize => { s with operands := { s.operands with scrSize := v } }
  | .scrNeed => s
  | .blM => s

/-- The port answers a transaction. -/
def respond (r : Response) (s : State) : State := { s with response := some r }

/-- BUSERR: no state changes, and a read returns 0x0000_0000 (20_memory.md R74, 60_exceptions.md R305). -/
def busError (acc : Access) (s : State) : State :=
  match acc with
  | .read => respond (.read 0 .buserr) s
  | .write _ => respond (.write .buserr) s

/-- HostRead or HostWrite at an aligned offset, 32 bits wide (20_memory.md R71–R76). -/
def alignedAccess (acc : Access) (a : Nat) (s : State) : State :=
  match blockTarget s.dmemWords a with
  | .register r =>
    match acc with
    | .read => respond (.read (readRegister s r) .okay) s
    | .write v => respond (.write .okay) (writeRegister v s r)
  | .reserved =>
    match acc with
    | .read => respond (.read 0 .okay) s
    | .write _ => respond (.write .okay) s
  | .window w h =>
    if s.busy then busError acc s
    else
      match acc with
      | .read => respond (.read (readHalf s.dmem w h) .okay) s
      | .write v => respond (.write .okay) { s with dmem := writeHalf s.dmem w h v }
  | .unmapped => busError acc s

/-- One host transaction (20_memory.md R72, R74). -/
def hostTransaction (t : Transaction) (s : State) : State :=
  if t.whole ∧ t.offset.toNat % 4 = 0 then alignedAccess t.access t.offset.toNat s
  else busError t.access s

end Sys2Proof.Machine
end

