-- ==== Sys2Proof/Machine/ResetInput.lean ====
section
/-! DEFINITION. The reset input: what its assertion does to the registers and to DMEM (70_reset_and_hazards.md
R330–R333). -/

namespace Sys2Proof.Machine

/-- The regions whose words inside DMEM become unspecified when a reset abandons the running command: its output regions and
the declared scratch; none when op does not decode or is NOP (70_reset_and_hazards.md R331). -/
def lostRegions (s : State) : List Region :=
  match decode s.op with
  | .error _ => []
  | .ok c =>
    if c = .nop then []
    else (outputRegions c s.snapshot ++ [scratchDeclared s.snapshot]).map (Region.clip s.dmemWords)

/-- The regions a reset loses words of: none while idle (70_reset_and_hazards.md R331). -/
def resetLoss (s : State) : List Region := if s.busy then lostRegions s else []

/-- Every register and the hidden command state at the reset values, DMEM kept but for the lost words, the reset input
asserted (70_reset_and_hazards.md R330, R331). -/
def assertReset (s : State) : State :=
  { State.reset with
    dmemWords := s.dmemWords
    dmem := havocAll s.dmem s.draws (resetLoss s)
    draws := s.draws + regionWords (resetLoss s)
    inbox := s.inbox
    resetLine := true }

/-- The reset input is released (70_reset_and_hazards.md R333). -/
def releaseReset (s : State) : State := { s with resetLine := false }

end Sys2Proof.Machine
end

