-- ==== Sys2Proof/Machine/Sequencer.lean ====
section
/-! DEFINITION. The sequencer's turn and the events at the block's boundary (10_state.md R30, 20_memory.md R90,
70_reset_and_hazards.md R352). -/

namespace Sys2Proof.Machine

/-- The events that remain once the first has been taken. -/
def withInbox (rest : List Event) (s : State) : State := { s with inbox := rest }

/-- The completion step of the running command: Exec's step 1 decodes op, a word that names no command fails with ERR_CMD,
and any other runs its meaning (40_command_execution.md R131, R145; 30_encoding.md R104, R105). -/
def sequencerCompletes (s : State) : Host.Outcome State Fault Refusal :=
  match decode s.op with
  | .error _ => .next (takeFailure .errCmd 0 0 s)
  | .ok c => exec c s

/-- The sequencer's turn: a busy one completes its command, an idle one does nothing (60_exceptions.md R319). -/
def sequencerStep (s : State) : Host.Outcome State Fault Refusal :=
  if s.busy then sequencerCompletes s else .next s

/-- One event at the boundary. A transaction under an asserted reset is refused (70_reset_and_hazards.md R333; log 11). -/
def eventStep (e : Event) (s : State) : Host.Outcome State Fault Refusal :=
  match e with
  | .transaction t => if s.resetLine then .refused .transactionDuringReset else .next (hostTransaction t s)
  | .sequencerTurn => sequencerStep s
  | .resetAsserted => .next (assertReset s)
  | .resetReleased => .next (releaseReset s)

end Sys2Proof.Machine
end

