-- ==== Sys2Proof/Machine/Step.lean ====
section
/-! DEFINITION. One step of the machine: the next event of the inbox, or, with none left, the sequencer's turn
(10_state.md R30, 20_memory.md R90, 70_reset_and_hazards.md R352). -/

namespace Sys2Proof.Machine

/-- One step. Whatever stands in the inbox, a busy sequencer gets its turn after finitely many events
(70_reset_and_hazards.md R352; log 1). -/
def step (s : State) : Host.Outcome State Fault Refusal :=
  match s.inbox with
  | [] => sequencerStep s
  | e :: rest => eventStep e (withInbox rest s)

/-- `s` with the command word `w` accepted and about to run: FFTE fetches nothing from memory, a command is the word of an
accepted CMD write (20_memory.md R94, 40_command_execution.md R130), so this is the start step of that write with the
sequencer's turn next (log 2). -/
def State.withFetchWord (s : State) (nbits w : Nat) : State :=
  withInbox (.sequencerTurn :: s.inbox) (startStep (tableWord nbits w) s)

end Sys2Proof.Machine
end

