-- ==== Sys2Proof/Machine/HostProgram.lean ====
section
/-! DEFINITION. The host-program notation of 30_encoding.md R110 and R111 as the transactions each line expands to. The host's
own loops and branches are the host's (log 22). -/

namespace Sys2Proof.Machine

/-- HostRead(a), a whole 32-bit read. -/
def hostRead (a : Nat) : Transaction := { access := .read, offset := BitVec.ofNat 32 a, whole := true }

/-- HostWrite(a, v), a whole 32-bit write. -/
def hostWrite (a : Nat) (v : Word) : Transaction := { access := .write v, offset := BitVec.ofNat 32 a, whole := true }

/-- The lines of a host program (30_encoding.md R110). -/
inductive HostLine where
  /-- `wr REG, imm` -/
  | wr (r : RegName) (v : Word)
  /-- `rd REG` -/
  | rd (r : RegName)
  /-- `st.d w, f64` -/
  | storeDouble (w : Nat) (v : DWord)
  /-- `ld.d w` -/
  | loadDouble (w : Nat)
  /-- `cmd MNEMONIC` -/
  | cmd (i : Instr)
  deriving DecidableEq, Repr

/-- The transactions of a line (30_encoding.md R110). -/
def lineTransactions : HostLine → List Transaction
  | .wr r v => [hostWrite (registerOffset r) v]
  | .rd r => [hostRead (registerOffset r)]
  | .storeDouble w v =>
    [hostWrite (windowOffset w 0) (v.extractLsb' 0 32), hostWrite (windowOffset w 1) (v.extractLsb' 32 32)]
  | .loadDouble w => [hostRead (windowOffset w 0), hostRead (windowOffset w 1)]
  | .cmd i => [hostWrite (registerOffset .cmd) (encode i)]

/-- `ack` = `wr STATUS, 0x0000_0002` (30_encoding.md R111). -/
def ackLines : List HostLine := [.wr .status 0x00000002]

/-- `sig w, n, [v0, …]` (30_encoding.md R111). -/
def signalLines : Nat → List DWord → List HostLine
  | _, [] => []
  | w, v :: vs => .storeDouble w v :: signalLines (w + 1) vs

/-- One turn of `wait`: a read of STATUS; the host repeats it until `waitEnds` (30_encoding.md R111). -/
def pollLines : List HostLine := [.rd .status]

/-- `wait` ends when bit 1 (DONE) of the STATUS just read is 1 (30_encoding.md R111). -/
def waitEnds (status : Word) : Bool := status.getLsbD 1

/-- `run MNEMONIC` with k polls: `cmd MNEMONIC; wait` (30_encoding.md R111). -/
def runLines (i : Instr) (k : Nat) : List HostLine := .cmd i :: (List.replicate k pollLines).flatten

/-- `check OK`: bits 15:8 = 0x00 and bit 2 = 0 (30_encoding.md R111). -/
def checkOk (status : Word) : Bool := decide (status.extractLsb' 8 8 = 0) && !status.getLsbD 2

/-- A host program's events: its transactions in order, with no sequencer turn between them. -/
def programEvents (ls : List HostLine) : List Event := (ls.map lineTransactions).flatten.map .transaction

/-- A host program's accesses on the interconnect, for a block at `base` (20_memory.md R70). -/
def programAccesses (base : Nat) (ls : List HostLine) : List BusAccess := (ls.map lineTransactions).flatten.map (onBus base)

end Sys2Proof.Machine
end

