-- ==== Sys2Proof/Safety.lean ====
section
/-! DEFINITION. What statements are made of: the state invariant, when a command's checks pass, and what it is for DMEM to
hold a value. -/

namespace Sys2Proof.Safety

open Sys2Proof.Machine

/-- Every register at its reset value and the sequencer idle (70_reset_and_hazards.md R330). -/
def RegistersReset (s : State) : Prop :=
  s.cmd = 0 ∧ s.busy = false ∧ s.done = false ∧ s.fail = false ∧ s.ovr = false ∧ s.result = .ok ∧ s.doneIe = false ∧
  s.operands = .zero ∧ s.scrNeed = 0 ∧ s.blM = 0

/-- What holds of every state a run can reach. -/
structure Inv (s : State) : Prop where
  /-- 1 ≤ DMEM_WORDS ≤ 2^28 (00_scope.md R5). -/
  dmemWords_legal : dmemWordsLegal s.dmemWords = true
  /-- Memory keeps its canonical form. -/
  dmem_wf : Memory.wf s.dmem = true
  /-- Every written byte lies inside DMEM (20_memory.md R79). -/
  dmem_inside : Memory.below (8 * s.dmemWords) s.dmem = true
  /-- FAIL is 1 exactly when RESULT ≠ 0x00 (10_state.md R34). -/
  fail_iff : s.fail = decide (s.result ≠ .ok)
  /-- While busy, DONE = 0 and RESULT = 0x00, as the start step left them (10_state.md R34, 70_reset_and_hazards.md R343). -/
  busy_clears : s.busy = true → s.done = false ∧ s.result = .ok
  /-- While busy, CMD still shows the running command (10_state.md R33). -/
  busy_cmd : s.busy = true → s.op = s.cmd
  /-- BL_M is 0 or a power of two (10_state.md R39, 41_transform.md R181). -/
  blM_legal : s.blM = 0 ∨ isPow2 s.blM.toNat = true
  /-- While reset is asserted every register is at its reset value (70_reset_and_hazards.md R330). -/
  reset_holds : s.resetLine = true → RegistersReset s

/-- Step 4 passes: neither the Bluestein length nor the scratch need exceeds 2^32 − 1 (40_command_execution.md R145, R153). -/
abbrev SizesFit (c : Instr) (l : Operands) : Prop :=
  topLength c l.length ≤ 2 ^ 32 - 1 ∧ scratchNeed c l.length ≤ 2 ^ 32 - 1

/-- Step 5 passes: every operand region, and with need > 0 the declared scratch, lies inside DMEM
(40_command_execution.md R142, R145). -/
abbrev RangesFit (c : Instr) (l : Operands) (words : Nat) : Prop :=
  (∀ r ∈ inputRegions c l ++ outputRegions c l, r.len = 0 ∨ r.base + r.len ≤ words) ∧
  (0 < scratchNeed c l.length → l.scrBase.toNat + l.scrSize.toNat ≤ words)

/-- Step 6 passes: the declared scratch is large enough (40_command_execution.md R145, R150). -/
abbrev ScratchSuffices (c : Instr) (l : Operands) : Prop := scratchNeed c l.length ≤ l.scrSize.toNat

/-- Step 7 passes: no two outputs overlap, and the scratch-used region overlaps no operand (40_command_execution.md R143,
R145). -/
abbrev RegionsDisjoint (c : Instr) (l : Operands) : Prop :=
  ((outputRegions c l).Pairwise fun r t => overlaps r t = false) ∧
  ∀ r ∈ inputRegions c l ++ outputRegions c l, overlaps r (scratchUsed l (scratchNeed c l.length)) = false

/-- Step 3 does not complete the command: it is not NOP and n ≠ 0 (40_command_execution.md R145). -/
abbrev HasWork (c : Instr) (l : Operands) : Prop := c ≠ .nop ∧ l.length ≠ 0

/-- Every check of Exec passes for command c with operands l and DMEM_WORDS = words, and there is work to do: step 8 is
reached (40_command_execution.md R145). -/
structure CommandReady (c : Instr) (l : Operands) (words : Nat) : Prop where
  length_ok : lengthPrecondition c l.length = none
  work : HasWork c l
  sizes : SizesFit c l
  ranges : RangesFit c l words
  scratch : ScratchSuffices c l
  disjoint : RegionsDisjoint c l

/-- A stored word is what a value asks for: its bits, or any quiet NaN for an open NaN (00_scope.md R16). -/
def HoldsValue (w : DWord) : FNum → Prop
  | .word v => w = v
  | .nan => isQuietNaN w = true

/-- From word p on, DMEM holds the sequence vs. -/
def HoldsSeq (m : Memory) (p : Nat) (vs : List FNum) : Prop :=
  ∀ i, i < vs.length → HoldsValue (readWord m (p + i)) (elem vs i)

/-- Word w is one that a successful command with these operands may change: in an output region or scratch-used. -/
def Touched (c : Instr) (l : Operands) (w : Nat) : Prop :=
  (∃ r ∈ outputRegions c l, r.contains w = true) ∨ (scratchUsed l (scratchNeed c l.length)).contains w = true

/-- The sequence of DMEM words a register addresses, n of them (00_scope.md R7, R8). -/
def operandSeq (s : State) (base : Word) : List FNum := readRegion s.dmem (regionAt base s.snapshot.length)

/-- The Signal whose parts two registers address (00_scope.md R8). -/
def operandSignal (s : State) (re im : Word) : Signal := { re := operandSeq s re, im := operandSeq s im }

/-- s and t agree on all registers a command never writes, and on everything else but STATUS, SCR_NEED, BL_M, DMEM and the
draws (10_state.md R40, 60_exceptions.md R303). -/
def SameControl (s t : State) : Prop :=
  t.dmemWords = s.dmemWords ∧ t.cmd = s.cmd ∧ t.doneIe = s.doneIe ∧ t.operands = s.operands ∧ t.snapshot = s.snapshot ∧
  t.op = s.op ∧ t.ovr = s.ovr ∧ t.resetLine = s.resetLine ∧ t.response = s.response ∧ t.inbox = s.inbox

/-- The completion's STATUS: BUSY = 0, DONE = 1, RESULT, and FAIL = (RESULT ≠ 0x00) (40_command_execution.md R131). -/
def CompletedWith (code : ResultCode) (needR mR : Nat) (t : State) : Prop :=
  t.busy = false ∧ t.done = true ∧ t.result = code ∧ t.fail = decide (code ≠ .ok) ∧
  t.scrNeed = BitVec.ofNat 32 needR ∧ t.blM = BitVec.ofNat 32 mR

/-- A result in DMEM: the register that holds its base address, its length, and its values. -/
structure Output where
  base   : Word
  len    : Nat
  values : List FNum
  deriving DecidableEq, Repr

/-- The command succeeds: it completes with RESULT OK, its own SCR_NEED and BL_M; its output regions are those of the listed
outputs; every listed output has its full length and is held from its base address on; and every byte outside the output
regions and the scratch-used region is as before (40_command_execution.md R131, R140, R147). -/
def SucceedsHolding (c : Instr) (s : State) (outs : List Output) : Prop :=
  ∃ t, exec c s = .next t ∧ SameControl s t ∧
    CompletedWith .ok (scratchNeed c s.snapshot.length) (lengthReported (topLength c s.snapshot.length)) t ∧
    outputRegions c s.snapshot = (outs.map fun o => regionAt o.base o.len) ∧
    (∀ o ∈ outs, o.values.length = o.len ∧ HoldsSeq t.dmem o.base.toNat o.values) ∧
    ∀ a, ¬ Touched c s.snapshot (a / 8) → readByte t.dmem a = readByte s.dmem a

/-- `bits` are the magnitude bits that num/den units of 2^-1074 round to: +∞ exactly from half an ulp above the largest finite
value on, else nearest, ties to even. v and u are magnitudes in units; u > v is no nearer when 2·num ≤ den·(u + v), and u < v is
no nearer when den·(u + v) ≤ 2·num (00_scope.md R11, R17; the rounding is IEEE 754's, log 15). -/
def RoundsTo (num den bits : Nat) : Prop :=
  bits ≤ infBits ∧ (bits = infBits ↔ den * ((2 ^ 54 - 1) * 2 ^ 2044) ≤ num) ∧
  ∀ v, valueOf (BitVec.ofNat 64 bits) = .fin false v →
    ∀ (w : DWord) (u : Nat), valueOf w = .fin false u →
      (v < u → 2 * num ≤ den * (u + v) ∧ (2 * num = den * (u + v) → bits % 2 = 0)) ∧
      (u < v → den * (u + v) ≤ 2 * num ∧ (den * (u + v) = 2 * num → bits % 2 = 0))

/-- `bits` are the magnitude bits that the square root of a units rounds to: a finite v such that the root (of a·2^1074 square
units) lies on v's side of every midpoint (u + v)/2 (00_scope.md R11; log 15). -/
def RootRoundsTo (a bits : Nat) : Prop :=
  ∃ v, valueOf (BitVec.ofNat 64 bits) = .fin false v ∧
    ∀ (w : DWord) (u : Nat), valueOf w = .fin false u →
      (v < u → 4 * (a * 2 ^ 1074) ≤ (u + v) ^ 2) ∧ (u < v → (u + v) ^ 2 ≤ 4 * (a * 2 ^ 1074))

/-- The transactions that get BUSERR: misaligned or of another width, unmapped, or in the DMEM window while busy
(20_memory.md R71, R74). -/
def BusErrorCase (s : State) (t : Transaction) : Prop :=
  t.whole = false ∨ t.offset.toNat % 4 ≠ 0 ∨
  (0x1000 ≤ t.offset.toNat ∧ t.offset.toNat < 0x80000000) ∨
  0x80000000 + 8 * s.dmemWords ≤ t.offset.toNat ∨
  (s.busy = true ∧ 0x80000000 ≤ t.offset.toNat ∧ t.offset.toNat < 0x80000000 + 8 * s.dmemWords)

/-- The value of a register a command names (40_command_execution.md R140). -/
def namedOperands : Instr → Operands → List Word
  | .nop, _ => []
  | .fft, l => [l.xr, l.xi]
  | .ifft, l => [l.xr, l.xi]
  | .fftr2, l => [l.xr, l.xi]
  | .fftbl, l => [l.xr, l.xi]
  | .bitrev, l => [l.xr, l.xi]
  | .scale, l => [l.xr, l.xi]
  | .convc, l => [l.xr, l.xi, l.yr, l.yi, l.outR, l.outI]
  | .cmul, l => [l.xr, l.xi, l.yr, l.yi, l.outR, l.outI]
  | .convr, l => [l.xr, l.yr, l.outR]
  | .fft2r, l => [l.xr, l.yr, l.outR, l.outI, l.out2R, l.out2I]
  | .absfft, l => [l.xr, l.outR]
  | .absfft2, l => [l.xr, l.yr, l.outR, l.out2R]
  | .twtab, l => [l.outR, l.outI]
  | .chirptab, l => [l.outR, l.outI]

end Sys2Proof.Safety
end

