-- ==== Sys2Proof/Certificates/Slice0/Obligations.lean ====
section
/-! DEFINITION. The statements for the provers, each a reading of numbered rules of spec/. -/

open Sys2Proof Sys2Proof.Machine Sys2Proof.Safety

/-! ### Encoding -/

/-- 30_encoding.md R103: the 15 words of the opcode map, written out. -/
def Obligations.OpcodeMapDecodes : Prop :=
  decode 0x00000000 = .ok .nop ∧ decode 0x00000001 = .ok .fft ∧ decode 0x00000002 = .ok .ifft ∧
  decode 0x00000003 = .ok .fftr2 ∧ decode 0x00000004 = .ok .fftbl ∧ decode 0x00000005 = .ok .convc ∧
  decode 0x00000006 = .ok .convr ∧ decode 0x00000007 = .ok .fft2r ∧ decode 0x00000008 = .ok .absfft ∧
  decode 0x00000009 = .ok .absfft2 ∧ decode 0x00000010 = .ok .bitrev ∧ decode 0x00000011 = .ok .cmul ∧
  decode 0x00000012 = .ok .scale ∧ decode 0x00000013 = .ok .twtab ∧ decode 0x00000014 = .ok .chirptab

/-- 30_encoding.md R105, R104: decoding inverts encoding, a word decodes to a command exactly when it is that command's word,
there are exactly 15 such words, and every other word is rejected by its reason. -/
def Obligations.DecodeIsExactlyEncode : Prop :=
  (∀ i : Instr, i.wellFormed = true → decode (encode i) = .ok i) ∧
  (∀ (w : Word) (i : Instr), decode w = .ok i ↔ w = encode i) ∧
  (∀ i : Instr, i ∈ Instr.all) ∧ (Instr.all.map encode).Nodup ∧ Instr.all.length = 15 ∧
  (∀ w : Word,
    (w.extractLsb' 8 24 ≠ 0 → decode w = .error .reservedBits) ∧
    (w.extractLsb' 8 24 = 0 →
      ((0x0A ≤ (w.extractLsb' 0 8).toNat ∧ (w.extractLsb' 0 8).toNat ≤ 0x0F) ∨ 0x15 ≤ (w.extractLsb' 0 8).toNat) →
      decode w = .error .reservedOpcode))

/-- 30_encoding.md R104: a reserved word is accepted, starts a command, and completes with ERR_CMD and DMEM unchanged; and, from
any busy state whose op is such a word, the sequencer's turn or the empty inbox completes it so. -/
def Obligations.ReservedWordStartsThenFailsWithErrCmd : Prop :=
  (∀ s : State, s.busy = true →
    (s.op.extractLsb' 8 24 ≠ 0 ∨ (0x0A ≤ (s.op.extractLsb' 0 8).toNat ∧ (s.op.extractLsb' 0 8).toNat ≤ 0x0F) ∨
      0x15 ≤ (s.op.extractLsb' 0 8).toNat) →
    (s.inbox = [] ∨ ∃ rest, s.inbox = .sequencerTurn :: rest) →
    ∃ u, step s = .next u ∧ SameControl s { u with inbox := s.inbox } ∧ u.inbox = s.inbox.tail ∧
      CompletedWith .errCmd 0 0 u ∧ u.dmem = s.dmem) ∧
  ∀ (s : State) (w : Word) (rest : List Event),
    (w.extractLsb' 8 24 ≠ 0 ∨ (0x0A ≤ (w.extractLsb' 0 8).toNat ∧ (w.extractLsb' 0 8).toNat ≤ 0x0F) ∨
      0x15 ≤ (w.extractLsb' 0 8).toNat) →
    s.busy = false → s.resetLine = false →
    s.inbox = .transaction { access := .write w, offset := 0x00C, whole := true } :: .sequencerTurn :: rest →
    ∃ t u, step s = .next t ∧ t.busy = true ∧ t.cmd = w ∧ t.response = some (.write .okay) ∧
      step t = .next u ∧ SameControl t { u with inbox := t.inbox } ∧ u.inbox = rest ∧
      CompletedWith .errCmd 0 0 u ∧ u.dmem = s.dmem

/-! ### The step -/

/-- 40_command_execution.md R131: the sequencer's turn runs the decoded command, whether the turn stands in the inbox or the
inbox is empty; and (R130, log 2) the word placed by withFetchWord is the accepted command that the next step runs. -/
def Obligations.StepRunsDecodedCommand : Prop :=
  (∀ (s : State) (i : Instr), s.busy = true → decode s.op = .ok i →
    (s.inbox = [] → step s = exec i s) ∧
    ∀ rest, s.inbox = .sequencerTurn :: rest → step s = exec i { s with inbox := rest }) ∧
  ∀ (s : State) (nbits w : Nat) (i : Instr), decode (tableWord nbits w) = .ok i →
    step (s.withFetchWord nbits w) = exec i (startStep (tableWord nbits w) s)

/-- 40_command_execution.md R130: the start step, for every word. -/
def Obligations.AcceptedCmdWriteIsTheStartStep : Prop :=
  ∀ (s : State) (w : Word) (rest : List Event), s.busy = false → s.resetLine = false →
    s.inbox = .transaction { access := .write w, offset := 0x00C, whole := true } :: rest →
    step s = .next { s with
      inbox := rest, response := some (.write .okay)
      cmd := w, op := w, snapshot := s.operands
      done := false, fail := false, result := .ok, busy := true }

/-- 70_reset_and_hazards.md R342, 10_state.md R33: a CMD write while busy only sets OVR. -/
def Obligations.BusyCmdWriteOnlySetsOvr : Prop :=
  ∀ (s : State) (w : Word) (rest : List Event), s.busy = true → s.resetLine = false →
    s.inbox = .transaction { access := .write w, offset := 0x00C, whole := true } :: rest →
    step s = .next { s with inbox := rest, response := some (.write .okay), ovr := true }

/-- 10_state.md R34, 60_exceptions.md R300: the fields of STATUS as a host reads them, RESULT by its code number, and a STATUS
write, which clears DONE and OVR where it writes
ones and changes nothing else. -/
def Obligations.StatusReadsItsFieldsAndClearsByOnes : Prop :=
  ∀ (s : State) (v : Word) (rest : List Event), s.resetLine = false →
    (s.inbox = .transaction { access := .read, offset := 0x010, whole := true } :: rest →
      ∃ d : Word, step s = .next { s with inbox := rest, response := some (.read d .okay) } ∧
        d.getLsbD 0 = s.busy ∧ d.getLsbD 1 = s.done ∧ d.getLsbD 2 = s.fail ∧ d.getLsbD 3 = s.ovr ∧
        d.extractLsb' 4 4 = 0 ∧ d.extractLsb' 16 16 = 0 ∧
        (s.result, d.extractLsb' 8 8) ∈ [(ResultCode.ok, (0x00 : BitVec 8)), (.errCmd, 0x01), (.errNotPow2, 0x02),
          (.errOddN, 0x03), (.errOverflow, 0x04), (.errRange, 0x05), (.errNomem, 0x06), (.errOverlap, 0x07)]) ∧
    (s.inbox = .transaction { access := .write v, offset := 0x010, whole := true } :: rest →
      step s = .next { s with
        inbox := rest, response := some (.write .okay)
        done := if v.getLsbD 1 then false else s.done
        ovr := if v.getLsbD 3 then false else s.ovr })

/-- 10_state.md R35: IRQ_EN keeps bit 0 of what is written and reads its other bits as zero. -/
def Obligations.IrqEnableHoldsBitZero : Prop :=
  ∀ (s : State) (v : Word) (rest : List Event), s.resetLine = false →
    (s.inbox = .transaction { access := .write v, offset := 0x014, whole := true } :: rest →
      step s = .next { s with inbox := rest, response := some (.write .okay), doneIe := v.getLsbD 0 }) ∧
    (s.inbox = .transaction { access := .read, offset := 0x014, whole := true } :: rest →
      step s = .next { s with inbox := rest, response := some (.read (if s.doneIe then 1 else 0) .okay) })

/-- 10_state.md R31, R32: what a read of each register but STATUS and IRQ_EN returns, at its offset. -/
def Obligations.RegisterReadsReturnTheirValues : Prop :=
  ∀ (s : State) (rest : List Event) (p : Word × Word), s.resetLine = false →
    p ∈ [(0x000, 0x46465445), (0x004, 0x00010000), (0x008, BitVec.ofNat 32 s.dmemWords), (0x00C, s.cmd),
      (0x018, s.operands.n), (0x01C, s.operands.xr), (0x020, s.operands.xi), (0x024, s.operands.yr),
      (0x028, s.operands.yi), (0x02C, s.operands.outR), (0x030, s.operands.outI), (0x034, s.operands.out2R),
      (0x038, s.operands.out2I), (0x03C, s.operands.scrBase), (0x040, s.operands.scrSize), (0x044, s.scrNeed),
      (0x048, s.blM)] →
    s.inbox = .transaction { access := .read, offset := p.1, whole := true } :: rest →
    step s = .next { s with inbox := rest, response := some (.read p.2 .okay) }

/-- 10_state.md R31, R32, R36–R39: a write to an operand register sets it, whole, and nothing else, busy or not; a write to ID,
VERSION, CAP, SCR_NEED or BL_M is ignored; each gets OKAY. -/
def Obligations.RegisterWritesSetOnlyTheirRegister : Prop :=
  ∀ (s : State) (v : Word) (rest : List Event) (p : Word × Operands), s.resetLine = false →
    p ∈ [(0x018, { s.operands with n := v }), (0x01C, { s.operands with xr := v }), (0x020, { s.operands with xi := v }),
      (0x024, { s.operands with yr := v }), (0x028, { s.operands with yi := v }), (0x02C, { s.operands with outR := v }),
      (0x030, { s.operands with outI := v }), (0x034, { s.operands with out2R := v }),
      (0x038, { s.operands with out2I := v }), (0x03C, { s.operands with scrBase := v }),
      (0x040, { s.operands with scrSize := v }), (0x000, s.operands), (0x004, s.operands), (0x008, s.operands),
      (0x044, s.operands), (0x048, s.operands)] →
    s.inbox = .transaction { access := .write v, offset := p.1, whole := true } :: rest →
    step s = .next { s with inbox := rest, response := some (.write .okay), operands := p.2 }

/-- 10_state.md R41: the reserved offsets read as zero and ignore writes without a bus error; the unmapped ones above them
give a bus error. -/
def Obligations.ReservedOffsetsReadZeroIgnoreWrites : Prop :=
  ∀ (s : State) (v a : Word) (rest : List Event), s.resetLine = false → a.toNat % 4 = 0 →
    (0x04C ≤ a.toNat → a.toNat ≤ 0xFFC →
      (s.inbox = .transaction { access := .read, offset := a, whole := true } :: rest →
        step s = .next { s with inbox := rest, response := some (.read 0 .okay) }) ∧
      (s.inbox = .transaction { access := .write v, offset := a, whole := true } :: rest →
        step s = .next { s with inbox := rest, response := some (.write .okay) })) ∧
    (0x1000 ≤ a.toNat → a.toNat ≤ 0x7FFFFFFC →
      (s.inbox = .transaction { access := .read, offset := a, whole := true } :: rest →
        step s = .next { s with inbox := rest, response := some (.read 0 .buserr) }) ∧
      (s.inbox = .transaction { access := .write v, offset := a, whole := true } :: rest →
        step s = .next { s with inbox := rest, response := some (.write .buserr) }))

/-- 20_memory.md R74: exactly the listed transactions get BUSERR, which changes no state and reads as zero. -/
def Obligations.BusErrorsAreExactlyTheListedCases : Prop :=
  ∀ (s : State) (tr : Transaction) (rest : List Event), s.resetLine = false → s.inbox = .transaction tr :: rest →
    (BusErrorCase s tr →
      step s = .next { s with
        inbox := rest
        response := some (match tr.access with | .read => .read 0 .buserr | .write _ => .write .buserr) }) ∧
    (¬ BusErrorCase s tr →
      ∃ t, step s = .next t ∧ ((∃ d, t.response = some (.read d .okay)) ∨ t.response = some (.write .okay)))

/-- 20_memory.md R73, R76: the window reads and replaces one half of a DMEM word while idle, and is closed while busy. -/
def Obligations.WindowAccessesOneHalf : Prop :=
  ∀ (s : State) (w h : Nat) (v a : Word) (rest : List Event), s.resetLine = false → dmemWordsLegal s.dmemWords = true →
    w < s.dmemWords → h < 2 → a.toNat = 0x80000000 + 8 * w + 4 * h →
    (s.inbox = .transaction { access := .read, offset := a, whole := true } :: rest →
      step s = .next { s with
        inbox := rest
        response := some (if s.busy then .read 0 .buserr
          else .read ((readWord s.dmem w).extractLsb' (32 * h) 32) .okay) }) ∧
    (s.inbox = .transaction { access := .write v, offset := a, whole := true } :: rest →
      (s.busy = true → step s = .next { s with inbox := rest, response := some (.write .buserr) }) ∧
      (s.busy = false → ∃ m, step s = .next { s with inbox := rest, response := some (.write .okay), dmem := m } ∧
        (readWord m w).extractLsb' (32 * h) 32 = v ∧
        (readWord m w).extractLsb' (32 * (1 - h)) 32 = (readWord s.dmem w).extractLsb' (32 * (1 - h)) 32 ∧
        ∀ b, (b < 8 * w + 4 * h ∨ 8 * w + 4 * h + 4 ≤ b) → readByte m b = readByte s.dmem b))

/-- 60_exceptions.md R311, R310, R312: every completion asserts irq when DONE_IE = 1, and irq rises only in a completion step
with DONE_IE = 1 or when the host sets DONE_IE while DONE = 1. -/
def Obligations.IrqRisesOnCompletionOrEnableOnly : Prop :=
  (∀ s : State, s.busy = true → (s.inbox = [] ∨ ∃ rest, s.inbox = .sequencerTurn :: rest) → s.doneIe = true →
    ∃ t, step s = .next t ∧ irq t = true) ∧
  ∀ s t : State, step s = .next t → irq s = false → irq t = true →
    (s.busy = true ∧ t.busy = false ∧ t.done = true ∧ s.doneIe = true ∧
      (s.inbox = [] ∨ ∃ rest, s.inbox = .sequencerTurn :: rest)) ∨
    (s.done = true ∧ ∃ v rest,
      s.inbox = .transaction { access := .write v, offset := 0x014, whole := true } :: rest ∧ v.getLsbD 0 = true)

/-- 70_reset_and_hazards.md R341: an operand write and the completion of the running command commute. -/
def Obligations.OperandWriteCommutesWithCompletion : Prop :=
  ∀ (s : State) (v a : Word), s.busy = true → s.resetLine = false →
    a ∈ [(0x018 : Word), 0x01C, 0x020, 0x024, 0x028, 0x02C, 0x030, 0x034, 0x038, 0x03C, 0x040] →
    ∃ t, Sys2Proof.core.run 2 { s with
        inbox := [.transaction { access := .write v, offset := a, whole := true }, .sequencerTurn] } = .next t ∧
      Sys2Proof.core.run 2 { s with
        inbox := [.sequencerTurn, .transaction { access := .write v, offset := a, whole := true }] } = .next t

/-- 10_state.md R51: a DMEM word changes only by a host write to its window half while idle, by the successful completion of
a command that touches it, or by a reset during a busy command that names it. -/
def Obligations.DmemWordsChangeOnlyInThreeWays : Prop :=
  ∀ (s t : State) (w : Nat), step s = .next t → readWord t.dmem w ≠ readWord s.dmem w →
    (∃ tr rest v h, s.inbox = .transaction tr :: rest ∧ tr.whole = true ∧ tr.access = .write v ∧ s.busy = false ∧
      h < 2 ∧ w < s.dmemWords ∧ tr.offset.toNat = 0x80000000 + 8 * w + 4 * h) ∨
    (s.busy = true ∧ t.busy = false ∧ t.done = true ∧ t.result = .ok ∧
      ∃ c, decode s.op = .ok c ∧ HasWork c s.snapshot ∧ Touched c s.snapshot w) ∨
    (s.busy = true ∧ w < s.dmemWords ∧ ∃ rest c, s.inbox = .resetAsserted :: rest ∧ decode s.op = .ok c ∧ c ≠ .nop ∧
      ((∃ r ∈ outputRegions c s.snapshot, r.contains w = true) ∨ (scratchDeclared s.snapshot).contains w = true))

/-- The invariant of Safety.Inv is kept by every step that answers a next state. -/
def Obligations.EveryStepKeepsTheInvariant : Prop :=
  ∀ s t : State, Inv s → step s = .next t → Inv t

/-- 70_reset_and_hazards.md R330: the invariant holds at reset. -/
def Obligations.ResetMeetsTheInvariant : Prop := Inv State.reset

/-! ### Reset -/

/-- 70_reset_and_hazards.md R330: what a host reads after reset, and irq. -/
def Obligations.PowerOnRegistersReadTheirResetValues : Prop :=
  RegistersReset State.reset ∧ irq State.reset = false ∧ State.reset.resetLine = false ∧
  readRegister State.reset .id = 0x46465445 ∧ readRegister State.reset .version = 0x00010000 ∧
  readRegister State.reset .cap = BitVec.ofNat 32 State.reset.dmemWords ∧
  ∀ r, r ∉ [RegName.id, .version, .cap] → readRegister State.reset r = 0

/-- 70_reset_and_hazards.md R330, R331: a later assertion of reset puts every register at its reset value and completes
nothing; an idle one keeps DMEM; a busy one keeps every word outside the running command's output regions and declared
scratch, and all of DMEM when op does not decode or is NOP. -/
def Obligations.WarmResetKeepsDmemAsTheRuleSays : Prop :=
  ∀ (s : State) (rest : List Event), s.inbox = .resetAsserted :: rest →
    ∃ t, step s = .next t ∧ RegistersReset t ∧ irq t = false ∧ t.dmemWords = s.dmemWords ∧ t.inbox = rest ∧
      (s.busy = false → t.dmem = s.dmem) ∧
      ((∃ e, decode s.op = .error e) ∨ decode s.op = .ok .nop → t.dmem = s.dmem) ∧
      ∀ c, decode s.op = .ok c → ∀ b,
        (s.dmemWords ≤ b / 8 ∨ ((∀ r ∈ outputRegions c s.snapshot, r.contains (b / 8) = false) ∧
          (scratchDeclared s.snapshot).contains (b / 8) = false)) →
        readByte t.dmem b = readByte s.dmem b

/-- The model's choice of log 11, from 70_reset_and_hazards.md R333: a transaction under an asserted reset is refused. -/
def Obligations.TransactionsUnderResetAreRefused : Prop :=
  ∀ (s : State) (tr : Transaction) (rest : List Event), s.resetLine = true → s.inbox = .transaction tr :: rest →
    step s = .refused .transactionDuringReset

/-- 70_reset_and_hazards.md R352: a started command completes after at most one step more than there are events left, unless
a reset intervenes. -/
def Obligations.StartedCommandsComplete : Prop :=
  ∀ s : State, s.busy = true → s.resetLine = false → .resetAsserted ∉ s.inbox →
    ∃ k t, k ≤ s.inbox.length + 1 ∧ Sys2Proof.core.run k s = .next t ∧ t.busy = false ∧ t.done = true

/-! ### Exec: checks, failures and frames -/

/-- 10_state.md R40, 60_exceptions.md R303: every command, on every operands, completes, and writes none of the
host-writable registers. -/
def Obligations.CompletionWritesOnlyStatusNeedAndLength : Prop :=
  ∀ (c : Instr) (s : State), ∃ t, exec c s = .next t ∧ SameControl s t ∧
    t.busy = false ∧ t.done = true ∧ t.fail = decide (t.result ≠ .ok)

/-- 60_exceptions.md R301, 40_command_execution.md R145, R151, R152: the earliest failing step decides RESULT, and SCR_NEED and
BL_M hold the size arithmetic reached; the length preconditions, the scratch needs and the Bluestein lengths written out. -/
def Obligations.EarliestFailingStepDecidesResult : Prop :=
  (∀ n : Nat, isPow2 n = true ↔ ∃ k, n = 2 ^ k) ∧
  (∀ (c : Instr) (n : Nat),
    (c ∈ [Instr.fftr2, .bitrev, .twtab] → lengthPrecondition c n = if isPow2 n then none else some .errNotPow2) ∧
    (c ∈ [Instr.fft2r, .absfft2] → lengthPrecondition c n = if n % 2 = 0 then none else some .errOddN) ∧
    (c ∉ [Instr.fftr2, .bitrev, .twtab, .fft2r, .absfft2] → lengthPrecondition c n = none)) ∧
  (∀ (c : Instr) (n : Nat), 1 ≤ n →
    (let m := bluesteinLength n
     let t := if isPow2 n then 2 * (n / 2) else 2 * n + 11 * m
     (c ∈ [Instr.fft, .ifft] → scratchNeed c n = t) ∧
     (c = .fftr2 → scratchNeed c n = 2 * (n / 2)) ∧
     (c = .fftbl → scratchNeed c n = 2 * n + 11 * m) ∧
     (c = .convc → scratchNeed c n = 4 * n + t) ∧
     (c = .convr → scratchNeed c n = 4 * n + t + n) ∧
     (c ∈ [Instr.fft2r, .absfft, .absfft2] → scratchNeed c n = 2 * n + t) ∧
     (c ∈ [Instr.nop, .bitrev, .cmul, .scale, .twtab, .chirptab] → scratchNeed c n = 0 ∧ topLength c n = 0) ∧
     (c = .fftr2 → topLength c n = 0) ∧ (c = .fftbl → topLength c n = m) ∧
     (c ∈ [Instr.fft, .ifft, .convc, .convr, .fft2r, .absfft, .absfft2] → topLength c n = if isPow2 n then 0 else m))) ∧
  ∀ (c : Instr) (s : State), ∃ t, exec c s = .next t ∧
    (let l := s.snapshot
     let need := scratchNeed c l.length
     let m := topLength c l.length
     let needR := min need 0xFFFFFFFF
     let mR := if m ≤ 2 ^ 31 then m else 0
     (∀ code, lengthPrecondition c l.length = some code → CompletedWith code 0 0 t) ∧
     (lengthPrecondition c l.length = none →
       (¬ HasWork c l → CompletedWith .ok 0 0 t) ∧
       (HasWork c l →
         (¬ SizesFit c l → CompletedWith .errOverflow needR mR t) ∧
         (SizesFit c l →
           (¬ RangesFit c l s.dmemWords → CompletedWith .errRange needR mR t) ∧
           (RangesFit c l s.dmemWords →
             (¬ ScratchSuffices c l → CompletedWith .errNomem needR mR t) ∧
             (ScratchSuffices c l →
               (¬ RegionsDisjoint c l → CompletedWith .errOverlap needR mR t) ∧
               (RegionsDisjoint c l → CompletedWith .ok need mR t)))))))

/-- 41_transform.md R202, R204, R205: FFTR2, BITREV and TWTAB fail with ERR_NOT_POW2 when n is not a power of two, n = 0
included, and change nothing but STATUS, SCR_NEED and BL_M. -/
def Obligations.NotPowerOfTwoFails : Prop :=
  ∀ (c : Instr) (s : State), c ∈ [Instr.fftr2, .bitrev, .twtab] → (∀ k, s.snapshot.n.toNat ≠ 2 ^ k) →
    exec c s = .next { s with
      result := .errNotPow2, fail := true, busy := false, done := true, scrNeed := 0, blM := 0 }

/-- 43_packing.md R263: FFT2R and ABSFFT2 with odd n fail with ERR_ODD_N, whatever the other operands; n = 0 completes with no
write. -/
def Obligations.OddLengthFailsInPacking : Prop :=
  ∀ (c : Instr) (s : State), c ∈ [Instr.fft2r, .absfft2] →
    (s.snapshot.n.toNat % 2 = 1 →
      exec c s = .next { s with
        result := .errOddN, fail := true, busy := false, done := true, scrNeed := 0, blM := 0 }) ∧
    (s.snapshot.n = 0 →
      exec c s = .next { s with result := .ok, fail := false, busy := false, done := true, scrNeed := 0, blM := 0 })

/-- 40_command_execution.md R145 step 3 (92 D17): every command but FFTR2, BITREV and TWTAB succeeds at n = 0 with no
write. -/
def Obligations.ZeroLengthSucceedsWithNoWrite : Prop :=
  ∀ (c : Instr) (s : State), c ∉ [Instr.fftr2, .bitrev, .twtab] → s.snapshot.n = 0 →
    exec c s = .next { s with result := .ok, fail := false, busy := false, done := true, scrNeed := 0, blM := 0 }

/-- 40_command_execution.md R160: NOP completes with OK and no write, whatever N and the pointers are. -/
def Obligations.NopCompletesWithNoWrite : Prop :=
  ∀ s : State,
    exec .nop s = .next { s with result := .ok, fail := false, busy := false, done := true, scrNeed := 0, blM := 0 }

/-- 40_command_execution.md R153, 41_transform.md R200–R203, 42_convolution.md R240, R241, 43_packing.md R270–R272: when the size
arithmetic overflows. FFT2R and ABSFFT2 reach it at an even n only. At n = 2^31 the packing family's answer is the model's
reading of R145 and R151 over the shorter list of R270 (log 24). -/
def Obligations.OverflowThresholds : Prop :=
  ∀ (c : Instr) (s : State), ∃ t, exec c s = .next t ∧
    (let n := s.snapshot.n.toNat
     (c ∈ [Instr.fft, .ifft, .convc, .convr] → isPow2 n = false → (t.result = .errOverflow ↔ 2 ^ 27 ≤ n)) ∧
     (c = .fftbl → (t.result = .errOverflow ↔ 2 ^ 27 ≤ n)) ∧
     (c ∈ [Instr.convc, .convr] → isPow2 n = true → (t.result = .errOverflow ↔ 2 ^ 30 ≤ n)) ∧
     (c ∈ [Instr.fft, .ifft, .fftr2] → isPow2 n = true → t.result ≠ .errOverflow) ∧
     (c ∈ [Instr.fft2r, .absfft, .absfft2] → isPow2 n = false → (n % 2 = 0 ∨ c = .absfft) →
       (t.result = .errOverflow ↔ 2 ^ 27 ≤ n)) ∧
     (c ∈ [Instr.fft2r, .absfft, .absfft2] → isPow2 n = true → (t.result = .errOverflow ↔ n = 2 ^ 31)))

/-- 40_command_execution.md R146: a completion step that fails writes no DMEM word; only STATUS, SCR_NEED and BL_M change. -/
def Obligations.FailedCommandLeavesDmem : Prop :=
  ∀ s : State, s.busy = true → (s.inbox = [] ∨ ∃ rest, s.inbox = .sequencerTurn :: rest) →
    ∃ t, step s = .next t ∧ (t.result ≠ .ok →
      t = { s with
        inbox := s.inbox.tail
        result := t.result, fail := true, busy := false, done := true, scrNeed := t.scrNeed, blM := t.blM })

/-- 40_command_execution.md R147: a successful command leaves every byte outside its output regions and its scratch-used
region alone, and a trivial one all of DMEM. -/
def Obligations.SuccessfulCommandFrame : Prop :=
  ∀ (c : Instr) (s : State), ∃ t, exec c s = .next t ∧ (t.result = .ok →
    (¬ HasWork c s.snapshot → t.dmem = s.dmem) ∧
    ∀ a, ¬ Touched c s.snapshot (a / 8) → readByte t.dmem a = readByte s.dmem a)

/-- 40_command_execution.md R140, R145, R160: a register a command does not name is not read by it. N matters to every command
but NOP, and SCR_BASE and SCR_SIZE only to a command with work and a scratch need (which BITREV, CMUL, SCALE, TWTAB and CHIRPTAB
never have). -/
def Obligations.UnnamedOperandsDoNotMatter : Prop :=
  ∀ (c : Instr) (s : State) (l : Operands), (c ≠ .nop → l.n = s.snapshot.n) →
    (HasWork c s.snapshot → c ∉ [Instr.bitrev, .cmul, .scale, .twtab, .chirptab] → 0 < scratchNeed c s.snapshot.length →
      l.scrBase = s.snapshot.scrBase ∧ l.scrSize = s.snapshot.scrSize) →
    namedOperands c l = namedOperands c s.snapshot →
    ∃ t, exec c s = .next t ∧ exec c { s with snapshot := l } = .next { t with snapshot := l }

/-- 70_reset_and_hazards.md R361: two states with the same snapshot and DMEM_WORDS whose input regions hold the same words
complete with the same RESULT, SCR_NEED and BL_M and, on success, the same words in every output region, except for the bits
of NaNs. TRIG is fixed (Config), and nothing else of the state matters. -/
def Obligations.ResultsDependOnlyOnOperandsAndInputs : Prop :=
  ∀ (c : Instr) (s s' : State), s.snapshot = s'.snapshot → s.dmemWords = s'.dmemWords →
    (∀ r ∈ inputRegions c s.snapshot, ∀ w, r.contains w = true → readWord s.dmem w = readWord s'.dmem w) →
    ∃ t t', exec c s = .next t ∧ exec c s' = .next t' ∧ t.result = t'.result ∧ t.scrNeed = t'.scrNeed ∧ t.blM = t'.blM ∧
      (t.result = .ok → HasWork c s.snapshot → ∀ r ∈ outputRegions c s.snapshot, ∀ w, r.contains w = true →
        readWord t.dmem w = readWord t'.dmem w ∨
        (isQuietNaN (readWord t.dmem w) = true ∧ isQuietNaN (readWord t'.dmem w) = true))

/-! ### The results of the commands -/

/-- 41_transform.md R200, R190: a ready FFT holds T of its Signal at (XR, XI), and T of a Signal of no samples is that
Signal. -/
def Obligations.FftHoldsTheTransform : Prop :=
  (∀ x : Signal, transform 0 x = x) ∧
  ∀ s : State, CommandReady .fft s.snapshot s.dmemWords →
    SucceedsHolding .fft s
      [⟨s.snapshot.xr, s.snapshot.length, (transform s.snapshot.length (operandSignal s s.snapshot.xr s.snapshot.xi)).re⟩,
       ⟨s.snapshot.xi, s.snapshot.length, (transform s.snapshot.length (operandSignal s s.snapshot.xr s.snapshot.xi)).im⟩]

/-- 41_transform.md R201, R191: a ready IFFT holds the transform of the swapped Signal, swapped back, unscaled. -/
def Obligations.IfftHoldsTheSwappedTransform : Prop :=
  ∀ s : State, CommandReady .ifft s.snapshot s.dmemWords →
    SucceedsHolding .ifft s
      [⟨s.snapshot.xr, s.snapshot.length, (transform s.snapshot.length (operandSignal s s.snapshot.xi s.snapshot.xr)).im⟩,
       ⟨s.snapshot.xi, s.snapshot.length, (transform s.snapshot.length (operandSignal s s.snapshot.xi s.snapshot.xr)).re⟩]

/-- 41_transform.md R202: a ready FFTR2 holds R2 of its Signal at (XR, XI), the same bits as FFT's. -/
def Obligations.Fftr2HoldsTheRadix2Transform : Prop :=
  ∀ s : State, CommandReady .fftr2 s.snapshot s.dmemWords →
    SucceedsHolding .fftr2 s
      [⟨s.snapshot.xr, s.snapshot.length, (radix2 s.snapshot.length (operandSignal s s.snapshot.xr s.snapshot.xi)).re⟩,
       ⟨s.snapshot.xi, s.snapshot.length, (radix2 s.snapshot.length (operandSignal s s.snapshot.xr s.snapshot.xi)).im⟩] ∧
    transform s.snapshot.length (operandSignal s s.snapshot.xr s.snapshot.xi) =
      radix2 s.snapshot.length (operandSignal s s.snapshot.xr s.snapshot.xi)

/-- 41_transform.md R203, R190: a ready FFTBL holds BL of its Signal at (XR, XI), power of two or not; and where n is no power
of two, T is BL. -/
def Obligations.FftblHoldsTheBluesteinTransform : Prop :=
  (∀ (n : Nat) (x : Signal), n ≠ 0 → isPow2 n = false → transform n x = bluestein n x) ∧
  ∀ s : State, CommandReady .fftbl s.snapshot s.dmemWords →
    SucceedsHolding .fftbl s
      [⟨s.snapshot.xr, s.snapshot.length, (bluestein s.snapshot.length (operandSignal s s.snapshot.xr s.snapshot.xi)).re⟩,
       ⟨s.snapshot.xi, s.snapshot.length, (bluestein s.snapshot.length (operandSignal s s.snapshot.xr s.snapshot.xi)).im⟩]

/-- 41_transform.md R204: a ready BITREV moves word rev(i, log2 n) of each part to place i, bit for bit. -/
def Obligations.BitrevMovesWordsUnchanged : Prop :=
  ∀ s : State, CommandReady .bitrev s.snapshot s.dmemWords →
    ∃ t, exec .bitrev s = .next t ∧ SameControl s t ∧ CompletedWith .ok 0 0 t ∧
      (∀ i, i < s.snapshot.length →
        readWord t.dmem (s.snapshot.xr.toNat + i) =
          readWord s.dmem (s.snapshot.xr.toNat + bitReverse i s.snapshot.length.log2) ∧
        readWord t.dmem (s.snapshot.xi.toNat + i) =
          readWord s.dmem (s.snapshot.xi.toNat + bitReverse i s.snapshot.length.log2)) ∧
      ∀ a, ¬ Touched .bitrev s.snapshot (a / 8) → readByte t.dmem a = readByte s.dmem a

/-- 41_transform.md R205: a ready TWTAB holds TW(n, k), k < n/2, at (OR, OI). -/
def Obligations.TwtabHoldsTheTwiddleTable : Prop :=
  ∀ s : State, CommandReady .twtab s.snapshot s.dmemWords →
    SucceedsHolding .twtab s
      [⟨s.snapshot.outR, s.snapshot.length / 2,
        (List.range (s.snapshot.length / 2)).map fun k => (twiddle s.snapshot.length k).re⟩,
       ⟨s.snapshot.outI, s.snapshot.length / 2,
        (List.range (s.snapshot.length / 2)).map fun k => (twiddle s.snapshot.length k).im⟩]

/-- 41_transform.md R206: a ready CHIRPTAB holds CH(n, i), i < n, at (OR, OI). -/
def Obligations.ChirptabHoldsTheChirpTable : Prop :=
  ∀ s : State, CommandReady .chirptab s.snapshot s.dmemWords →
    SucceedsHolding .chirptab s
      [⟨s.snapshot.outR, s.snapshot.length, (List.range s.snapshot.length).map fun i => (chirp s.snapshot.length i).re⟩,
       ⟨s.snapshot.outI, s.snapshot.length, (List.range s.snapshot.length).map fun i => (chirp s.snapshot.length i).im⟩]

/-- 42_convolution.md R240: a ready CONVC holds CC of its two Signals at (OR, OI). -/
def Obligations.ConvcHoldsTheConvolution : Prop :=
  ∀ s : State, CommandReady .convc s.snapshot s.dmemWords →
    SucceedsHolding .convc s
      [⟨s.snapshot.outR, s.snapshot.length, (convolve s.snapshot.length (operandSignal s s.snapshot.xr s.snapshot.xi)
        (operandSignal s s.snapshot.yr s.snapshot.yi)).re⟩,
       ⟨s.snapshot.outI, s.snapshot.length, (convolve s.snapshot.length (operandSignal s s.snapshot.xr s.snapshot.xi)
        (operandSignal s s.snapshot.yr s.snapshot.yi)).im⟩]

/-- 42_convolution.md R241: a ready CONVR holds the real part of CC with +0.0 imaginary inputs at OR. -/
def Obligations.ConvrHoldsTheRealConvolution : Prop :=
  ∀ s : State, CommandReady .convr s.snapshot s.dmemWords →
    SucceedsHolding .convr s
      [⟨s.snapshot.outR, s.snapshot.length, (convolve s.snapshot.length
        { re := operandSeq s s.snapshot.xr, im := List.replicate s.snapshot.length pzero }
        { re := operandSeq s s.snapshot.yr, im := List.replicate s.snapshot.length pzero }).re⟩]

/-- 42_convolution.md R242, R230: a ready CMUL holds, at each k, the plain product of x[k] and y[k]. -/
def Obligations.CmulHoldsThePointwiseProducts : Prop :=
  ∀ s : State, CommandReady .cmul s.snapshot s.dmemWords →
    let l := s.snapshot
    let xr := fun k => FNum.word (readWord s.dmem (l.xr.toNat + k))
    let xi := fun k => FNum.word (readWord s.dmem (l.xi.toNat + k))
    let yr := fun k => FNum.word (readWord s.dmem (l.yr.toNat + k))
    let yi := fun k => FNum.word (readWord s.dmem (l.yi.toNat + k))
    SucceedsHolding .cmul s
      [⟨l.outR, l.length, (List.range l.length).map fun k => fsub (fmul (xr k) (yr k)) (fmul (xi k) (yi k))⟩,
       ⟨l.outI, l.length, (List.range l.length).map fun k => fadd (fmul (xi k) (yr k)) (fmul (xr k) (yi k))⟩]

/-- 42_convolution.md R243, R232: a ready SCALE holds, at each k, one division of each part by f64(n). -/
def Obligations.ScaleHoldsTheQuotients : Prop :=
  ∀ s : State, CommandReady .scale s.snapshot s.dmemWords →
    let l := s.snapshot
    SucceedsHolding .scale s
      [⟨l.xr, l.length, (List.range l.length).map fun k => fdiv (.word (readWord s.dmem (l.xr.toNat + k))) (f64 l.length)⟩,
       ⟨l.xi, l.length, (List.range l.length).map fun k => fdiv (.word (readWord s.dmem (l.xi.toNat + k))) (f64 l.length)⟩]

/-- 43_packing.md R270, R260: a ready FFT2R holds the two unpacked spectra of the packed transform. -/
def Obligations.Fft2rHoldsBothSpectra : Prop :=
  ∀ s : State, CommandReady .fft2r s.snapshot s.dmemWords →
    let n := s.snapshot.length
    let x := transform n (operandSignal s s.snapshot.xr s.snapshot.yr)
    SucceedsHolding .fft2r s
      [⟨s.snapshot.outR, n, (unpack1 n x).re⟩,
       ⟨s.snapshot.outI, n, (unpack1 n x).im⟩,
       ⟨s.snapshot.out2R, n, (unpack2 n x).re⟩,
       ⟨s.snapshot.out2I, n, (unpack2 n x).im⟩]

/-- 43_packing.md R271, R265: a ready ABSFFT holds the magnitudes of bins 0 … n div 2 of the transform of a real signal. -/
def Obligations.AbsfftHoldsTheMagnitudes : Prop :=
  ∀ s : State, CommandReady .absfft s.snapshot s.dmemWords →
    let n := s.snapshot.length
    let x := transform n { re := operandSeq s s.snapshot.xr, im := List.replicate n pzero }
    SucceedsHolding .absfft s
      [⟨s.snapshot.outR, n / 2 + 1, (List.range (n / 2 + 1)).map fun k =>
        fdiv (fmul two (fsqrt (fadd (fmul (elem x.re k) (elem x.re k)) (fmul (elem x.im k) (elem x.im k))))) (f64 n)⟩]

/-- 43_packing.md R272: a ready ABSFFT2 holds the magnitudes of both unpacked spectra. -/
def Obligations.Absfft2HoldsBothMagnitudes : Prop :=
  ∀ s : State, CommandReady .absfft2 s.snapshot s.dmemWords →
    let n := s.snapshot.length
    let x := transform n (operandSignal s s.snapshot.xr s.snapshot.yr)
    SucceedsHolding .absfft2 s
      [⟨s.snapshot.outR, n / 2 + 1, (List.range (n / 2 + 1)).map fun k => magnitude n ((unpack1 n x).sample k)⟩,
       ⟨s.snapshot.out2R, n / 2 + 1, (List.range (n / 2 + 1)).map fun k => magnitude n ((unpack2 n x).sample k)⟩]

/-! ### Arithmetic -/

/-- 00_scope.md R11, R17: a ratio of units is rounded to the nearest binary64 magnitude, ties to even, and to +∞ exactly from
half an ulp above the largest finite value on (RoundsTo); and fadd, fsub, fmul and fdiv of finite values round their exact
result so, once. The meaning of the operations is IEEE 754's, which the spec adopts and does not restate (log 15). -/
def Obligations.RatiosRoundToNearestEven : Prop :=
  (∀ num den : Nat, 0 < den → RoundsTo num den (roundRatio num den)) ∧
  ∀ (x y : FNum) (na nb : Bool) (a b : Nat), x.value = .fin na a → y.value = .fin nb b →
    (signedUnits na a + signedUnits nb b ≠ 0 →
      ∃ bits, fadd x y = withSign (decide (signedUnits na a + signedUnits nb b < 0)) bits ∧
        RoundsTo (signedUnits na a + signedUnits nb b).natAbs 1 bits) ∧
    (signedUnits na a - signedUnits nb b ≠ 0 →
      ∃ bits, fsub x y = withSign (decide (signedUnits na a - signedUnits nb b < 0)) bits ∧
        RoundsTo (signedUnits na a - signedUnits nb b).natAbs 1 bits) ∧
    (∃ bits, fmul x y = withSign (na != nb) bits ∧ RoundsTo (a * b) (2 ^ 1074) bits) ∧
    (b ≠ 0 → ∃ bits, fdiv x y = withSign (na != nb) bits ∧ RoundsTo (a * 2 ^ 1074) b bits)

/-- 00_scope.md R11: the square root of a positive whole number of units is rounded to the nearest binary64 magnitude
(RootRoundsTo), and fsqrt of a positive finite value is that magnitude with a positive sign. The meaning of the operation is
IEEE 754's, which the spec adopts and does not restate (log 15). -/
def Obligations.SquareRootsRoundToNearest : Prop :=
  (∀ a : Nat, 0 < a → a < 2 ^ 2098 → RootRoundsTo a (roundSqrt (a * 2 ^ 1074))) ∧
  ∀ (x : FNum) (a : Nat), x.value = .fin false a → 0 < a → ∃ bits, fsqrt x = withSign false bits ∧ RootRoundsTo a bits

/-- 00_scope.md R13: fneg flips bit 63 only, and the three identities, NaN bits being open. -/
def Obligations.NegationIdentities : Prop :=
  (∀ w : DWord, ∃ v : DWord, fneg (.word w) = .word v ∧ v.getLsbD 63 = !w.getLsbD 63 ∧
    ∀ i, i < 63 → v.getLsbD i = w.getLsbD i) ∧
  (∀ a b : FNum, fmul (fneg a) b = fneg (fmul a b)) ∧
  (∀ a b : FNum, fadd a (fneg b) = fsub a b) ∧
  (∀ a b : FNum, fadd a b = fadd b a)

/-- 00_scope.md R14: f64(k) is exact for every k below 2^53. -/
def Obligations.NaturalConversionIsExact : Prop :=
  ∀ k : Nat, k < 2 ^ 53 → (f64 k).value = .fin false (k * 2 ^ 1074)

/-- 00_scope.md R19, 41_transform.md R170, R180: TRIG0 makes TW(n, 0) and CH(n, 0) equal (1.0, +0.0) for every n ≥ 1. -/
def Obligations.FirstTableEntriesAreOne : Prop :=
  ∀ n : Nat, 1 ≤ n → n < 2 ^ 32 →
    twiddle n 0 = { re := .word 0x3FF0000000000000, im := .word 0 } ∧
    chirp n 0 = { re := .word 0x3FF0000000000000, im := .word 0 }

/-! ### The datapath -/

/-- 41_transform.md R172: rev reverses the w low bits and is an involution on [0, 2^w). -/
def Obligations.BitReverseReversesBits : Prop :=
  ∀ w i : Nat, i < 2 ^ w →
    bitReverse i w < 2 ^ w ∧ bitReverse (bitReverse i w) w = i ∧
    ∀ b, b < w → (bitReverse i w).testBit b = i.testBit (w - 1 - b)

/-- 41_transform.md R204: BITREV twice is the identity, bit for bit. -/
def Obligations.BitReversalTwiceIsIdentity : Prop :=
  ∀ (n : Nat) (x : Signal), isPow2 n = true → x.re.length = n → x.im.length = n → permute n (permute n x) = x

/-- 41_transform.md R175, R176: after one stage every pair (j, j + h) holds its butterfly of the pair before the stage, so the
order within a stage is not observable. -/
def Obligations.StageIsItsButterflies : Prop :=
  ∀ (k e b q : Nat) (x : Signal), e < k → b < 2 ^ k / 2 ^ (e + 1) → q < 2 ^ e →
    x.re.length = 2 ^ k → x.im.length = 2 ^ k →
    (let n := 2 ^ k
     let j := b * 2 ^ (e + 1) + q
     let l := j + 2 ^ e
     let t := cmulConj (x.sample l) (twiddle n (q * (n / 2 ^ (e + 1))))
     let y := butterflyStage n (2 ^ (e + 1)) x
     y.sample j = { re := fadd (x.sample j).re t.re, im := fadd (x.sample j).im t.im } ∧
     y.sample l = { re := fsub (x.sample j).re t.re, im := fsub (x.sample j).im t.im })

/-- 41_transform.md R177, R190, 42_convolution.md R231: at n = 1 the radix-2 engine and the dispatcher are the identity, bit for
bit, and CC is cmul(x[0], y[0]), its division by 1.0 changing no bit. -/
def Obligations.LengthOneIsExact : Prop :=
  ∀ a b c d : FNum,
    radix2 1 { re := [a], im := [b] } = { re := [a], im := [b] } ∧
    transform 1 { re := [a], im := [b] } = { re := [a], im := [b] } ∧
    inverse 1 { re := [a], im := [b] } = { re := [a], im := [b] } ∧
    convolve 1 { re := [a], im := [b] } { re := [c], im := [d] } =
      { re := [fsub (fmul a c) (fmul b d)], im := [fadd (fmul b c) (fmul a d)] }

/-- 41_transform.md R181: M(n) is the least power of two at or above 2n + 1, with the rule's values and bounds. -/
def Obligations.BluesteinLengthIsLeastPowerOfTwo : Prop :=
  (∀ n : Nat, (∃ k, bluesteinLength n = 2 ^ k) ∧ 2 * n + 1 ≤ bluesteinLength n ∧
    (∀ k, 2 * n + 1 ≤ 2 ^ k → bluesteinLength n ≤ 2 ^ k) ∧
    (2 ^ 32 - 1 < bluesteinLength n ↔ 2 ^ 30 ≤ n) ∧
    (n < 2 ^ 27 → bluesteinLength n ≤ 2 ^ 28)) ∧
  [0, 1, 2, 3, 4, 5, 6, 7, 8, 13].map bluesteinLength = [1, 4, 8, 8, 16, 16, 16, 16, 32, 32] ∧
  bluesteinLength (2 ^ 30 - 1) = 2 ^ 31 ∧
  ∀ n i : Nat, 1 ≤ i → i < n → i ≠ bluesteinLength n - i ∧ i < bluesteinLength n ∧ 1 ≤ bluesteinLength n - i ∧
    bluesteinLength n - i < bluesteinLength n

/-- 40_command_execution.md R154, 41_transform.md R184–R186: the Bluestein adapter convolves with the engine's own CC at
length M(n), where CC's transforms are radix-2. -/
def Obligations.BluesteinUsesTheConvolutionEngine : Prop :=
  ∀ (n : Nat) (x : Signal), 1 ≤ n →
    bluestein n x = Signal.ofFn n (fun i =>
      cmulConj ((convolve (bluesteinLength n) (bluesteinA n x) (bluesteinB n)).sample i) (chirp n i)) ∧
    ∀ z, transform (bluesteinLength n) z = radix2 (bluesteinLength n) z

/-- 43_packing.md R261, R262: bins 0 and n/2 are real with +0.0, interior bins are the half sums and differences, and bin
n − k is bin k with its imaginary part negated by fneg, so a +0.0 there mirrors to −0.0. -/
def Obligations.UnpackingIsConjugateSymmetric : Prop :=
  ∀ (n : Nat) (x : Signal), n % 2 = 0 → 2 ≤ n →
    (unpack1 n x).sample 0 = { re := elem x.re 0, im := pzero } ∧
    (unpack2 n x).sample 0 = { re := elem x.im 0, im := pzero } ∧
    (unpack1 n x).sample (n / 2) = { re := elem x.re (n / 2), im := pzero } ∧
    (unpack2 n x).sample (n / 2) = { re := elem x.im (n / 2), im := pzero } ∧
    ∀ k, 1 ≤ k → k < n / 2 →
      (unpack1 n x).sample k =
        { re := fmul half (fadd (elem x.re k) (elem x.re (n - k)))
          im := fmul half (fsub (elem x.im k) (elem x.im (n - k))) } ∧
      (unpack2 n x).sample k =
        { re := fmul half (fadd (elem x.im k) (elem x.im (n - k)))
          im := fmul half (fsub (elem x.re (n - k)) (elem x.re k)) } ∧
      (unpack1 n x).sample (n - k) =
        { re := ((unpack1 n x).sample k).re, im := fneg ((unpack1 n x).sample k).im } ∧
      (unpack2 n x).sample (n - k) =
        { re := ((unpack2 n x).sample k).re, im := fneg ((unpack2 n x).sample k).im } ∧
      (((unpack1 n x).sample k).im = pzero → ((unpack1 n x).sample (n - k)).im = .word 0x8000000000000000) ∧
      (((unpack2 n x).sample k).im = pzero → ((unpack2 n x).sample (n - k)).im = .word 0x8000000000000000)

/-! ### Special values of the arithmetic -/

/-- 00_scope.md R10, R11, R17: the value of every interchange encoding, and the results of the operations on NaNs, infinities
and zeros. The meaning of the operations is IEEE 754's, which the spec adopts and does not restate (log 15). -/
def Obligations.SpecialValuesFollowTheStandard : Prop :=
  infBits = 0x7FF0000000000000 ∧
  (∀ (neg : Bool) (bits : Nat), withSign neg bits = .word (BitVec.ofNat 64 (bits + if neg then 2 ^ 63 else 0))) ∧
  (∀ (neg : Bool) (e f : Nat), e < 2 ^ 11 → f < 2 ^ 52 →
    valueOf (BitVec.ofNat 64 ((if neg then 2 ^ 63 else 0) + e * 2 ^ 52 + f)) =
      if e = 2047 then (if f = 0 then .inf neg else .nan)
      else if e = 0 then .fin neg f else .fin neg ((2 ^ 52 + f) * 2 ^ (e - 1))) ∧
  (∀ x y : FNum, x.value = .nan →
    fadd x y = .nan ∧ fadd y x = .nan ∧ fsub x y = .nan ∧ fsub y x = .nan ∧ fmul x y = .nan ∧ fmul y x = .nan ∧
    fdiv x y = .nan ∧ fdiv y x = .nan ∧ fsqrt x = .nan) ∧
  (∀ (x y : FNum) (na nb : Bool), x.value = .inf na → y.value = .inf nb →
    fadd x y = (if na = nb then withSign na infBits else .nan) ∧
    fsub x y = (if na = nb then .nan else withSign na infBits) ∧
    fmul x y = withSign (na != nb) infBits ∧ fdiv x y = .nan) ∧
  (∀ (x y : FNum) (na nb : Bool) (b : Nat), x.value = .inf na → y.value = .fin nb b →
    fadd x y = withSign na infBits ∧ fadd y x = withSign na infBits ∧
    fsub x y = withSign na infBits ∧ fsub y x = withSign (!na) infBits ∧
    fmul x y = (if b = 0 then .nan else withSign (na != nb) infBits) ∧
    fmul y x = (if b = 0 then .nan else withSign (na != nb) infBits) ∧
    fdiv x y = withSign (na != nb) infBits ∧ fdiv y x = withSign (na != nb) 0) ∧
  (∀ (x y : FNum) (na nb : Bool) (a b : Nat), x.value = .fin na a → y.value = .fin nb b →
    (signedUnits na a + signedUnits nb b = 0 → fadd x y = withSign (na && nb) 0) ∧
    (signedUnits na a - signedUnits nb b = 0 → fsub x y = withSign (na && !nb) 0) ∧
    (b = 0 → fdiv x y = if a = 0 then .nan else withSign (na != nb) infBits)) ∧
  ∀ (x : FNum) (neg : Bool),
    (x.value = .inf neg → fsqrt x = if neg then .nan else withSign false infBits) ∧
    (x.value = .fin neg 0 → fsqrt x = withSign neg 0) ∧
    ∀ a, x.value = .fin true a → a ≠ 0 → fsqrt x = .nan
end

