-- ==== Sys2Proof/Laws/Decode.lean ====
section
/-! SUPPORT. Laws of the decoder and the encoder (30_encoding.md R101–R105). -/

namespace Sys2Proof

theorem opcode_lt (i : Instr) : opcode i < 256 := by cases i <;> decide

@[simp] theorem encode_toNat (i : Instr) : (encode i).toNat = opcode i := by
  have := opcode_lt i
  simp only [encode, BitVec.toNat_ofNat]
  omega

@[simp] theorem opcodeField_encode (i : Instr) : opcodeField (encode i) = opcode i := by
  have := opcode_lt i
  simp only [opcodeField, encode_toNat]
  omega

@[simp] theorem reservedField_encode (i : Instr) : reservedField (encode i) = 0 := by
  have := opcode_lt i
  simp only [reservedField, encode_toNat]
  omega

@[simp] theorem decodeOpcode_opcode (i : Instr) : decodeOpcode (opcode i) = .ok i := by cases i <;> rfl

/-- The opcode map has one OPCODE per command. -/
theorem opcode_of_decodeOpcode {op : Nat} {i : Instr} (h : decodeOpcode op = .ok i) : opcode i = op := by
  unfold decodeOpcode at h
  split at h <;> first | (injection h with h; subst h; rfl) | cases h

/-- A word is its two fields (30_encoding.md R101). -/
theorem word_of_fields (w : Word) : w.toNat = 256 * reservedField w + opcodeField w := by
  unfold reservedField opcodeField
  omega

/-- decode gives a command only for a zero RSVD and a mapped OPCODE (30_encoding.md R105). -/
theorem decode_eq_ok {w : Word} {i : Instr} : decode w = .ok i ↔ reservedField w = 0 ∧ decodeOpcode (opcodeField w) = .ok i := by
  unfold decode
  split
  · simp_all
  · simp_all

/-- An unmapped OPCODE is rejected as such. -/
theorem decodeOpcode_reserved {op : Nat} (h : opcodeDefined op = false) : decodeOpcode op = .error .reservedOpcode := by
  unfold decodeOpcode
  split <;> first | rfl | (exact absurd h (by decide))

end Sys2Proof
end

