-- ==== Sys2Proof/Laws/Engine.lean ====
section
/-! SUPPORT. Laws of the datapath's shape: the length of every sequence a sub-block returns, and what tabulated sequences and
Signals hold. -/

namespace Sys2Proof.Machine

@[simp] theorem tabulate_length (n : Nat) (f : Nat → FNum) : (tabulate n f).length = n := by simp [tabulate]

theorem elem_tabulate (n : Nat) (f : Nat → FNum) {i : Nat} (h : i < n) : elem (tabulate n f) i = f i := by
  simp [elem, tabulate, h]

theorem elem_eq_getElem (x : List FNum) {i : Nat} (h : i < x.length) : elem x i = x[i] := by simp [elem, h]

@[simp] theorem ofFn_re_length (n : Nat) (f : Nat → Cplx) : (Signal.ofFn n f).re.length = n := by simp [Signal.ofFn]
@[simp] theorem ofFn_im_length (n : Nat) (f : Nat → Cplx) : (Signal.ofFn n f).im.length = n := by simp [Signal.ofFn]

theorem sample_ofFn (n : Nat) (f : Nat → Cplx) {i : Nat} (h : i < n) : (Signal.ofFn n f).sample i = f i := by
  simp [Signal.sample, Signal.ofFn, elem_tabulate _ _ h]

@[simp] theorem swap_re (x : Signal) : x.swap.re = x.im := rfl
@[simp] theorem swap_im (x : Signal) : x.swap.im = x.re := rfl
@[simp] theorem swap_swap (x : Signal) : x.swap.swap = x := rfl

/-- A Signal is well shaped for n when both parts have n values (00_scope.md R8). -/
def Signal.HasLength (x : Signal) (n : Nat) : Prop := x.re.length = n ∧ x.im.length = n

theorem ofFn_hasLength (n : Nat) (f : Nat → Cplx) : (Signal.ofFn n f).HasLength n := ⟨by simp, by simp⟩

theorem swap_hasLength {x : Signal} {n : Nat} (h : x.HasLength n) : x.swap.HasLength n := ⟨h.2, h.1⟩

theorem butterfly_hasLength {x : Signal} {n : Nat} (j h : Nat) (w : Cplx) (hx : x.HasLength n) :
    (butterfly x j h w).HasLength n := by
  simpa [butterfly, Signal.HasLength] using hx

/-- A loop keeps what each of its passes keeps. -/
theorem foldl_keeps {α β : Type} (P : β → Prop) (f : β → α → β) (hf : ∀ b a, P b → P (f b a)) (l : List α) (b : β)
    (hb : P b) : P (l.foldl f b) := by
  induction l generalizing b with
  | nil => exact hb
  | cons a l ih => exact ih _ (hf _ _ hb)

theorem butterflyBlock_hasLength {x : Signal} {n : Nat} (m size i0 : Nat) (hx : x.HasLength n) :
    (butterflyBlock m size i0 x).HasLength n :=
  foldl_keeps (Signal.HasLength · n) _ (fun _ _ h => butterfly_hasLength _ _ _ h) _ _ hx

theorem butterflyStage_hasLength {x : Signal} {n : Nat} (m size : Nat) (hx : x.HasLength n) :
    (butterflyStage m size x).HasLength n :=
  foldl_keeps (Signal.HasLength · n) _ (fun _ _ h => butterflyBlock_hasLength _ _ _ h) _ _ hx

theorem radix2_hasLength (n : Nat) (x : Signal) : (radix2 n x).HasLength n :=
  foldl_keeps (Signal.HasLength · n) _ (fun _ _ h => butterflyStage_hasLength _ _ h) _ _ (ofFn_hasLength _ _)

theorem permute_hasLength (n : Nat) (x : Signal) : (permute n x).HasLength n := ofFn_hasLength _ _

theorem bluestein_hasLength (n : Nat) (x : Signal) : (bluestein n x).HasLength n := ofFn_hasLength _ _

theorem convolveBy_hasLength (tr : Signal → Signal) (n : Nat) (x y : Signal) : (convolveBy tr n x y).HasLength n :=
  ofFn_hasLength _ _

theorem convolve_hasLength (n : Nat) (x y : Signal) : (convolve n x y).HasLength n := convolveBy_hasLength _ _ _ _

theorem transform_hasLength {n : Nat} {x : Signal} (hx : x.HasLength n) : (transform n x).HasLength n := by
  unfold transform
  split
  · exact hx
  · split
    · exact radix2_hasLength n x
    · exact bluestein_hasLength n x

theorem inverse_hasLength {n : Nat} {x : Signal} (hx : x.HasLength n) : (inverse n x).HasLength n :=
  swap_hasLength (transform_hasLength (swap_hasLength hx))

@[simp] theorem zeros_length (n : Nat) : (zeros n).length = n := by simp [zeros]
@[simp] theorem magnitudes_length (n : Nat) (x : Signal) : (magnitudes n x).length = n / 2 + 1 := by simp [magnitudes]

theorem unpack1_hasLength (n : Nat) (x : Signal) : (unpack1 n x).HasLength n := ofFn_hasLength _ _
theorem unpack2_hasLength (n : Nat) (x : Signal) : (unpack2 n x).HasLength n := ofFn_hasLength _ _

@[simp] theorem outputs_lengths {x : Signal} {n : Nat} (h : x.HasLength n) : x.outputs.map List.length = [n, n] := by
  simp [Signal.outputs, h.1, h.2]

end Sys2Proof.Machine
end

