-- ==== Sys2Proof/Laws/Memory.lean ====
section
/-! SUPPORT. The laws of DMEM: a read after a write, what a write leaves alone, the canonical form, and the same for
regions, output writes and havoc. -/

namespace Sys2Proof.Machine

/-! ### Bytes -/

@[simp] theorem writtenByte_writeByte_self (m : Memory) (a : Nat) (v : Byte) : writtenByte (writeByte m a v) a = some v := by
  induction m with
  | nil => simp [writeByte, writtenByte]
  | cons c m ih =>
    obtain ⟨k, b⟩ := c
    unfold writeByte
    split
    · simp [writtenByte]
    · split
      · simp [writtenByte]
      · have : ¬k = a := fun h => by omega
        simp [writtenByte, this, ih]

theorem writtenByte_writeByte_other (m : Memory) {a x : Nat} (v : Byte) (h : x ≠ a) :
    writtenByte (writeByte m a v) x = writtenByte m x := by
  induction m with
  | nil => simp [writeByte, writtenByte, Ne.symm h]
  | cons c m ih =>
    obtain ⟨k, b⟩ := c
    unfold writeByte
    split
    · simp [writtenByte, Ne.symm h]
    · split
      · rename_i h2
        subst h2
        simp [writtenByte, Ne.symm h]
      · simp [writtenByte, ih]

@[simp] theorem readByte_writeByte_self (m : Memory) (a : Nat) (v : Byte) : readByte (writeByte m a v) a = v := by
  simp [readByte]

theorem readByte_writeByte_other (m : Memory) {a x : Nat} (v : Byte) (h : x ≠ a) :
    readByte (writeByte m a v) x = readByte m x := by
  simp [readByte, writtenByte_writeByte_other m v h]

theorem readByte_writeByte (m : Memory) (a x : Nat) (v : Byte) :
    readByte (writeByte m a v) x = if x = a then v else readByte m x := by
  split
  · rename_i h; subst h; simp
  · rename_i h; exact readByte_writeByte_other m v h

/-! ### The canonical form -/

/-- Every address of the memory is above `a`. -/
def Memory.above (a : Nat) (m : Memory) : Prop := ∀ c ∈ m, a < c.1

theorem Memory.wf_cons (a : Nat) (b : Byte) (m : Memory) :
    Memory.wf ((a, b) :: m) = true ↔ Memory.above a m ∧ Memory.wf m = true := by
  induction m generalizing a b with
  | nil => simp [Memory.wf, Memory.above]
  | cons c m ih =>
    obtain ⟨k, y⟩ := c
    simp only [Memory.wf, Bool.and_eq_true, decide_eq_true_eq, Memory.above, List.mem_cons, forall_eq_or_imp]
    constructor
    · rintro ⟨h1, h2⟩
      exact ⟨⟨h1, fun c hc => lt_trans h1 (((ih k y).1 h2).1 c hc)⟩, h2⟩
    · rintro ⟨⟨h1, -⟩, h2⟩
      exact ⟨h1, h2⟩

theorem Memory.above_writeByte {a k : Nat} (m : Memory) (v : Byte) (h : Memory.above k m) (hk : k < a) :
    Memory.above k (writeByte m a v) := by
  induction m with
  | nil => simpa [writeByte, Memory.above] using hk
  | cons c m ih =>
    obtain ⟨j, b⟩ := c
    have hj : k < j := h (j, b) (by simp)
    have hm : Memory.above k m := fun c hc => h c (by simp [hc])
    unfold writeByte
    split
    · intro c hc
      simp only [List.mem_cons] at hc
      obtain rfl | rfl | hc := hc
      · exact hk
      · exact hj
      · exact hm c hc
    · split
      · intro c hc
        simp only [List.mem_cons] at hc
        obtain rfl | hc := hc
        · exact hk
        · exact hm c hc
      · intro c hc
        simp only [List.mem_cons] at hc
        obtain rfl | hc := hc
        · exact hj
        · exact ih hm c hc

/-- A write keeps the canonical form. -/
theorem wf_writeByte (m : Memory) (a : Nat) (v : Byte) (h : Memory.wf m = true) : Memory.wf (writeByte m a v) = true := by
  induction m with
  | nil => simp [writeByte, Memory.wf]
  | cons c m ih =>
    obtain ⟨k, b⟩ := c
    have hc := (Memory.wf_cons k b m).1 h
    unfold writeByte
    split
    · rename_i hlt
      refine (Memory.wf_cons _ _ _).2 ⟨fun c hm => ?_, h⟩
      simp only [List.mem_cons] at hm
      obtain rfl | hm := hm
      · exact hlt
      · exact lt_trans hlt (hc.1 c hm)
    · split
      · rename_i heq
        subst heq
        exact (Memory.wf_cons _ _ _).2 hc
      · exact (Memory.wf_cons _ _ _).2 ⟨Memory.above_writeByte m v hc.1 (by omega), ih hc.2⟩

theorem below_writeByte (m : Memory) {a bound : Nat} (v : Byte) (h : Memory.below bound m = true) (ha : a < bound) :
    Memory.below bound (writeByte m a v) = true := by
  induction m with
  | nil => simpa [writeByte, Memory.below] using ha
  | cons c m ih =>
    obtain ⟨k, b⟩ := c
    simp only [Memory.below, List.all_cons, Bool.and_eq_true, decide_eq_true_eq] at h ih
    unfold writeByte
    split
    · simp only [Memory.below, List.all_cons, Bool.and_eq_true, decide_eq_true_eq]; exact ⟨ha, h⟩
    · split
      · simp only [Memory.below, List.all_cons, Bool.and_eq_true, decide_eq_true_eq]; exact ⟨ha, h.2⟩
      · simp only [Memory.below, List.all_cons, Bool.and_eq_true, decide_eq_true_eq]; exact ⟨h.1, ih h.2⟩

/-! ### Halves -/

theorem bytes_of_word (v : Word) :
    v.extractLsb' 24 8 ++ v.extractLsb' 16 8 ++ v.extractLsb' 8 8 ++ v.extractLsb' 0 8 = v := by
  ext i hi
  simp only [BitVec.getElem_append, BitVec.getElem_extractLsb', BitVec.getLsbD_eq_getElem?_getD]
  split
  · rw [BitVec.getElem?_eq_getElem (by omega)]; simp
  · split
    · rw [BitVec.getElem?_eq_getElem (by omega)]; simp only [Option.getD_some]; congr 1; omega
    · split
      · rw [BitVec.getElem?_eq_getElem (by omega)]; simp only [Option.getD_some]; congr 1; omega
      · rw [BitVec.getElem?_eq_getElem (by omega)]; simp only [Option.getD_some]; congr 1; omega

theorem readHalf_writeHalf_self (m : Memory) (w h : Nat) (v : Word) : readHalf (writeHalf m w h v) w h = v := by
  simp only [readHalf, writeHalf, readByte_writeByte]
  simp only [left_eq_add, OfNat.ofNat_ne_zero, if_false, if_true, Nat.add_left_cancel_iff, Nat.reduceEqDiff,
    Nat.succ_ne_self]
  exact bytes_of_word v

/-- A byte outside the half's four is left alone. -/
theorem readByte_writeHalf_other (m : Memory) (w h : Nat) (v : Word) {a : Nat}
    (ha : a < halfAddress w h ∨ halfAddress w h + 4 ≤ a) : readByte (writeHalf m w h v) a = readByte m a := by
  simp only [writeHalf]
  rw [readByte_writeByte_other _ _ (by omega), readByte_writeByte_other _ _ (by omega),
    readByte_writeByte_other _ _ (by omega), readByte_writeByte_other _ _ (by omega)]

theorem readHalf_writeHalf_other (m : Memory) {w h x g : Nat} (v : Word) (hh : h < 2) (hg : g < 2)
    (hne : ¬(x = w ∧ g = h)) : readHalf (writeHalf m w h v) x g = readHalf m x g := by
  have : halfAddress x g + 4 ≤ halfAddress w h ∨ halfAddress w h + 4 ≤ halfAddress x g := by
    unfold halfAddress; omega
  simp only [readHalf]
  rw [readByte_writeHalf_other m w h v (by omega), readByte_writeHalf_other m w h v (by omega),
    readByte_writeHalf_other m w h v (by omega), readByte_writeHalf_other m w h v (by omega)]

theorem wf_writeHalf (m : Memory) (w h : Nat) (v : Word) (hm : Memory.wf m = true) :
    Memory.wf (writeHalf m w h v) = true := by
  simp only [writeHalf]
  exact wf_writeByte _ _ _ (wf_writeByte _ _ _ (wf_writeByte _ _ _ (wf_writeByte _ _ _ hm)))

theorem below_writeHalf (m : Memory) {w h words : Nat} (v : Word) (hm : Memory.below (8 * words) m = true)
    (hw : w < words) (hh : h < 2) : Memory.below (8 * words) (writeHalf m w h v) = true := by
  have h8 : halfAddress w h + 4 ≤ 8 * words := by unfold halfAddress; omega
  simp only [writeHalf]
  exact below_writeByte _ _ (below_writeByte _ _ (below_writeByte _ _ (below_writeByte _ _ hm (by omega)) (by omega))
    (by omega)) (by omega)

/-! ### Words -/

theorem halves_of_word (v : DWord) : v.extractLsb' 32 32 ++ v.extractLsb' 0 32 = v := by
  ext i hi
  simp only [BitVec.getElem_append, BitVec.getElem_extractLsb', BitVec.getLsbD_eq_getElem?_getD]
  split
  · rw [BitVec.getElem?_eq_getElem (by omega)]; simp
  · rw [BitVec.getElem?_eq_getElem (by omega)]; simp only [Option.getD_some]; congr 1; omega

theorem readWord_writeWord_self (m : Memory) (w : Nat) (v : DWord) : readWord (writeWord m w v) w = v := by
  simp only [readWord, writeWord]
  rw [readHalf_writeHalf_self, readHalf_writeHalf_other _ _ (by omega) (by omega) (by omega), readHalf_writeHalf_self]
  exact halves_of_word v

/-- A word is its eight bytes (20_memory.md R73, R75). -/
theorem readWord_congr {m m' : Memory} {w : Nat} (h : ∀ a, a / 8 = w → readByte m a = readByte m' a) :
    readWord m w = readWord m' w := by
  simp only [readWord, readHalf, halfAddress]
  rw [h (8 * w + 4 * 1 + 3) (by omega), h (8 * w + 4 * 1 + 2) (by omega), h (8 * w + 4 * 1 + 1) (by omega),
    h (8 * w + 4 * 1) (by omega), h (8 * w + 4 * 0 + 3) (by omega), h (8 * w + 4 * 0 + 2) (by omega),
    h (8 * w + 4 * 0 + 1) (by omega), h (8 * w + 4 * 0) (by omega)]

theorem readWord_writeHalf_other (m : Memory) {w h x : Nat} (v : Word) (hh : h < 2) (hne : x ≠ w) :
    readWord (writeHalf m w h v) x = readWord m x := by
  simp only [readWord]
  rw [readHalf_writeHalf_other _ _ hh (by omega) (by omega), readHalf_writeHalf_other _ _ hh (by omega) (by omega)]

theorem readWord_writeWord_other (m : Memory) {w x : Nat} (v : DWord) (hne : x ≠ w) :
    readWord (writeWord m w v) x = readWord m x := by
  simp only [writeWord]
  rw [readWord_writeHalf_other _ _ (by omega) hne, readWord_writeHalf_other _ _ (by omega) hne]

theorem readByte_writeWord_other (m : Memory) (w : Nat) (v : DWord) {a : Nat} (ha : a < 8 * w ∨ 8 * w + 8 ≤ a) :
    readByte (writeWord m w v) a = readByte m a := by
  simp only [writeWord]
  rw [readByte_writeHalf_other _ _ _ _ (by unfold halfAddress; omega),
    readByte_writeHalf_other _ _ _ _ (by unfold halfAddress; omega)]

theorem wf_writeWord (m : Memory) (w : Nat) (v : DWord) (hm : Memory.wf m = true) : Memory.wf (writeWord m w v) = true :=
  wf_writeHalf _ _ _ _ (wf_writeHalf _ _ _ _ hm)

theorem below_writeWord (m : Memory) {w words : Nat} (v : DWord) (hm : Memory.below (8 * words) m = true)
    (hw : w < words) : Memory.below (8 * words) (writeWord m w v) = true :=
  below_writeHalf _ _ (below_writeHalf _ _ hm hw (by omega)) hw (by omega)

/-! ### Sequences, output writes and havoc -/

theorem readByte_storeSeq_other (m : Memory) (p k : Nat) (vs : List FNum) {a : Nat}
    (ha : a < 8 * p ∨ 8 * (p + vs.length) ≤ a) : readByte (storeSeq m p k vs) a = readByte m a := by
  induction vs generalizing m p k with
  | nil => rfl
  | cons v vs ih =>
    simp only [List.length_cons] at ha
    simp only [storeSeq]
    rw [ih _ _ _ (by omega), readByte_writeWord_other _ _ _ (by omega)]

theorem readWord_storeSeq_other (m : Memory) (p k : Nat) (vs : List FNum) {x : Nat}
    (hx : x < p ∨ p + vs.length ≤ x) : readWord (storeSeq m p k vs) x = readWord m x := by
  induction vs generalizing m p k with
  | nil => rfl
  | cons v vs ih =>
    simp only [List.length_cons] at hx
    simp only [storeSeq]
    rw [ih _ _ _ (by omega), readWord_writeWord_other _ _ (by omega)]

theorem readWord_storeSeq_in (m : Memory) (p k : Nat) (vs : List FNum) {i : Nat} (hi : i < vs.length) :
    readWord (storeSeq m p k vs) (p + i) = storedBits (k + i) vs[i] := by
  induction vs generalizing m p k i with
  | nil => simp at hi
  | cons v vs ih =>
    simp only [storeSeq]
    cases i with
    | zero => rw [readWord_storeSeq_other _ _ _ _ (by omega)]; simp [readWord_writeWord_self]
    | succ i =>
      have := ih (writeWord m p (storedBits k v)) (p + 1) (k + 1) (i := i) (by simpa using hi)
      rw [show p + (i + 1) = p + 1 + i by omega, this, show k + (i + 1) = k + 1 + i by omega]
      simp

theorem wf_storeSeq (m : Memory) (p k : Nat) (vs : List FNum) (hm : Memory.wf m = true) :
    Memory.wf (storeSeq m p k vs) = true := by
  induction vs generalizing m p k with
  | nil => exact hm
  | cons v vs ih => exact ih _ _ _ (wf_writeWord _ _ _ hm)

theorem below_storeSeq (m : Memory) (p k : Nat) (vs : List FNum) {words : Nat}
    (hm : Memory.below (8 * words) m = true) (hp : vs.length = 0 ∨ p + vs.length ≤ words) :
    Memory.below (8 * words) (storeSeq m p k vs) = true := by
  induction vs generalizing m p k with
  | nil => exact hm
  | cons v vs ih =>
    simp only [List.length_cons] at hp
    exact ih _ _ _ (below_writeWord _ _ hm (by omega)) (by omega)

/-- Word x lies in none of the written sequences. -/
def Untouched (ws : List Write) (x : Nat) : Prop := ∀ w ∈ ws, x < w.1 ∨ w.1 + w.2.length ≤ x

theorem readWord_storeAll_other (m : Memory) (k : Nat) (ws : List Write) {x : Nat} (hx : Untouched ws x) :
    readWord (storeAll m k ws) x = readWord m x := by
  induction ws generalizing m k with
  | nil => rfl
  | cons w ws ih =>
    obtain ⟨p, vs⟩ := w
    simp only [storeAll]
    rw [ih _ _ fun v hv => hx v (by simp [hv]), readWord_storeSeq_other _ _ _ _ (hx (p, vs) (by simp))]

theorem readByte_storeAll_other (m : Memory) (k : Nat) (ws : List Write) {a : Nat}
    (ha : ∀ w ∈ ws, a < 8 * w.1 ∨ 8 * (w.1 + w.2.length) ≤ a) : readByte (storeAll m k ws) a = readByte m a := by
  induction ws generalizing m k with
  | nil => rfl
  | cons w ws ih =>
    obtain ⟨p, vs⟩ := w
    simp only [storeAll]
    rw [ih _ _ fun v hv => ha v (by simp [hv]), readByte_storeSeq_other _ _ _ _ (ha (p, vs) (by simp))]

theorem wf_storeAll (m : Memory) (k : Nat) (ws : List Write) (hm : Memory.wf m = true) :
    Memory.wf (storeAll m k ws) = true := by
  induction ws generalizing m k with
  | nil => exact hm
  | cons w ws ih => exact ih _ _ (wf_storeSeq _ _ _ _ hm)

theorem below_storeAll (m : Memory) (k : Nat) (ws : List Write) {words : Nat} (hm : Memory.below (8 * words) m = true)
    (hw : ∀ w ∈ ws, w.2.length = 0 ∨ w.1 + w.2.length ≤ words) : Memory.below (8 * words) (storeAll m k ws) = true := by
  induction ws generalizing m k with
  | nil => exact hm
  | cons w ws ih =>
    exact ih _ _ (below_storeSeq _ _ _ _ hm (hw w (by simp))) fun v hv => hw v (by simp [hv])

theorem readWord_havoc_other (m : Memory) (p k len : Nat) {x : Nat} (hx : x < p ∨ p + len ≤ x) :
    readWord (havoc m p k len) x = readWord m x := by
  induction len generalizing m p k with
  | zero => rfl
  | succ len ih =>
    simp only [havoc]
    rw [ih _ _ _ (by omega), readWord_writeWord_other _ _ (by omega)]

theorem readByte_havoc_other (m : Memory) (p k len : Nat) {a : Nat} (ha : a < 8 * p ∨ 8 * (p + len) ≤ a) :
    readByte (havoc m p k len) a = readByte m a := by
  induction len generalizing m p k with
  | zero => rfl
  | succ len ih =>
    simp only [havoc]
    rw [ih _ _ _ (by omega), readByte_writeWord_other _ _ _ (by omega)]

theorem readWord_havoc_in (m : Memory) (p k len : Nat) {i : Nat} (hi : i < len) :
    readWord (havoc m p k len) (p + i) = Config.freeWord (k + i) := by
  induction len generalizing m p k i with
  | zero => omega
  | succ len ih =>
    simp only [havoc]
    cases i with
    | zero => rw [readWord_havoc_other _ _ _ _ (by omega)]; simp [readWord_writeWord_self]
    | succ i =>
      rw [show p + (i + 1) = p + 1 + i by omega, ih _ _ _ (by omega), show k + (i + 1) = k + 1 + i by omega]

theorem wf_havoc (m : Memory) (p k len : Nat) (hm : Memory.wf m = true) : Memory.wf (havoc m p k len) = true := by
  induction len generalizing m p k with
  | zero => exact hm
  | succ len ih => exact ih _ _ _ (wf_writeWord _ _ _ hm)

theorem below_havoc (m : Memory) (p k len : Nat) {words : Nat} (hm : Memory.below (8 * words) m = true)
    (hp : len = 0 ∨ p + len ≤ words) : Memory.below (8 * words) (havoc m p k len) = true := by
  induction len generalizing m p k with
  | zero => exact hm
  | succ len ih => exact ih _ _ _ (below_writeWord _ _ hm (by omega)) (by omega)

theorem readWord_havocAll_other (m : Memory) (k : Nat) (rs : List Region) {x : Nat}
    (hx : ∀ r ∈ rs, x < r.base ∨ r.base + r.len ≤ x) : readWord (havocAll m k rs) x = readWord m x := by
  induction rs generalizing m k with
  | nil => rfl
  | cons r rs ih =>
    simp only [havocAll]
    rw [ih _ _ fun t ht => hx t (by simp [ht]), readWord_havoc_other _ _ _ _ (hx r (by simp))]

theorem wf_havocAll (m : Memory) (k : Nat) (rs : List Region) (hm : Memory.wf m = true) :
    Memory.wf (havocAll m k rs) = true := by
  induction rs generalizing m k with
  | nil => exact hm
  | cons r rs ih => exact ih _ _ (wf_havoc _ _ _ _ hm)

theorem below_havocAll (m : Memory) (k : Nat) (rs : List Region) {words : Nat} (hm : Memory.below (8 * words) m = true)
    (hr : ∀ r ∈ rs, r.len = 0 ∨ r.base + r.len ≤ words) : Memory.below (8 * words) (havocAll m k rs) = true := by
  induction rs generalizing m k with
  | nil => exact hm
  | cons r rs ih =>
    exact ih _ _ (below_havoc _ _ _ _ hm (hr r (by simp))) fun t ht => hr t (by simp [ht])

@[simp] theorem readRegion_length (m : Memory) (r : Region) : (readRegion m r).length = r.len := by simp [readRegion]

theorem readRegion_getElem (m : Memory) (r : Region) {i : Nat} (hi : i < (readRegion m r).length) :
    (readRegion m r)[i] = .word (readWord m (r.base + i)) := by simp [readRegion]

end Sys2Proof.Machine
end

