-- ==== Sys2Proof/Laws/Sizes.lean ====
section
/-! SUPPORT. Laws of the size arithmetic: powers of two, the Bluestein length and the scratch need. -/

namespace Sys2Proof.Machine

theorem isPow2_iff (n : Nat) : isPow2 n = true ↔ ∃ k, n = 2 ^ k := by
  simp only [isPow2, Bool.and_eq_true, decide_eq_true_eq]
  constructor
  · rintro ⟨h1, h2⟩
    exact ⟨n.log2, ((Nat.and_sub_one_eq_zero_iff_isPowerOfTwo (by omega)).1 h2).elim fun k hk => by
      rw [hk, Nat.log2_two_pow]⟩
  · rintro ⟨k, rfl⟩
    exact ⟨Nat.one_le_two_pow, (Nat.and_sub_one_eq_zero_iff_isPowerOfTwo (by positivity)).2 ⟨k, rfl⟩⟩

@[simp] theorem isPow2_two_pow (k : Nat) : isPow2 (2 ^ k) = true := (isPow2_iff _).2 ⟨k, rfl⟩

theorem isPow2_pos {n : Nat} (h : isPow2 n = true) : 1 ≤ n := by
  obtain ⟨k, rfl⟩ := (isPow2_iff n).1 h
  exact Nat.one_le_two_pow

theorem isPow2_log2 {n : Nat} (h : isPow2 n = true) : 2 ^ n.log2 = n := by
  obtain ⟨k, rfl⟩ := (isPow2_iff n).1 h
  rw [Nat.log2_two_pow]

theorem bluesteinLength_isPow2 (n : Nat) : isPow2 (bluesteinLength n) = true := by
  unfold bluesteinLength
  split
  · decide
  · simp

theorem bluesteinLength_gt (n : Nat) : 2 * n < bluesteinLength n := by
  unfold bluesteinLength
  split
  · omega
  · exact Nat.lt_log2_self

theorem bluesteinLength_le {n : Nat} (h : n ≠ 0) : bluesteinLength n ≤ 4 * n := by
  unfold bluesteinLength
  rw [if_neg h, Nat.pow_succ]
  have := Nat.log2_self_le (n := 2 * n) (by omega)
  omega

theorem r2Need_even {n : Nat} (h : n % 2 = 0) : r2Need n = n := by unfold r2Need; omega

theorem bluesteinLength_even {n : Nat} (h : n ≠ 0) : bluesteinLength n % 2 = 0 := by
  unfold bluesteinLength
  rw [if_neg h, Nat.pow_succ]
  omega

/-- BLNEED(n) = 2·n + 11·M(n) (40_command_execution.md R151). -/
theorem blNeed_eq {n : Nat} (h : n ≠ 0) : blNeed n = 2 * n + 11 * bluesteinLength n := by
  unfold blNeed
  rw [r2Need_even (bluesteinLength_even h)]
  omega

/-- BLNEED's last term is CCNEED(M(n)) (40_command_execution.md R151). -/
theorem blNeed_ccNeed (n : Nat) : blNeed n = 2 * n + 6 * bluesteinLength n + ccNeed (bluesteinLength n) := by
  unfold blNeed ccNeed tNeed
  rw [if_pos (bluesteinLength_isPow2 n)]

theorem lengthReported_lt (m : Nat) : lengthReported m < 2 ^ 32 := by
  unfold lengthReported
  split <;> omega

theorem needReported_lt (need : Nat) : needReported need < 2 ^ 32 := by
  unfold needReported sizeLimit
  omega

end Sys2Proof.Machine
end

