-- ==== Sys2Proof/Laws/State.lean ====
section
/-! SUPPORT. One lemma per field and update of State, true by definition, so that later proofs never unfold a record update. -/

namespace Sys2Proof.Machine

variable (s : State)

/-! ### startStep -/

@[simp] theorem startStep_dmemWords (w : Word) : (startStep w s).dmemWords = s.dmemWords := rfl
@[simp] theorem startStep_cmd (w : Word) : (startStep w s).cmd = w := rfl
@[simp] theorem startStep_busy (w : Word) : (startStep w s).busy = true := rfl
@[simp] theorem startStep_done (w : Word) : (startStep w s).done = false := rfl
@[simp] theorem startStep_fail (w : Word) : (startStep w s).fail = false := rfl
@[simp] theorem startStep_ovr (w : Word) : (startStep w s).ovr = s.ovr := rfl
@[simp] theorem startStep_result (w : Word) : (startStep w s).result = .ok := rfl
@[simp] theorem startStep_doneIe (w : Word) : (startStep w s).doneIe = s.doneIe := rfl
@[simp] theorem startStep_operands (w : Word) : (startStep w s).operands = s.operands := rfl
@[simp] theorem startStep_scrNeed (w : Word) : (startStep w s).scrNeed = s.scrNeed := rfl
@[simp] theorem startStep_blM (w : Word) : (startStep w s).blM = s.blM := rfl
@[simp] theorem startStep_snapshot (w : Word) : (startStep w s).snapshot = s.operands := rfl
@[simp] theorem startStep_op (w : Word) : (startStep w s).op = w := rfl
@[simp] theorem startStep_dmem (w : Word) : (startStep w s).dmem = s.dmem := rfl
@[simp] theorem startStep_resetLine (w : Word) : (startStep w s).resetLine = s.resetLine := rfl
@[simp] theorem startStep_response (w : Word) : (startStep w s).response = s.response := rfl
@[simp] theorem startStep_inbox (w : Word) : (startStep w s).inbox = s.inbox := rfl
@[simp] theorem startStep_draws (w : Word) : (startStep w s).draws = s.draws := rfl

/-! ### completionStep -/

@[simp] theorem completionStep_dmemWords (r : ExecResult) : (completionStep r s).dmemWords = s.dmemWords := rfl
@[simp] theorem completionStep_cmd (r : ExecResult) : (completionStep r s).cmd = s.cmd := rfl
@[simp] theorem completionStep_busy (r : ExecResult) : (completionStep r s).busy = false := rfl
@[simp] theorem completionStep_done (r : ExecResult) : (completionStep r s).done = true := rfl
@[simp] theorem completionStep_fail (r : ExecResult) : (completionStep r s).fail = decide (r.res ≠ .ok) := rfl
@[simp] theorem completionStep_ovr (r : ExecResult) : (completionStep r s).ovr = s.ovr := rfl
@[simp] theorem completionStep_result (r : ExecResult) : (completionStep r s).result = r.res := rfl
@[simp] theorem completionStep_doneIe (r : ExecResult) : (completionStep r s).doneIe = s.doneIe := rfl
@[simp] theorem completionStep_operands (r : ExecResult) : (completionStep r s).operands = s.operands := rfl
@[simp] theorem completionStep_scrNeed (r : ExecResult) : (completionStep r s).scrNeed = BitVec.ofNat 32 r.needR := rfl
@[simp] theorem completionStep_blM (r : ExecResult) : (completionStep r s).blM = BitVec.ofNat 32 r.mR := rfl
@[simp] theorem completionStep_snapshot (r : ExecResult) : (completionStep r s).snapshot = s.snapshot := rfl
@[simp] theorem completionStep_op (r : ExecResult) : (completionStep r s).op = s.op := rfl
@[simp] theorem completionStep_dmem (r : ExecResult) : (completionStep r s).dmem = dmemAfter r s := rfl
@[simp] theorem completionStep_resetLine (r : ExecResult) : (completionStep r s).resetLine = s.resetLine := rfl
@[simp] theorem completionStep_response (r : ExecResult) : (completionStep r s).response = s.response := rfl
@[simp] theorem completionStep_inbox (r : ExecResult) : (completionStep r s).inbox = s.inbox := rfl
@[simp] theorem completionStep_draws (r : ExecResult) : (completionStep r s).draws = drawsAfter r s := rfl

/-! ### writeStatus -/

@[simp] theorem writeStatus_dmemWords (v : Word) : (writeStatus v s).dmemWords = s.dmemWords := rfl
@[simp] theorem writeStatus_cmd (v : Word) : (writeStatus v s).cmd = s.cmd := rfl
@[simp] theorem writeStatus_busy (v : Word) : (writeStatus v s).busy = s.busy := rfl
@[simp] theorem writeStatus_done (v : Word) : (writeStatus v s).done = (s.done && !v.getLsbD 1) := rfl
@[simp] theorem writeStatus_fail (v : Word) : (writeStatus v s).fail = s.fail := rfl
@[simp] theorem writeStatus_ovr (v : Word) : (writeStatus v s).ovr = (s.ovr && !v.getLsbD 3) := rfl
@[simp] theorem writeStatus_result (v : Word) : (writeStatus v s).result = s.result := rfl
@[simp] theorem writeStatus_doneIe (v : Word) : (writeStatus v s).doneIe = s.doneIe := rfl
@[simp] theorem writeStatus_operands (v : Word) : (writeStatus v s).operands = s.operands := rfl
@[simp] theorem writeStatus_scrNeed (v : Word) : (writeStatus v s).scrNeed = s.scrNeed := rfl
@[simp] theorem writeStatus_blM (v : Word) : (writeStatus v s).blM = s.blM := rfl
@[simp] theorem writeStatus_snapshot (v : Word) : (writeStatus v s).snapshot = s.snapshot := rfl
@[simp] theorem writeStatus_op (v : Word) : (writeStatus v s).op = s.op := rfl
@[simp] theorem writeStatus_dmem (v : Word) : (writeStatus v s).dmem = s.dmem := rfl
@[simp] theorem writeStatus_resetLine (v : Word) : (writeStatus v s).resetLine = s.resetLine := rfl
@[simp] theorem writeStatus_response (v : Word) : (writeStatus v s).response = s.response := rfl
@[simp] theorem writeStatus_inbox (v : Word) : (writeStatus v s).inbox = s.inbox := rfl
@[simp] theorem writeStatus_draws (v : Word) : (writeStatus v s).draws = s.draws := rfl

/-! ### writeIrqEn -/

@[simp] theorem writeIrqEn_dmemWords (v : Word) : (writeIrqEn v s).dmemWords = s.dmemWords := rfl
@[simp] theorem writeIrqEn_cmd (v : Word) : (writeIrqEn v s).cmd = s.cmd := rfl
@[simp] theorem writeIrqEn_busy (v : Word) : (writeIrqEn v s).busy = s.busy := rfl
@[simp] theorem writeIrqEn_done (v : Word) : (writeIrqEn v s).done = s.done := rfl
@[simp] theorem writeIrqEn_fail (v : Word) : (writeIrqEn v s).fail = s.fail := rfl
@[simp] theorem writeIrqEn_ovr (v : Word) : (writeIrqEn v s).ovr = s.ovr := rfl
@[simp] theorem writeIrqEn_result (v : Word) : (writeIrqEn v s).result = s.result := rfl
@[simp] theorem writeIrqEn_doneIe (v : Word) : (writeIrqEn v s).doneIe = v.getLsbD 0 := rfl
@[simp] theorem writeIrqEn_operands (v : Word) : (writeIrqEn v s).operands = s.operands := rfl
@[simp] theorem writeIrqEn_scrNeed (v : Word) : (writeIrqEn v s).scrNeed = s.scrNeed := rfl
@[simp] theorem writeIrqEn_blM (v : Word) : (writeIrqEn v s).blM = s.blM := rfl
@[simp] theorem writeIrqEn_snapshot (v : Word) : (writeIrqEn v s).snapshot = s.snapshot := rfl
@[simp] theorem writeIrqEn_op (v : Word) : (writeIrqEn v s).op = s.op := rfl
@[simp] theorem writeIrqEn_dmem (v : Word) : (writeIrqEn v s).dmem = s.dmem := rfl
@[simp] theorem writeIrqEn_resetLine (v : Word) : (writeIrqEn v s).resetLine = s.resetLine := rfl
@[simp] theorem writeIrqEn_response (v : Word) : (writeIrqEn v s).response = s.response := rfl
@[simp] theorem writeIrqEn_inbox (v : Word) : (writeIrqEn v s).inbox = s.inbox := rfl
@[simp] theorem writeIrqEn_draws (v : Word) : (writeIrqEn v s).draws = s.draws := rfl

/-! ### respond -/

@[simp] theorem respond_dmemWords (r : Response) : (respond r s).dmemWords = s.dmemWords := rfl
@[simp] theorem respond_cmd (r : Response) : (respond r s).cmd = s.cmd := rfl
@[simp] theorem respond_busy (r : Response) : (respond r s).busy = s.busy := rfl
@[simp] theorem respond_done (r : Response) : (respond r s).done = s.done := rfl
@[simp] theorem respond_fail (r : Response) : (respond r s).fail = s.fail := rfl
@[simp] theorem respond_ovr (r : Response) : (respond r s).ovr = s.ovr := rfl
@[simp] theorem respond_result (r : Response) : (respond r s).result = s.result := rfl
@[simp] theorem respond_doneIe (r : Response) : (respond r s).doneIe = s.doneIe := rfl
@[simp] theorem respond_operands (r : Response) : (respond r s).operands = s.operands := rfl
@[simp] theorem respond_scrNeed (r : Response) : (respond r s).scrNeed = s.scrNeed := rfl
@[simp] theorem respond_blM (r : Response) : (respond r s).blM = s.blM := rfl
@[simp] theorem respond_snapshot (r : Response) : (respond r s).snapshot = s.snapshot := rfl
@[simp] theorem respond_op (r : Response) : (respond r s).op = s.op := rfl
@[simp] theorem respond_dmem (r : Response) : (respond r s).dmem = s.dmem := rfl
@[simp] theorem respond_resetLine (r : Response) : (respond r s).resetLine = s.resetLine := rfl
@[simp] theorem respond_response (r : Response) : (respond r s).response = some r := rfl
@[simp] theorem respond_inbox (r : Response) : (respond r s).inbox = s.inbox := rfl
@[simp] theorem respond_draws (r : Response) : (respond r s).draws = s.draws := rfl

/-! ### releaseReset -/

@[simp] theorem releaseReset_dmemWords : (releaseReset s).dmemWords = s.dmemWords := rfl
@[simp] theorem releaseReset_cmd : (releaseReset s).cmd = s.cmd := rfl
@[simp] theorem releaseReset_busy : (releaseReset s).busy = s.busy := rfl
@[simp] theorem releaseReset_done : (releaseReset s).done = s.done := rfl
@[simp] theorem releaseReset_fail : (releaseReset s).fail = s.fail := rfl
@[simp] theorem releaseReset_ovr : (releaseReset s).ovr = s.ovr := rfl
@[simp] theorem releaseReset_result : (releaseReset s).result = s.result := rfl
@[simp] theorem releaseReset_doneIe : (releaseReset s).doneIe = s.doneIe := rfl
@[simp] theorem releaseReset_operands : (releaseReset s).operands = s.operands := rfl
@[simp] theorem releaseReset_scrNeed : (releaseReset s).scrNeed = s.scrNeed := rfl
@[simp] theorem releaseReset_blM : (releaseReset s).blM = s.blM := rfl
@[simp] theorem releaseReset_snapshot : (releaseReset s).snapshot = s.snapshot := rfl
@[simp] theorem releaseReset_op : (releaseReset s).op = s.op := rfl
@[simp] theorem releaseReset_dmem : (releaseReset s).dmem = s.dmem := rfl
@[simp] theorem releaseReset_resetLine : (releaseReset s).resetLine = false := rfl
@[simp] theorem releaseReset_response : (releaseReset s).response = s.response := rfl
@[simp] theorem releaseReset_inbox : (releaseReset s).inbox = s.inbox := rfl
@[simp] theorem releaseReset_draws : (releaseReset s).draws = s.draws := rfl

/-! ### assertReset -/

@[simp] theorem assertReset_dmemWords : (assertReset s).dmemWords = s.dmemWords := rfl
@[simp] theorem assertReset_cmd : (assertReset s).cmd = 0 := rfl
@[simp] theorem assertReset_busy : (assertReset s).busy = false := rfl
@[simp] theorem assertReset_done : (assertReset s).done = false := rfl
@[simp] theorem assertReset_fail : (assertReset s).fail = false := rfl
@[simp] theorem assertReset_ovr : (assertReset s).ovr = false := rfl
@[simp] theorem assertReset_result : (assertReset s).result = .ok := rfl
@[simp] theorem assertReset_doneIe : (assertReset s).doneIe = false := rfl
@[simp] theorem assertReset_operands : (assertReset s).operands = .zero := rfl
@[simp] theorem assertReset_scrNeed : (assertReset s).scrNeed = 0 := rfl
@[simp] theorem assertReset_blM : (assertReset s).blM = 0 := rfl
@[simp] theorem assertReset_snapshot : (assertReset s).snapshot = .zero := rfl
@[simp] theorem assertReset_op : (assertReset s).op = 0 := rfl
@[simp] theorem assertReset_dmem : (assertReset s).dmem = havocAll s.dmem s.draws (resetLoss s) := rfl
@[simp] theorem assertReset_resetLine : (assertReset s).resetLine = true := rfl
@[simp] theorem assertReset_response : (assertReset s).response = none := rfl
@[simp] theorem assertReset_inbox : (assertReset s).inbox = s.inbox := rfl
@[simp] theorem assertReset_draws : (assertReset s).draws = s.draws + regionWords (resetLoss s) := rfl

/-! ### withInbox -/

@[simp] theorem withInbox_dmemWords (rest : List Event) : (withInbox rest s).dmemWords = s.dmemWords := rfl
@[simp] theorem withInbox_cmd (rest : List Event) : (withInbox rest s).cmd = s.cmd := rfl
@[simp] theorem withInbox_busy (rest : List Event) : (withInbox rest s).busy = s.busy := rfl
@[simp] theorem withInbox_done (rest : List Event) : (withInbox rest s).done = s.done := rfl
@[simp] theorem withInbox_fail (rest : List Event) : (withInbox rest s).fail = s.fail := rfl
@[simp] theorem withInbox_ovr (rest : List Event) : (withInbox rest s).ovr = s.ovr := rfl
@[simp] theorem withInbox_result (rest : List Event) : (withInbox rest s).result = s.result := rfl
@[simp] theorem withInbox_doneIe (rest : List Event) : (withInbox rest s).doneIe = s.doneIe := rfl
@[simp] theorem withInbox_operands (rest : List Event) : (withInbox rest s).operands = s.operands := rfl
@[simp] theorem withInbox_scrNeed (rest : List Event) : (withInbox rest s).scrNeed = s.scrNeed := rfl
@[simp] theorem withInbox_blM (rest : List Event) : (withInbox rest s).blM = s.blM := rfl
@[simp] theorem withInbox_snapshot (rest : List Event) : (withInbox rest s).snapshot = s.snapshot := rfl
@[simp] theorem withInbox_op (rest : List Event) : (withInbox rest s).op = s.op := rfl
@[simp] theorem withInbox_dmem (rest : List Event) : (withInbox rest s).dmem = s.dmem := rfl
@[simp] theorem withInbox_resetLine (rest : List Event) : (withInbox rest s).resetLine = s.resetLine := rfl
@[simp] theorem withInbox_response (rest : List Event) : (withInbox rest s).response = s.response := rfl
@[simp] theorem withInbox_inbox (rest : List Event) : (withInbox rest s).inbox = rest := rfl
@[simp] theorem withInbox_draws (rest : List Event) : (withInbox rest s).draws = s.draws := rfl

@[simp] theorem withInbox_self (h : s.inbox = []) : withInbox [] s = s := by
  cases s
  simp_all [withInbox]

@[simp] theorem withInbox_withInbox (r r' : List Event) : withInbox r (withInbox r' s) = withInbox r s := rfl

end Sys2Proof.Machine
end

