-- ==== Sys2Proof/Laws/Exec.lean ====
section
/-! SUPPORT. Everything Exec and the completion step can do, said once: which writes, which result, which frame, and what
DMEM holds after a success. -/

namespace Sys2Proof.Machine

open Sys2Proof.Safety

/-! ### One name for the fifteen semantic functions -/

/-- F_c for every command c. -/
def semantics : Instr → SemFn
  | .nop => semNop
  | .fft => semFft
  | .ifft => semIfft
  | .fftr2 => semFftr2
  | .fftbl => semFftbl
  | .convc => semConvc
  | .convr => semConvr
  | .fft2r => semFft2r
  | .absfft => semAbsfft
  | .absfft2 => semAbsfft2
  | .bitrev => semBitrev
  | .cmul => semCmul
  | .scale => semScale
  | .twtab => semTwtab
  | .chirptab => semChirptab

/-- Every command's meaning is the common completion step with its own F_c. -/
theorem exec_eq (c : Instr) (s : State) : exec c s = .next (runCommand c (semantics c) s) := by
  cases c <;> rfl

/-- The input Signal read from two regions of length n has length n. -/
theorem inputSignal_hasLength {ins : List (List FNum)} {i j n : Nat} (hi : (inputSeq ins i).length = n)
    (hj : (inputSeq ins j).length = n) : (inputSignal ins i j).HasLength n := ⟨hi, hj⟩

/-- Each value of an operand sequence is the word as it stands (20_memory.md R79). -/
theorem elem_readRegion (m : Memory) (b : Word) {n i : Nat} (h : i < n) :
    elem (readRegion m (regionAt b n)) i = .word (readWord m (b.toNat + i)) := by
  rw [elem_eq_getElem _ (by simpa [regionAt] using h), readRegion_getElem]
  rfl

/-- F_c returns one sequence per output region, each as long as its region (40_command_execution.md R140, R147). -/
theorem semantics_lengths (c : Instr) (l : Operands) (m : Memory) :
    (semantics c l.length ((inputRegions c l).map (readRegion m))).map List.length = (outputRegions c l).map Region.len := by
  have hx : (inputSignal ((signalX l).map (readRegion m)) 0 1).HasLength l.length :=
    inputSignal_hasLength (by simp [inputSeq, signalX, regionAt]) (by simp [inputSeq, signalX, regionAt])
  have hxy : (pack (inputSeq ((realXY l).map (readRegion m)) 0) (inputSeq ((realXY l).map (readRegion m)) 1)).HasLength
      l.length := ⟨by simp [pack, inputSeq, realXY, regionAt], by simp [pack, inputSeq, realXY, regionAt]⟩
  cases c with
  | nop => rfl
  | fft => exact outputs_lengths (transform_hasLength hx)
  | ifft => exact outputs_lengths (inverse_hasLength hx)
  | fftr2 => exact outputs_lengths (radix2_hasLength _ _)
  | fftbl => exact outputs_lengths (bluestein_hasLength _ _)
  | convc => exact outputs_lengths (convolve_hasLength _ _ _)
  | convr => exact congrArg (fun n => [n]) (convolve_hasLength _ _ _).1
  | fft2r =>
    simp only [semantics, semFft2r, List.map_append]
    rw [outputs_lengths (unpack1_hasLength _ _), outputs_lengths (unpack2_hasLength _ _)]
    rfl
  | absfft => simp [semantics, semAbsfft, outputRegions, regionAt]
  | absfft2 => simp [semantics, semAbsfft2, outputRegions, regionAt]
  | bitrev => exact outputs_lengths (permute_hasLength _ _)
  | cmul => exact outputs_lengths (ofFn_hasLength _ _)
  | scale => exact outputs_lengths (ofFn_hasLength _ _)
  | twtab => exact outputs_lengths (ofFn_hasLength _ _)
  | chirptab => exact outputs_lengths (ofFn_hasLength _ _)

/-- Zipping bases with sequences of the right lengths gives back the regions. -/
theorem zip_regions (rs : List Region) (vs : List (List FNum)) (h : vs.map List.length = rs.map Region.len) :
    (List.zip (rs.map Region.base) vs).map (fun w => ({ base := w.1, len := w.2.length } : Region)) = rs := by
  induction rs generalizing vs with
  | nil => simp
  | cons r rs ih =>
    cases vs with
    | nil => simp at h
    | cons v vs =>
      simp only [List.map_cons, List.cons.injEq] at h
      simp only [List.map_cons, List.zip_cons_cons, ih vs h.2, h.1]

/-- The output writes cover exactly the output regions, in order. -/
theorem performWrites_regions (c : Instr) (l : Operands) (m : Memory) :
    (performWrites c (semantics c) l m).map (fun w => ({ base := w.1, len := w.2.length } : Region)) = outputRegions c l :=
  zip_regions _ _ (semantics_lengths c l m)

theorem performWrites_region {c : Instr} {l : Operands} {m : Memory} {w : Write}
    (h : w ∈ performWrites c (semantics c) l m) : ({ base := w.1, len := w.2.length } : Region) ∈ outputRegions c l := by
  rw [← performWrites_regions c l m]
  exact List.mem_map_of_mem h

/-! ### What Exec can return -/

theorem sizeOverflow_eq_false {m need : Nat} : sizeOverflow m need = false ↔ m ≤ 2 ^ 32 - 1 ∧ need ≤ 2 ^ 32 - 1 := by
  simp only [sizeOverflow, Bool.or_eq_false_iff, decide_eq_false_iff_not, not_lt]
  rfl

theorem inDmem_iff {words : Nat} {r : Region} : inDmem words r = true ↔ r.len = 0 ∨ r.base + r.len ≤ words := by
  simp [inDmem]

theorem rangeFailure_eq_false {c : Instr} {l : Operands} {words need : Nat} :
    rangeFailure c l words need = false ↔
      (∀ r ∈ inputRegions c l ++ outputRegions c l, r.len = 0 ∨ r.base + r.len ≤ words) ∧
      (0 < need → l.scrBase.toNat + l.scrSize.toNat ≤ words) := by
  simp only [rangeFailure, Bool.or_eq_false_iff, Bool.not_eq_false', List.all_eq_true, inDmem_iff,
    Bool.and_eq_false_imp, decide_eq_true_eq, decide_eq_false_iff_not, not_lt]

theorem someOverlap_eq_false {rs : List Region} :
    someOverlap rs = false ↔ rs.Pairwise fun r t => overlaps r t = false := by
  induction rs with
  | nil => simp [someOverlap]
  | cons r rs ih => simp [someOverlap, ih, List.pairwise_cons]

theorem overlapFailure_eq_false {c : Instr} {l : Operands} {need : Nat} :
    overlapFailure c l need = false ↔
      ((outputRegions c l).Pairwise fun r t => overlaps r t = false) ∧
      ∀ r ∈ inputRegions c l ++ outputRegions c l, overlaps r (scratchUsed l need) = false := by
  simp only [overlapFailure, Bool.or_eq_false_iff, someOverlap_eq_false, List.any_eq_false, Bool.not_eq_true]

/-- A ready command performs: RESULT OK, its outputs written, need_r = NEED(c, n). -/
theorem execSteps_ready {c : Instr} {l : Operands} {words : Nat} (f : SemFn) (m : Memory) (h : CommandReady c l words) :
    execSteps c f l words m =
      { res := .ok, writes := performWrites c f l m, needR := scratchNeed c l.length,
        mR := lengthReported (topLength c l.length) } := by
  have hneed : needReported (scratchNeed c l.length) = scratchNeed c l.length := by
    have := h.sizes.2
    simp only [needReported, sizeLimit]; omega
  simp only [execSteps, h.length_ok, h.work.1, h.work.2, or_self, if_false,
    sizeOverflow_eq_false.2 h.sizes, Bool.false_eq_true,
    rangeFailure_eq_false.2 h.ranges, not_lt.2 h.scratch,
    overlapFailure_eq_false.2 h.disjoint, hneed]

/-- Exec's four outcomes: a length precondition fails; a trivial command; one of steps 4–7 fails; or the command is ready and
performs (40_command_execution.md R145). -/
theorem execSteps_cases (c : Instr) (f : SemFn) (l : Operands) (words : Nat) (m : Memory) :
    (∃ code, lengthPrecondition c l.length = some code ∧ execSteps c f l words m = failWith code 0 0) ∨
    (lengthPrecondition c l.length = none ∧ (c = .nop ∨ l.length = 0) ∧
      execSteps c f l words m = { res := .ok, writes := [], needR := 0, mR := 0 }) ∨
    (∃ code, lengthPrecondition c l.length = none ∧
      (code = .errOverflow ∨ code = .errRange ∨ code = .errNomem ∨ code = .errOverlap) ∧
      execSteps c f l words m =
        failWith code (needReported (scratchNeed c l.length)) (lengthReported (topLength c l.length))) ∨
    (CommandReady c l words ∧ execSteps c f l words m =
      { res := .ok, writes := performWrites c f l m, needR := scratchNeed c l.length,
        mR := lengthReported (topLength c l.length) }) := by
  cases hp : lengthPrecondition c l.length with
  | some code => exact .inl ⟨code, rfl, by simp only [execSteps, hp]⟩
  | none =>
    by_cases h3 : c = .nop ∨ l.length = 0
    · exact .inr (.inl ⟨rfl, h3, by simp only [execSteps, hp, if_pos h3]⟩)
    · by_cases h4 : sizeOverflow (topLength c l.length) (scratchNeed c l.length) = true
      · exact .inr (.inr (.inl ⟨_, rfl, .inl rfl, by simp only [execSteps, hp, if_neg h3, if_pos h4]⟩))
      · by_cases h5 : rangeFailure c l words (scratchNeed c l.length) = true
        · exact .inr (.inr (.inl ⟨_, rfl, .inr (.inl rfl), by
            simp only [execSteps, hp, if_neg h3, if_neg h4, if_pos h5]⟩))
        · by_cases h6 : l.scrSize.toNat < scratchNeed c l.length
          · exact .inr (.inr (.inl ⟨_, rfl, .inr (.inr (.inl rfl)), by
              simp only [execSteps, hp, if_neg h3, if_neg h4, if_neg h5, if_pos h6]⟩))
          · by_cases h7 : overlapFailure c l (scratchNeed c l.length) = true
            · exact .inr (.inr (.inl ⟨_, rfl, .inr (.inr (.inr rfl)), by
                simp only [execSteps, hp, if_neg h3, if_neg h4, if_neg h5, if_neg h6, if_pos h7]⟩))
            · have hr : CommandReady c l words := by
                simp only [Bool.not_eq_true] at h4 h5 h7
                rw [sizeOverflow_eq_false] at h4
                rw [rangeFailure_eq_false] at h5
                rw [overlapFailure_eq_false] at h7
                exact ⟨hp, not_or.1 h3, h4, h5, not_lt.1 h6, h7⟩
              exact .inr (.inr (.inr ⟨hr, execSteps_ready f m hr⟩))

/-- A failed Exec writes nothing. -/
theorem execSteps_failed_writes {c : Instr} {f : SemFn} {l : Operands} {words : Nat} {m : Memory}
    (h : (execSteps c f l words m).res ≠ .ok) : (execSteps c f l words m).writes = [] := by
  obtain ⟨code, -, he⟩ | ⟨-, -, he⟩ | ⟨code, -, -, he⟩ | ⟨-, he⟩ := execSteps_cases c f l words m <;>
    rw [he] at h ⊢ <;> first | rfl | exact absurd rfl h

/-! ### Completion -/

theorem dmemAfter_failed {r : ExecResult} (s : State) (h : r.res ≠ .ok) : dmemAfter r s = s.dmem := by
  simp [dmemAfter, h]

/-- The registers no completion writes (10_state.md R40). -/
theorem completionStep_sameControl (r : ExecResult) (s : State) : SameControl s (completionStep r s) := by
  simp [SameControl]

theorem completionStep_completedWith (r : ExecResult) (s : State) :
    CompletedWith r.res r.needR r.mR (completionStep r s) := by
  simp [CompletedWith]

theorem contains_iff {r : Region} {w : Nat} : r.contains w = true ↔ r.base ≤ w ∧ w < r.base + r.len := by
  rw [Region.contains, Bool.and_eq_true, decide_eq_true_eq, decide_eq_true_eq]

/-- Clipping keeps exactly the words inside DMEM (70_reset_and_hazards.md R331). -/
theorem contains_clip {r : Region} {words w : Nat} :
    (r.clip words).contains w = true ↔ r.contains w = true ∧ w < words := by
  rw [contains_iff, contains_iff]
  show r.base ≤ w ∧ w < r.base + min r.len (words - r.base) ↔ _
  omega

/-- A region that contains no word of another does not overlap it, and conversely for a word. -/
theorem outside_of_contains_false {r : Region} {w : Nat} (h : r.contains w = false) : w < r.base ∨ r.base + r.len ≤ w := by
  simp only [Region.contains, Bool.and_eq_false_imp, decide_eq_true_eq, decide_eq_false_iff_not, not_lt] at h
  omega

theorem contains_false_of_not_overlaps {r t : Region} {w : Nat} (h : overlaps r t = false) (hw : r.contains w = true) :
    t.contains w = false := by
  simp only [overlaps, Region.contains, Bool.and_eq_true, decide_eq_true_eq, Bool.and_eq_false_imp,
    decide_eq_false_iff_not] at h hw ⊢
  omega

/-- A byte outside every lost region survives (70_reset_and_hazards.md R331). -/
theorem readByte_havocAll_other (m : Memory) (k : Nat) (rs : List Region) {a : Nat}
    (h : ∀ r ∈ rs, r.contains (a / 8) = false) : readByte (havocAll m k rs) a = readByte m a := by
  induction rs generalizing m k with
  | nil => rfl
  | cons r rs ih =>
    simp only [havocAll]
    rw [ih _ _ fun r' hr' => h r' (List.mem_cons_of_mem _ hr'), readByte_havoc_other]
    have := outside_of_contains_false (h r (by simp))
    omega

/-- The quiet NaN drawn for an open NaN is a quiet NaN (00_scope.md R16). -/
theorem isQuietNaN_quietNaN (d : DWord) : isQuietNaN (quietNaN d) = true := by
  have h : (quietNaN d).extractLsb' 51 12 = 0xFFF#12 := by
    ext i hi
    simp only [quietNaN, BitVec.getElem_extractLsb', BitVec.getLsbD_or]
    have : i < 12 := hi
    interval_cases i <;> simp
  have h2 := congrArg BitVec.toNat h
  simp only [BitVec.extractLsb'_toNat, Nat.shiftRight_eq_div_pow] at h2
  simp only [isQuietNaN, decide_eq_true_eq, h2]
  rfl

theorem holdsValue_storedBits (k : Nat) (v : FNum) : HoldsValue (storedBits k v) v := by
  cases v with
  | word w => rfl
  | nan => exact isQuietNaN_quietNaN _

/-- After writes to disjoint regions, every one of them holds its sequence. -/
theorem storeAll_holds (m : Memory) (k : Nat) (ws : List Write)
    (hd : (ws.map fun w => ({ base := w.1, len := w.2.length } : Region)).Pairwise fun r t => overlaps r t = false)
    {w : Write} (hw : w ∈ ws) {i : Nat} (hi : i < w.2.length) :
    HoldsValue (readWord (storeAll m k ws) (w.1 + i)) w.2[i] := by
  induction ws generalizing m k with
  | nil => simp at hw
  | cons v ws ih =>
    obtain ⟨p, vs⟩ := v
    simp only [List.map_cons, List.pairwise_cons, List.mem_map, forall_exists_index, and_imp] at hd
    simp only [storeAll]
    obtain rfl | hw := List.mem_cons.1 hw
    · rw [readWord_storeAll_other, readWord_storeSeq_in _ _ _ _ hi]
      · exact holdsValue_storedBits _ _
      · intro u hu
        have := contains_false_of_not_overlaps (w := p + i) (hd.1 _ u hu rfl)
          (by simp [Region.contains]; exact hi)
        exact outside_of_contains_false this
    · exact ih _ _ hd.2 hw

/-- DMEM after a success: the outputs are held and every untouched word is as before (40_command_execution.md R147). -/
theorem runCommand_ready {c : Instr} {s : State} (h : CommandReady c s.snapshot s.dmemWords) :
    SameControl s (runCommand c (semantics c) s) ∧
    CompletedWith .ok (scratchNeed c s.snapshot.length) (lengthReported (topLength c s.snapshot.length))
      (runCommand c (semantics c) s) ∧
    (∀ w ∈ performWrites c (semantics c) s.snapshot s.dmem, HoldsSeq (runCommand c (semantics c) s).dmem w.1 w.2) ∧
    ∀ a, ¬ Touched c s.snapshot (a / 8) → readByte (runCommand c (semantics c) s).dmem a = readByte s.dmem a := by
  have he := execSteps_ready (semantics c) s.dmem h
  refine ⟨completionStep_sameControl _ _, ?_, ?_, ?_⟩
  · have := completionStep_completedWith (execSteps c (semantics c) s.snapshot s.dmemWords s.dmem) s
    simpa only [runCommand, he] using this
  · intro w hw i hi
    simp only [runCommand, completionStep_dmem, he, dmemAfter, if_true]
    have hr := performWrites_region hw
    have hc : ({ base := w.1, len := w.2.length } : Region).contains (w.1 + i) = true := by
      simp [Region.contains]; exact hi
    have hs := contains_false_of_not_overlaps (h.disjoint.2 _ (List.mem_append_right _ hr)) hc
    rw [readWord_havoc_other _ _ _ _ (by simpa [scratchUsed, regionAt] using outside_of_contains_false hs),
      elem_eq_getElem _ hi]
    exact storeAll_holds _ _ _ (by rw [performWrites_regions]; exact h.disjoint.1) hw hi
  · intro x hx
    simp only [Touched, not_or, not_exists, not_and, Bool.not_eq_true] at hx
    simp only [runCommand, completionStep_dmem, he, dmemAfter, if_true]
    have hs := outside_of_contains_false hx.2
    simp only [scratchUsed, regionAt] at hs
    rw [readByte_havoc_other _ _ _ _ (by omega), readByte_storeAll_other]
    intro w hw
    have := outside_of_contains_false (hx.1 _ (performWrites_region hw))
    simp only at this
    omega

/-- A command that does not succeed leaves DMEM exactly as it was (40_command_execution.md R146). -/
theorem runCommand_failed_dmem {c : Instr} {f : SemFn} {s : State} (h : (runCommand c f s).result ≠ .ok) :
    (runCommand c f s).dmem = s.dmem :=
  dmemAfter_failed s h

/-- The canonical form and the bounds of DMEM survive a completion (20_memory.md R79). -/
theorem runCommand_keeps_dmem {c : Instr} {s : State} (hwf : Memory.wf s.dmem = true)
    (hin : Memory.below (8 * s.dmemWords) s.dmem = true) :
    Memory.wf (runCommand c (semantics c) s).dmem = true ∧
    Memory.below (8 * s.dmemWords) (runCommand c (semantics c) s).dmem = true := by
  simp only [runCommand, completionStep_dmem]
  obtain ⟨code, -, he⟩ | ⟨-, -, he⟩ | ⟨code, -, hc, he⟩ | ⟨hr, he⟩ :=
    execSteps_cases c (semantics c) s.snapshot s.dmemWords s.dmem
  · rw [he]
    unfold dmemAfter failWith
    split
    · exact ⟨hwf, hin⟩
    · exact ⟨hwf, hin⟩
  · rw [he]; exact ⟨hwf, hin⟩
  · rw [he, dmemAfter_failed _ (by obtain rfl | rfl | rfl | rfl := hc <;> simp [failWith])]
    exact ⟨hwf, hin⟩
  · rw [he]
    simp only [dmemAfter, if_true]
    refine ⟨wf_havoc _ _ _ _ (wf_storeAll _ _ _ hwf), below_havoc _ _ _ _ (below_storeAll _ _ _ hin ?_) ?_⟩
    · intro w hw
      exact hr.ranges.1 _ (List.mem_append_right _ (performWrites_region hw))
    · have h1 := hr.ranges.2
      have h2 := hr.scratch
      omega

end Sys2Proof.Machine
end

