-- ==== Sys2Proof/Laws/Float.lean ====
section
/-! SUPPORT. Laws of the arithmetic: what an encoding's magnitude bits are worth, that an exact result is not changed by the
rounding, and the signs. -/

namespace Sys2Proof.Machine

/-- The units that magnitude bits below those of +∞ are worth (00_scope.md R10, R17). -/
def magnitudeUnits (bits : Nat) : Nat :=
  if bits / 2 ^ 52 = 0 then bits % 2 ^ 52 else (2 ^ 52 + bits % 2 ^ 52) * 2 ^ (bits / 2 ^ 52 - 1)

/-- The encoding of a sign and of magnitude bits below those of +∞. -/
theorem valueOf_finite (neg : Bool) {bits : Nat} (h : bits < infBits) :
    valueOf (BitVec.ofNat 64 (bits + if neg then 2 ^ 63 else 0)) = .fin neg (magnitudeUnits bits) := by
  have hi : infBits = 2047 * 2 ^ 52 := rfl
  have ht : (BitVec.ofNat 64 (bits + if neg then 2 ^ 63 else 0)).toNat = bits + if neg then 2 ^ 63 else 0 := by
    rw [BitVec.toNat_ofNat, Nat.mod_eq_of_lt]
    split <;> omega
  unfold valueOf magnitudeUnits
  rw [ht]
  have hs : decide (2 ^ 63 ≤ bits + if neg then 2 ^ 63 else 0) = neg := by
    cases neg <;> simp
    omega
  have he : (bits + if neg then 2 ^ 63 else 0) / 2 ^ 52 % 2 ^ 11 = bits / 2 ^ 52 := by split <;> omega
  have hf : (bits + if neg then 2 ^ 63 else 0) % 2 ^ 52 = bits % 2 ^ 52 := by split <;> omega
  simp only [hs, he, hf]
  rw [if_neg (by omega)]
  split <;> rfl

theorem valueOf_inf (neg : Bool) : valueOf (BitVec.ofNat 64 (infBits + if neg then 2 ^ 63 else 0)) = .inf neg := by
  cases neg <;> decide

/-- A significand at an exponent step, as magnitude bits (m may be 2^53, the carry into the next binade). -/
theorem magnitudeUnits_pack {k m : Nat} (hm : m ≤ 2 ^ 53) (hk : k = 0 ∨ 2 ^ 52 ≤ m) :
    magnitudeUnits (k * 2 ^ 52 + m) = m * 2 ^ k := by
  unfold magnitudeUnits
  by_cases h0 : m < 2 ^ 52
  · have : k = 0 := by omega
    subst this
    rw [if_pos (by omega)]
    omega
  · by_cases h1 : m = 2 ^ 53
    · subst h1
      rw [if_neg (by omega), show (k * 2 ^ 52 + 2 ^ 53) / 2 ^ 52 - 1 = k + 1 by omega,
        show (k * 2 ^ 52 + 2 ^ 53) % 2 ^ 52 = 0 by omega, pow_succ]
      ring
    · rw [if_neg (by omega), show (k * 2 ^ 52 + m) / 2 ^ 52 - 1 = k by omega,
        show 2 ^ 52 + (k * 2 ^ 52 + m) % 2 ^ 52 = m by omega]

/-- Magnitude bits split into an exponent step and a significand. -/
theorem exists_pack (bits : Nat) : ∃ k m, bits = k * 2 ^ 52 + m ∧ m < 2 ^ 53 ∧ (k = 0 ∨ 2 ^ 52 ≤ m) := by
  by_cases h : bits / 2 ^ 52 = 0
  · exact ⟨0, bits, by omega, by omega, .inl rfl⟩
  · exact ⟨bits / 2 ^ 52 - 1, bits % 2 ^ 52 + 2 ^ 52, by omega, by omega, .inr (by omega)⟩

theorem log2_pack {k m : Nat} (hm : m < 2 ^ 53) (hk : k = 0 ∨ 2 ^ 52 ≤ m) : (m * 2 ^ k).log2 - 52 = k := by
  by_cases h : 2 ^ 52 ≤ m
  · have : (m * 2 ^ k).log2 = 52 + k := by
      rw [Nat.log2_eq_iff (by positivity)]
      constructor
      · rw [pow_add]; exact Nat.mul_le_mul_right _ h
      · rw [show 52 + k + 1 = 53 + k by omega, pow_add]
        exact Nat.mul_lt_mul_of_pos_right hm (by positivity)
    omega
  · have hk0 : k = 0 := by omega
    subst hk0
    rw [pow_zero, mul_one]
    by_cases hm0 : m = 0
    · subst hm0; rfl
    · have := (Nat.log2_lt hm0).2 (show m < 2 ^ 52 by omega)
      omega

/-- Rounding leaves an exact magnitude as it is (00_scope.md R11). -/
theorem roundRatio_exact {bits den : Nat} (hd : 0 < den) (h : bits ≤ infBits) :
    roundRatio (magnitudeUnits bits * den) den = bits := by
  obtain ⟨k, m, rfl, hm, hk⟩ := exists_pack bits
  rw [magnitudeUnits_pack (by omega) hk]
  unfold roundRatio
  rw [Nat.mul_div_cancel _ hd, log2_pack hm hk]
  have h1 : m * 2 ^ k * den = m * (den * 2 ^ k) := by ring
  have h2 : 0 < den * 2 ^ k := by positivity
  simp only [h1]
  rw [Nat.mul_div_cancel _ h2, Nat.mul_mod_left]
  have : compare (2 * 0) (den * 2 ^ k) = .lt := by rw [compare_lt_iff_lt]; omega
  simp only [this, nearestEven, packBits]
  omega

/-- A rounded magnitude is never beyond the bits of +∞. -/
theorem roundRatio_le (num den : Nat) : roundRatio num den ≤ infBits := by
  simp only [roundRatio, packBits]
  omega

@[simp] theorem roundRatio_zero (den : Nat) : roundRatio 0 den = 0 := by
  simp only [roundRatio, Nat.zero_div, Nat.zero_mod, packBits]
  have : Nat.log2 0 - 52 = 0 := rfl
  rw [this]
  unfold nearestEven
  by_cases h : den = 0
  · subst h; rfl
  · have : compare (2 * 0) (den * 2 ^ 0) = .lt := by rw [compare_lt_iff_lt]; omega
    simp only [this]; rfl

/-- Turning bit 63 of a number below 2^63 adds 2^63. -/
theorem xor_sign {b : Nat} (h : b < 2 ^ 63) : b ^^^ 2 ^ 63 = b + 2 ^ 63 := by
  apply Nat.eq_of_testBit_eq
  intro i
  rw [Nat.testBit_xor, Nat.testBit_two_pow, Nat.add_comm b]
  by_cases h1 : i < 63
  · rw [Nat.testBit_two_pow_add_gt h1]
    simp [show ¬63 = i by omega]
  · by_cases h2 : i = 63
    · subst h2
      rw [Nat.testBit_two_pow_add_eq]
      simp
    · have hp := Nat.pow_le_pow_right (n := 2) (by omega) (show 64 ≤ i by omega)
      rw [Nat.testBit_lt_two_pow (show b < 2 ^ i by omega), Nat.testBit_lt_two_pow (show 2 ^ 63 + b < 2 ^ i by omega)]
      simp [show ¬63 = i by omega]

theorem ofNat_xor_sign {b : Nat} (h : b < 2 ^ 63) :
    BitVec.ofNat 64 b ^^^ 0x8000000000000000#64 = BitVec.ofNat 64 (b + 2 ^ 63) := by
  have hm : (0x8000000000000000#64).toNat = 2 ^ 63 := by decide
  apply BitVec.eq_of_toNat_eq
  rw [BitVec.toNat_xor, hm, BitVec.toNat_ofNat, BitVec.toNat_ofNat, Nat.mod_eq_of_lt (by omega),
    Nat.mod_eq_of_lt (by omega)]
  exact xor_sign h

/-- fneg turns the sign of a signed magnitude (00_scope.md R13). -/
theorem fneg_withSign (neg : Bool) {bits : Nat} (h : bits ≤ infBits) : fneg (withSign neg bits) = withSign (!neg) bits := by
  have hi : infBits = 2047 * 2 ^ 52 := rfl
  have key := ofNat_xor_sign (b := bits) (by omega)
  cases neg with
  | false => exact congrArg FNum.word key
  | true =>
    show FNum.word (BitVec.ofNat 64 (bits + 2 ^ 63) ^^^ 0x8000000000000000#64) = FNum.word (BitVec.ofNat 64 bits)
    rw [← key, BitVec.xor_assoc, BitVec.xor_self, BitVec.xor_zero]

/-- fneg turns the sign of the value (00_scope.md R13). -/
theorem valueOf_xor (w : DWord) : valueOf (w ^^^ 0x8000000000000000#64) =
    match valueOf w with
    | .nan => .nan
    | .inf neg => .inf (!neg)
    | .fin neg u => .fin (!neg) u := by
  have key : ∀ neg : Bool, ∀ b : Nat, b < 2 ^ 63 → w = BitVec.ofNat 64 (b + if neg then 2 ^ 63 else 0) →
      w ^^^ 0x8000000000000000#64 = BitVec.ofNat 64 (b + if !neg then 2 ^ 63 else 0) := by
    intro neg b hb hw
    have h0 := ofNat_xor_sign hb
    subst hw
    cases neg with
    | false => exact h0
    | true =>
      show BitVec.ofNat 64 (b + 2 ^ 63) ^^^ 0x8000000000000000#64 = BitVec.ofNat 64 b
      rw [← h0, BitVec.xor_assoc, BitVec.xor_self, BitVec.xor_zero]
  have hlt := w.isLt
  have key2 : ∀ neg : Bool, ∀ b : Nat, b < 2 ^ 63 →
      valueOf (BitVec.ofNat 64 (b + if neg then 2 ^ 63 else 0)) =
        if b / 2 ^ 52 = 2047 then (if b % 2 ^ 52 = 0 then .inf neg else .nan) else .fin neg (magnitudeUnits b) := by
    intro neg b hb
    by_cases h : b < infBits
    · rw [valueOf_finite neg h, if_neg (by have : infBits = 2047 * 2 ^ 52 := rfl; omega)]
    · have hi : infBits = 2047 * 2 ^ 52 := rfl
      have ht : (BitVec.ofNat 64 (b + if neg then 2 ^ 63 else 0)).toNat = b + if neg then 2 ^ 63 else 0 := by
        rw [BitVec.toNat_ofNat, Nat.mod_eq_of_lt]
        split <;> omega
      have hs : decide (2 ^ 63 ≤ b + if neg then 2 ^ 63 else 0) = neg := by cases neg <;> simp; omega
      have he : (b + if neg then 2 ^ 63 else 0) / 2 ^ 52 % 2 ^ 11 = b / 2 ^ 52 := by split <;> omega
      have hf : (b + if neg then 2 ^ 63 else 0) % 2 ^ 52 = b % 2 ^ 52 := by split <;> omega
      unfold valueOf
      rw [ht]
      simp only [hs, he, hf]
      simp only [if_pos (show b / 2 ^ 52 = 2047 by omega)]
  obtain ⟨neg, b, hb, hw⟩ : ∃ neg : Bool, ∃ b : Nat, b < 2 ^ 63 ∧ w = BitVec.ofNat 64 (b + if neg then 2 ^ 63 else 0) := by
    by_cases h : w.toNat < 2 ^ 63
    · exact ⟨false, w.toNat, h, by simp⟩
    · refine ⟨true, w.toNat - 2 ^ 63, by omega, ?_⟩
      apply BitVec.eq_of_toNat_eq
      rw [BitVec.toNat_ofNat, if_pos rfl]
      omega
  rw [key neg b hb hw, key2 (!neg) b hb, hw, key2 neg b hb]
  split
  · split <;> rfl
  · rfl

/-- A value with its sign turned. -/
def FVal.negate : FVal → FVal
  | .nan => .nan
  | .inf neg => .inf (!neg)
  | .fin neg u => .fin (!neg) u

theorem value_fneg (x : FNum) : (fneg x).value = x.value.negate := by
  cases x with
  | nan => rfl
  | word w =>
    show valueOf (w ^^^ 0x8000000000000000#64) = (valueOf w).negate
    rw [valueOf_xor]
    cases valueOf w <;> rfl

/-- The sum of finite values (00_scope.md R11). -/
theorem fadd_fin {x y : FNum} {na nb : Bool} {a b : Nat} (hx : x.value = .fin na a) (hy : y.value = .fin nb b) :
    fadd x y = addFinite na a nb b := by
  simp only [fadd, hx, hy]

@[simp] theorem signedUnits_not (neg : Bool) (u : Nat) : signedUnits (!neg) u = -signedUnits neg u := by
  cases neg <;> simp [signedUnits]

/-- The difference of finite values (00_scope.md R11, R13). -/
theorem fsub_fin {x y : FNum} {na nb : Bool} {a b : Nat} (hx : x.value = .fin na a) (hy : y.value = .fin nb b) :
    fsub x y = addFinite na a (!nb) b :=
  fadd_fin hx (by rw [value_fneg, hy]; rfl)

/-- A non-zero exact sum is rounded once (00_scope.md R11). -/
theorem addFinite_ne_zero {na nb : Bool} {a b : Nat} (h : signedUnits na a + signedUnits nb b ≠ 0) :
    addFinite na a nb b = withSign (decide (signedUnits na a + signedUnits nb b < 0))
      (roundRatio (signedUnits na a + signedUnits nb b).natAbs 1) := by
  simp only [addFinite, if_neg h]

/-- An exact zero sum is +0.0, unless both addends are negative (00_scope.md R11). -/
theorem addFinite_zero {na nb : Bool} {a b : Nat} (h : signedUnits na a + signedUnits nb b = 0) :
    addFinite na a nb b = withSign (na && nb) 0 := by
  simp only [addFinite, if_pos h]

/-- The product of finite values (00_scope.md R11). -/
theorem fmul_fin {x y : FNum} {na nb : Bool} {a b : Nat} (hx : x.value = .fin na a) (hy : y.value = .fin nb b) :
    fmul x y = withSign (na != nb) (roundRatio (a * b) (2 ^ unitExponent)) := by
  simp only [fmul, hx, hy]

/-- The quotient of finite values by a non-zero one (00_scope.md R11). -/
theorem fdiv_fin {x y : FNum} {na nb : Bool} {a b : Nat} (hx : x.value = .fin na a) (hy : y.value = .fin nb b)
    (hb : b ≠ 0) : fdiv x y = withSign (na != nb) (roundRatio (a * 2 ^ unitExponent) b) := by
  simp only [fdiv, hx, hy, if_neg hb]

/-- The square root of a positive finite value (00_scope.md R11). -/
theorem fsqrt_fin {x : FNum} {a : Nat} (hx : x.value = .fin false a) (ha : a ≠ 0) :
    fsqrt x = withSign false (roundSqrt (a * 2 ^ unitExponent)) := by
  simp only [fsqrt, hx, if_neg ha, Bool.false_eq_true, if_false]

/-- fadd is commutative: NaN bits are open and every other result is (00_scope.md R13). -/
theorem fadd_comm (x y : FNum) : fadd x y = fadd y x := by
  unfold fadd
  cases hx : x.value with
  | nan => cases y.value <;> rfl
  | inf na =>
    cases hy : y.value with
    | nan => rfl
    | inf nb =>
      cases na <;> cases nb <;> rfl
    | fin nb b => rfl
  | fin na a =>
    cases hy : y.value with
    | nan => rfl
    | inf nb => rfl
    | fin nb b => simp only [addFinite, Int.add_comm (signedUnits na a), Bool.and_comm na nb]

/-- fmul turns its sign with either factor's (00_scope.md R13). -/
theorem fmul_fneg (x y : FNum) : fmul (fneg x) y = fneg (fmul x y) := by
  unfold fmul
  rw [value_fneg]
  have hi : infBits ≤ infBits := Nat.le_refl _
  cases x.value with
  | nan => rfl
  | inf na =>
    cases y.value with
    | nan => rfl
    | inf nb =>
      simp only [FVal.negate]
      rw [fneg_withSign _ hi]
      cases na <;> cases nb <;> rfl
    | fin nb b =>
      simp only [FVal.negate]
      split
      · rfl
      · rw [fneg_withSign _ hi]
        cases na <;> cases nb <;> rfl
  | fin na a =>
    cases y.value with
    | nan => rfl
    | inf nb =>
      simp only [FVal.negate]
      split
      · rfl
      · rw [fneg_withSign _ hi]
        cases na <;> cases nb <;> rfl
    | fin nb b =>
      simp only [FVal.negate]
      rw [fneg_withSign _ (roundRatio_le _ _)]
      cases na <;> cases nb <;> rfl

/-- An arithmetic result: an open NaN, or a sign and magnitude bits not beyond those of +∞. -/
def FNum.IsResult (x : FNum) : Prop := x = .nan ∨ ∃ neg bits, bits ≤ infBits ∧ x = withSign neg bits

theorem fadd_isResult (x y : FNum) : (fadd x y).IsResult := by
  unfold fadd
  split
  · exact .inl rfl
  · exact .inl rfl
  · split
    · exact .inr ⟨_, _, Nat.le_refl _, rfl⟩
    · exact .inl rfl
  · exact .inr ⟨_, _, Nat.le_refl _, rfl⟩
  · exact .inr ⟨_, _, Nat.le_refl _, rfl⟩
  · unfold addFinite
    simp only
    split
    · exact .inr ⟨_, _, Nat.zero_le _, rfl⟩
    · exact .inr ⟨_, _, roundRatio_le _ _, rfl⟩

/-- f64(k) is exact below 2^53 (00_scope.md R14). -/
theorem exists_natural {k : Nat} (h : k < 2 ^ 53) :
    ∃ bits, bits < infBits ∧ magnitudeUnits bits = k * 2 ^ unitExponent := by
  by_cases h0 : k = 0
  · subst h0
    exact ⟨0, by decide, by simp [magnitudeUnits]⟩
  · have hl : k.log2 ≤ 52 := by have := (Nat.log2_lt h0).2 h; omega
    have h1 : 2 ^ k.log2 ≤ k := Nat.log2_self_le h0
    have h2 : k < 2 ^ (k.log2 + 1) := Nat.lt_log2_self
    have e : 2 ^ 52 = 2 ^ k.log2 * 2 ^ (52 - k.log2) := by rw [← pow_add]; congr 1; omega
    have e' : 2 ^ 53 = 2 ^ (k.log2 + 1) * 2 ^ (52 - k.log2) := by rw [← pow_add]; congr 1; omega
    have hp : 0 < 2 ^ (52 - k.log2) := by positivity
    have hlo : 2 ^ 52 ≤ k * 2 ^ (52 - k.log2) := by rw [e]; exact Nat.mul_le_mul_right _ h1
    have hhi : k * 2 ^ (52 - k.log2) < 2 ^ 53 := by rw [e']; exact Nat.mul_lt_mul_of_pos_right h2 hp
    refine ⟨(1022 + k.log2) * 2 ^ 52 + k * 2 ^ (52 - k.log2), ?_, ?_⟩
    · have : infBits = 2047 * 2 ^ 52 := rfl
      omega
    · rw [magnitudeUnits_pack (by omega) (.inr hlo), mul_assoc, ← pow_add]
      congr 2
      unfold unitExponent
      omega

theorem value_f64 {k : Nat} (h : k < 2 ^ 53) : (f64 k).value = .fin false (k * 2 ^ unitExponent) := by
  obtain ⟨bits, hb, hu⟩ := exists_natural h
  have := roundRatio_exact (den := 1) (by decide) (Nat.le_of_lt hb)
  unfold f64
  rw [← hu]
  rw [Nat.mul_one] at this
  rw [this]
  exact valueOf_finite false hb

/-- Division by 1.0 changes no bit of a result (00_scope.md R18, 42_convolution.md R231). -/
theorem fdiv_one {x : FNum} (h : x.IsResult) : fdiv x (f64 1) = x := by
  have h1 : (f64 1).value = .fin false (2 ^ unitExponent) := by
    rw [value_f64 (by decide), Nat.one_mul]
  have h0 : 0 < 2 ^ unitExponent := by positivity
  unfold fdiv
  rw [h1]
  obtain rfl | ⟨neg, bits, hb, rfl⟩ := h
  · rfl
  · by_cases he : bits = infBits
    · subst he
      have : (withSign neg infBits).value = .inf neg := valueOf_inf neg
      rw [this]
      cases neg <;> rfl
    · have : (withSign neg bits).value = .fin neg (magnitudeUnits bits) := valueOf_finite neg (by omega)
      rw [this]
      simp only [Nat.ne_of_gt h0, if_false, roundRatio_exact h0 hb, Bool.bne_false]

/-! ### Neighbours and the two roundings (00_scope.md R11) -/

/-- A magnitude above m·2^k is at least (m + 1)·2^k. -/
theorem magnitudeUnits_above {k m b : Nat} (hk : k = 0 ∨ 2 ^ 52 ≤ m) (h : m * 2 ^ k < magnitudeUnits b) :
    (m + 1) * 2 ^ k ≤ magnitudeUnits b := by
  obtain ⟨k', m', rfl, hm', hk'⟩ := exists_pack b
  rw [magnitudeUnits_pack (by omega) hk'] at h ⊢
  obtain rfl | hk := hk
  · simp at h ⊢; omega
  · by_cases hkk : k ≤ k'
    · obtain ⟨d, rfl⟩ := Nat.exists_eq_add_of_le hkk
      rw [pow_add, mul_comm (2 ^ k), ← mul_assoc] at h ⊢
      have := Nat.lt_of_mul_lt_mul_right h
      exact Nat.mul_le_mul_right _ this
    · exfalso
      have : m' * 2 ^ k' < m * 2 ^ k := by
        calc m' * 2 ^ k' < 2 ^ 53 * 2 ^ k' := Nat.mul_lt_mul_of_pos_right hm' (by positivity)
          _ = 2 ^ 52 * 2 ^ (k' + 1) := by ring
          _ ≤ m * 2 ^ k := Nat.mul_le_mul hk (Nat.pow_le_pow_right (by omega) (by omega))
      omega

/-- A magnitude below m·2^k is at most (m − 1)·2^k, unless m is the least normal significand. -/
theorem magnitudeUnits_below {k m b : Nat} (hk : k = 0 ∨ 2 ^ 52 < m) (h : magnitudeUnits b < m * 2 ^ k) :
    magnitudeUnits b + 2 ^ k ≤ m * 2 ^ k := by
  obtain ⟨k', m', rfl, hm', hk'⟩ := exists_pack b
  rw [magnitudeUnits_pack (by omega) hk'] at h ⊢
  obtain rfl | hk := hk
  · simp at h ⊢; omega
  · by_cases hkk : k ≤ k'
    · obtain ⟨d, rfl⟩ := Nat.exists_eq_add_of_le hkk
      rw [pow_add, mul_comm (2 ^ k), ← mul_assoc] at h ⊢
      have := Nat.lt_of_mul_lt_mul_right h
      calc _ = (m' * 2 ^ d + 1) * 2 ^ k := by ring
        _ ≤ _ := Nat.mul_le_mul_right _ this
    · have : m' * 2 ^ k' ≤ 2 ^ 52 * 2 ^ k := by
        calc m' * 2 ^ k' ≤ 2 ^ 53 * 2 ^ k' := Nat.mul_le_mul_right _ (by omega)
          _ = 2 ^ 52 * 2 ^ (k' + 1) := by ring
          _ ≤ 2 ^ 52 * 2 ^ k := Nat.mul_le_mul_left _ (Nat.pow_le_pow_right (by omega) (by omega))
      calc m' * 2 ^ k' + 2 ^ k ≤ 2 ^ 52 * 2 ^ k + 2 ^ k := by omega
        _ = (2 ^ 52 + 1) * 2 ^ k := by ring
        _ ≤ m * 2 ^ k := Nat.mul_le_mul_right _ hk

/-- Every finite value is the value of some magnitude bits. -/
theorem units_of_valueOf {w : DWord} {neg : Bool} {u : Nat} (h : valueOf w = .fin neg u) :
    ∃ b, b < infBits ∧ u = magnitudeUnits b := by
  have hi : infBits = 2047 * 2 ^ 52 := rfl
  unfold valueOf at h
  simp only at h
  split at h
  · split at h <;> cases h
  · refine ⟨w.toNat % 2 ^ 63, ?_, ?_⟩
    · have := w.isLt; omega
    · have e1 : w.toNat % 2 ^ 63 / 2 ^ 52 = w.toNat / 2 ^ 52 % 2 ^ 11 := by have := w.isLt; omega
      have e2 : w.toNat % 2 ^ 63 % 2 ^ 52 = w.toNat % 2 ^ 52 := by omega
      unfold magnitudeUnits
      rw [e1, e2]
      split at h <;> cases h
      · rw [if_pos (by assumption)]
      · rw [if_neg (by assumption)]


/-- What roundRatio does: it divides by a step den·2^k, keeps 53 bits at most, and rounds by the remainder. -/
theorem roundRatio_spec {num den : Nat} (hd : 0 < den) :
    ∃ k m r, num = m * (den * 2 ^ k) + r ∧ r < den * 2 ^ k ∧ m < 2 ^ 53 ∧ (k = 0 ∨ 2 ^ 52 ≤ m) ∧
      roundRatio num den = min (k * 2 ^ 52 + nearestEven m (compare (2 * r) (den * 2 ^ k))) infBits := by
  refine ⟨(num / den).log2 - 52, num / (den * 2 ^ ((num / den).log2 - 52)),
    num % (den * 2 ^ ((num / den).log2 - 52)), ?_, ?_, ?_, ?_, rfl⟩
  · rw [mul_comm]; exact (Nat.div_add_mod _ _).symm
  · exact Nat.mod_lt _ (by positivity)
  · rw [← Nat.div_div_eq_div_mul]
    have : num / den < 2 ^ ((num / den).log2 + 1) := Nat.lt_log2_self
    rw [Nat.div_lt_iff_lt_mul (by positivity), ← pow_add]
    exact Nat.lt_of_lt_of_le this (Nat.pow_le_pow_right (by omega) (by omega))
  · by_cases h : (num / den).log2 ≤ 52
    · exact .inl (by omega)
    · right
      rw [← Nat.div_div_eq_div_mul]
      have h0 : num / den ≠ 0 := by intro h0; rw [h0] at h; simp at h
      have : 2 ^ (num / den).log2 ≤ num / den := Nat.log2_self_le h0
      rw [Nat.le_div_iff_mul_le (by positivity), ← pow_add]
      rw [show 52 + ((num / den).log2 - 52) = (num / den).log2 by omega]
      exact this

/-- The three ways to round. -/
theorem nearestEven_cases (m r D : Nat) :
    (2 * r < D ∧ nearestEven m (compare (2 * r) D) = m) ∨
    (2 * r = D ∧ nearestEven m (compare (2 * r) D) = m + m % 2) ∨
    (D < 2 * r ∧ nearestEven m (compare (2 * r) D) = m + 1) := by
  rcases Nat.lt_trichotomy (2 * r) D with h | h | h
  · exact .inl ⟨h, by rw [compare_lt_iff_lt.2 h]; rfl⟩
  · exact .inr (.inl ⟨h, by rw [compare_eq_iff_eq.2 h]; rfl⟩)
  · exact .inr (.inr ⟨h, by rw [compare_gt_iff_gt.2 h]; rfl⟩)

/-- isqrt is the integer square root. -/
theorem isqrt_spec (fuel s : Nat) (h : s < 4 ^ fuel) :
    isqrt fuel s * isqrt fuel s ≤ s ∧ s < (isqrt fuel s + 1) * (isqrt fuel s + 1) := by
  induction fuel generalizing s with
  | zero =>
    have : s = 0 := by simpa using h
    subst this
    decide
  | succ f ih =>
    have h4 : s / 4 < 4 ^ f := by rw [pow_succ] at h; omega
    obtain ⟨h1, h2⟩ := ih _ h4
    simp only [isqrt]
    generalize isqrt f (s / 4) = q at *
    have e1 : 4 * (q * q) ≤ s := by omega
    have e2 : s < 4 * ((q + 1) * (q + 1)) := by omega
    split
    · constructor
      · assumption
      · nlinarith
    · constructor
      · nlinarith
      · rename_i hx; nlinarith

/-- What roundSqrt does: a 53-bit integer root m of s/4^k, then up or down by the midpoint m + 1/2. -/
theorem roundSqrt_spec (s : Nat) (hs : 2 ^ 104 ≤ s) :
    ∃ k m M, 2 ^ 52 ≤ m ∧ m < 2 ^ 53 ∧ m * m * 4 ^ k ≤ s ∧ s < (m + 1) * (m + 1) * 4 ^ k ∧ k = s.log2 / 2 - 52 ∧
      ((M = m ∧ 4 * s ≤ (2 * m + 1) * (2 * m + 1) * 4 ^ k) ∨
        (M = m + 1 ∧ (2 * m + 1) * (2 * m + 1) * 4 ^ k ≤ 4 * s)) ∧
      roundSqrt s = min (k * 2 ^ 52 + M) infBits := by
  have h0 : s ≠ 0 := by omega
  have hl1 := Nat.log2_self_le h0
  have hl2 : s < 2 ^ (s.log2 + 1) := Nat.lt_log2_self
  have hl3 : 104 ≤ s.log2 := by
    by_contra hc
    have := Nat.pow_le_pow_right (n := 2) (by omega) (show s.log2 + 1 ≤ 104 by omega)
    omega
  obtain ⟨k, hk⟩ : ∃ k, k = s.log2 / 2 - 52 := ⟨_, rfl⟩
  have hkk : 2 * k + 104 ≤ s.log2 ∧ s.log2 + 1 ≤ 2 * k + 106 := by omega
  have h4 : (4 : Nat) ^ k = 2 ^ (2 * k) := by rw [pow_mul]; norm_num
  have g1 : s / 4 ^ k < 4 ^ 53 := by
    rw [Nat.div_lt_iff_lt_mul (by positivity), h4]
    have := Nat.pow_le_pow_right (n := 2) (by omega) hkk.2
    have e : (4:Nat) ^ 53 * 2 ^ (2 * k) = 2 ^ (2 * k + 106) := by rw [pow_add]; norm_num; ring
    omega
  have g2 : 4 ^ 52 ≤ s / 4 ^ k := by
    rw [Nat.le_div_iff_mul_le (by positivity), h4]
    have := Nat.pow_le_pow_right (n := 2) (by omega) hkk.1
    have e : (4:Nat) ^ 52 * 2 ^ (2 * k) = 2 ^ (2 * k + 104) := by rw [pow_add]; norm_num; ring
    omega
  obtain ⟨i1, i2⟩ := isqrt_spec 54 (s / 4 ^ k) (by omega)
  have hdef : roundSqrt s = packBits k (nearestEven (isqrt 54 (s / 4 ^ k))
      (compare (4 * s) ((2 * isqrt 54 (s / 4 ^ k) + 1) * (2 * isqrt 54 (s / 4 ^ k) + 1) * 4 ^ k))) := by
    rw [hk]; rfl
  generalize isqrt 54 (s / 4 ^ k) = m at *
  have m1 : 2 ^ 52 ≤ m := by
    by_contra hc
    have : (m + 1) * (m + 1) ≤ 2 ^ 52 * 2 ^ 52 := Nat.mul_le_mul (by omega) (by omega)
    omega
  have m2 : m < 2 ^ 53 := by
    by_contra hc
    have : 2 ^ 53 * 2 ^ 53 ≤ m * m := Nat.mul_le_mul (by omega) (by omega)
    omega
  have n1 : m * m * 4 ^ k ≤ s := by
    rw [← Nat.le_div_iff_mul_le (by positivity)]; exact i1
  have n2 : s < (m + 1) * (m + 1) * 4 ^ k := by
    rw [← Nat.div_lt_iff_lt_mul (by positivity)]; exact i2
  refine ⟨k, m, _, m1, m2, n1, n2, hk, ?_, hdef⟩
  rcases Nat.lt_trichotomy (4 * s) ((2 * m + 1) * (2 * m + 1) * 4 ^ k) with h | h | h
  · exact .inl ⟨by rw [compare_lt_iff_lt.2 h]; rfl, Nat.le_of_lt h⟩
  · rw [compare_eq_iff_eq.2 h]
    have : m % 2 = 0 ∨ m % 2 = 1 := by omega
    obtain h2 | h2 := this
    · exact .inl ⟨by simp [nearestEven, h2], Nat.le_of_eq h⟩
    · exact .inr ⟨by simp [nearestEven, h2], Nat.le_of_eq h.symm⟩
  · exact .inr ⟨by rw [compare_gt_iff_gt.2 h]; rfl, Nat.le_of_lt h⟩

end Sys2Proof.Machine
end

