-- ==== Sys2Proof/Laws/HostBus.lean ====
section
/-! SUPPORT. Laws of the block's place on the host interconnect (20_memory.md R70): addresses and offsets correspond, and what
reaches the block does not depend on where the platform puts it. -/

namespace Sys2Proof.Machine

@[simp] theorem blockOffset_busAddress (base : Nat) (a : Word) : blockOffset base (busAddress base a) = some a := by
  have := a.isLt
  simp only [blockOffset, busAddress, Nat.add_sub_cancel_left]
  rw [if_pos (by omega), BitVec.ofNat_toNat, BitVec.setWidth_eq]

theorem blockOffset_eq_some {base address : Nat} {a : Word} : blockOffset base address = some a ↔ address = busAddress base a := by
  refine ⟨fun h => ?_, fun h => h ▸ blockOffset_busAddress base a⟩
  unfold blockOffset at h
  split at h
  · injection h with h
    subst h
    simp only [busAddress, BitVec.toNat_ofNat]
    omega
  · cases h

@[simp] theorem selectedTransaction_onBus (base : Nat) (t : Transaction) : selectedTransaction base (onBus base t) = some t := by
  simp [selectedTransaction, onBus]

/-- An access outside the block's 2^32 bytes reaches nothing of it. -/
theorem selectedTransaction_outside {base : Nat} {b : BusAccess} (h : b.address < base ∨ base + 2 ^ 32 ≤ b.address) :
    selectedTransaction base b = none := by
  simp only [selectedTransaction, blockOffset]
  rw [if_neg (by omega)]
  rfl

theorem filterMap_onBus (base : Nat) (ts : List Transaction) : (ts.map (onBus base)).filterMap (selectedTransaction base) = ts := by
  induction ts with
  | nil => rfl
  | cons t ts ih => simp [ih]

/-- A host program delivers the same events wherever the platform puts the block. -/
theorem deliveredEvents_programAccesses (base : Nat) (ls : List HostLine) :
    deliveredEvents base (programAccesses base ls) = programEvents ls := by
  simp only [deliveredEvents, programAccesses, programEvents, filterMap_onBus]

theorem receiveBus_program (ls : List HostLine) (s : State) :
    receiveBus (programAccesses Config.blockBase ls) s = { s with inbox := s.inbox ++ programEvents ls } := by
  simp only [receiveBus, deliveredEvents_programAccesses]

end Sys2Proof.Machine
end

