-- ==== Sys2Proof/Laws/PerInstr.lean ====
section
/-! SUPPORT. One lemma per command: it is well formed and its word's fields are its own (30_encoding.md R101, R103). -/

namespace Sys2Proof.Laws.WordFields

/-- The command's word has RSVD = 0, an OPCODE of the map, and is a well-formed command word (30_encoding.md R101, R104). -/
def Statement (i : Instr) : Prop :=
  i.wellFormed = true ∧ reservedField (encode i) = 0 ∧ opcodeDefined (opcodeField (encode i)) = true ∧
    commandWordWellFormed (encode i) = true

theorem nop : Statement .nop := ⟨rfl, by decide, by decide, by decide⟩
theorem fft : Statement .fft := ⟨rfl, by decide, by decide, by decide⟩
theorem ifft : Statement .ifft := ⟨rfl, by decide, by decide, by decide⟩
theorem fftr2 : Statement .fftr2 := ⟨rfl, by decide, by decide, by decide⟩
theorem fftbl : Statement .fftbl := ⟨rfl, by decide, by decide, by decide⟩
theorem convc : Statement .convc := ⟨rfl, by decide, by decide, by decide⟩
theorem convr : Statement .convr := ⟨rfl, by decide, by decide, by decide⟩
theorem fft2r : Statement .fft2r := ⟨rfl, by decide, by decide, by decide⟩
theorem absfft : Statement .absfft := ⟨rfl, by decide, by decide, by decide⟩
theorem absfft2 : Statement .absfft2 := ⟨rfl, by decide, by decide, by decide⟩
theorem bitrev : Statement .bitrev := ⟨rfl, by decide, by decide, by decide⟩
theorem cmul : Statement .cmul := ⟨rfl, by decide, by decide, by decide⟩
theorem scale : Statement .scale := ⟨rfl, by decide, by decide, by decide⟩
theorem twtab : Statement .twtab := ⟨rfl, by decide, by decide, by decide⟩
theorem chirptab : Statement .chirptab := ⟨rfl, by decide, by decide, by decide⟩

end Sys2Proof.Laws.WordFields
end

