-- ==== Sys2Proof/Laws/Radix2.lean ====
section
/-! SUPPORT. Laws of the radix-2 engine: the bits of a reversed index, and a stage as the set of its butterflies. -/

namespace Sys2Proof.Machine

/-! ### Bit reversal (41_transform.md R172) -/

theorem revLoop_testBit (w i r b : Nat) :
    (revLoop w i r).testBit b = if b < w then i.testBit (w - 1 - b) else r.testBit (b - w) := by
  induction w generalizing i r b with
  | zero => simp [revLoop]
  | succ w ih =>
    rw [revLoop, ih]
    by_cases h1 : b < w
    · rw [if_pos h1, if_pos (by omega), Nat.testBit_div_two]
      congr 1
      omega
    · rw [if_neg h1]
      by_cases h2 : b = w
      · subst h2
        rw [if_pos (by omega), Nat.sub_self, show b + 1 - 1 - b = 0 by omega, Nat.testBit_zero, Nat.testBit_zero]
        congr 1
        simp only [eq_iff_iff]
        omega
      · rw [if_neg (by omega), show b - w = (b - (w + 1)) + 1 by omega, Nat.testBit_succ]
        congr 1
        omega

theorem bitReverse_testBit (w i b : Nat) : (bitReverse i w).testBit b = (decide (b < w) && i.testBit (w - 1 - b)) := by
  rw [bitReverse, revLoop_testBit]
  by_cases h : b < w <;> simp [h]

theorem bitReverse_lt (w i : Nat) : bitReverse i w < 2 ^ w := by
  apply Nat.lt_pow_two_of_testBit
  intro b hb
  rw [bitReverse_testBit]
  simp [show ¬b < w by omega]

theorem bitReverse_bitReverse {w i : Nat} (h : i < 2 ^ w) : bitReverse (bitReverse i w) w = i := by
  apply Nat.eq_of_testBit_eq
  intro b
  rw [bitReverse_testBit, bitReverse_testBit]
  by_cases hb : b < w
  · simp only [hb, decide_true, Bool.true_and, show w - 1 - b < w by omega]
    congr 1
    omega
  · have := Nat.pow_le_pow_right (n := 2) (by omega) (show w ≤ b by omega)
    rw [Nat.testBit_lt_two_pow (show i < 2 ^ b by omega)]
    simp [hb]

/-! ### Butterflies and stages (41_transform.md R175, R176) -/

/-- The two results of the butterfly on the pair (j, j + h) (41_transform.md R175). -/
def butterflyLow (x : Signal) (j h : Nat) (w : Cplx) : Cplx :=
  { re := fadd (elem x.re j) (cmulConj (x.sample (j + h)) w).re
    im := fadd (elem x.im j) (cmulConj (x.sample (j + h)) w).im }

def butterflyHigh (x : Signal) (j h : Nat) (w : Cplx) : Cplx :=
  { re := fsub (elem x.re j) (cmulConj (x.sample (j + h)) w).re
    im := fsub (elem x.im j) (cmulConj (x.sample (j + h)) w).im }

theorem elem_set (x : List FNum) (v : FNum) {j i : Nat} (hj : j < x.length) :
    elem (x.set j v) i = if i = j then v else elem x i := by
  unfold elem
  rw [List.getD_eq_getElem?_getD, List.getElem?_set]
  by_cases h : i = j
  · subst h; simp [hj]
  · simp [h, Ne.symm h]

/-- A butterfly changes its two positions and no other (41_transform.md R175). -/
theorem butterfly_sample {x : Signal} {n j h : Nat} (w : Cplx) (hx : x.HasLength n) (hh : 0 < h) (hj : j + h < n)
    (i : Nat) :
    (butterfly x j h w).sample i =
      if i = j then butterflyLow x j h w else if i = j + h then butterflyHigh x j h w else x.sample i := by
  have h1 := hx.1
  have h2 := hx.2
  simp only [butterfly, Signal.sample]
  rw [elem_set _ _ (by rw [List.length_set]; omega), elem_set _ _ (by omega), elem_set _ _ (by rw [List.length_set]; omega),
    elem_set _ _ (by omega)]
  by_cases e1 : i = j
  · simp only [e1, if_true]; rfl
  · by_cases e2 : i = j + h
    · subst e2
      simp only [e1, if_true, if_false]; rfl
    · simp only [e1, e2, if_false]

/-- The butterflies q < m of a block, m ≤ size/2: every pair among them holds its butterfly of the pair before, every other
position is as before (41_transform.md R176). -/
theorem block_sample {x : Signal} {n h i0 : Nat} (tw : Nat → Cplx) (hx : x.HasLength n) (hh : 0 < h)
    (hi : i0 + 2 * h ≤ n) (m : Nat) (hm : m ≤ h) (i : Nat) :
    ((List.range m).foldl (fun y q => butterfly y (i0 + q) h (tw q)) x).sample i =
      if i0 ≤ i ∧ i < i0 + m then butterflyLow x i h (tw (i - i0))
      else if i0 + h ≤ i ∧ i < i0 + h + m then butterflyHigh x (i - h) h (tw (i - h - i0))
      else x.sample i := by
  induction m generalizing i with
  | zero =>
    rw [if_neg (by omega), if_neg (by omega)]
    rfl
  | succ m ih =>
    have ih := ih (by omega)
    rw [List.range_succ, List.foldl_append, List.foldl_cons, List.foldl_nil]
    have hl := foldl_keeps (Signal.HasLength · n) (fun y q => butterfly y (i0 + q) h (tw q))
      (fun _ _ hy => butterfly_hasLength _ _ _ hy) (List.range m) x hx
    have low : ∀ y : Signal, y.sample (i0 + m) = x.sample (i0 + m) → y.sample (i0 + m + h) = x.sample (i0 + m + h) →
        butterflyLow y (i0 + m) h (tw m) = butterflyLow x (i0 + m) h (tw m) ∧
        butterflyHigh y (i0 + m) h (tw m) = butterflyHigh x (i0 + m) h (tw m) := by
      intro y e1 e2
      have e3 := congrArg Cplx.re e1
      have e4 := congrArg Cplx.im e1
      simp only [Signal.sample] at e3 e4
      unfold butterflyLow butterflyHigh
      rw [e2, e3, e4]
      exact ⟨rfl, rfl⟩
    have hb := low _ (by rw [ih, if_neg (by omega), if_neg (by omega)]) (by rw [ih, if_neg (by omega), if_neg (by omega)])
    rw [butterfly_sample _ hl hh (by omega)]
    by_cases e1 : i = i0 + m
    · subst e1
      rw [if_pos rfl, if_pos (by omega), hb.1]
      congr 2
      omega
    · rw [if_neg e1]
      by_cases e2 : i = i0 + m + h
      · subst e2
        rw [if_pos rfl, if_neg (by omega), if_pos (by omega), hb.2, show i0 + m + h - h = i0 + m by omega,
          show i0 + m - i0 = m by omega]
      · rw [if_neg e2, ih]
        by_cases c1 : i0 ≤ i ∧ i < i0 + m
        · rw [if_pos c1, if_pos (by omega)]
        · rw [if_neg c1]
          by_cases c2 : i0 + h ≤ i ∧ i < i0 + h + m
          · rw [if_pos c2, if_neg (by omega), if_pos (by omega)]
          · rw [if_neg c2, if_neg (by omega), if_neg (by omega)]

/-- One block (41_transform.md R176). -/
theorem butterflyBlock_sample {x : Signal} {n h i0 : Nat} (m : Nat) (hx : x.HasLength n) (hh : 0 < h)
    (hi : i0 + 2 * h ≤ n) (i : Nat) :
    (butterflyBlock m (2 * h) i0 x).sample i =
      if i0 ≤ i ∧ i < i0 + h then butterflyLow x i h (twiddle m ((i - i0) * (m / (2 * h))))
      else if i0 + h ≤ i ∧ i < i0 + 2 * h then
        butterflyHigh x (i - h) h (twiddle m ((i - h - i0) * (m / (2 * h))))
      else x.sample i := by
  unfold butterflyBlock
  rw [show 2 * h / 2 = h by omega, block_sample _ hx hh hi h (Nat.le_refl _)]
  by_cases c1 : i0 ≤ i ∧ i < i0 + h
  · rw [if_pos c1, if_pos c1]
  · rw [if_neg c1, if_neg c1]
    by_cases c2 : i0 + h ≤ i ∧ i < i0 + 2 * h
    · rw [if_pos c2, if_pos (by omega)]
    · rw [if_neg c2, if_neg (by omega)]

/-- The first B blocks of a stage: inside them every block is its own block of the Signal before the stage, and beyond them
nothing has changed (41_transform.md R176). -/
theorem blocks_sample {x : Signal} {n h : Nat} (m : Nat) (hx : x.HasLength n) (hh : 0 < h) (B : Nat)
    (hB : B * (2 * h) ≤ n) (i : Nat) :
    ((List.range B).foldl (fun y b => butterflyBlock m (2 * h) (b * (2 * h)) y) x).sample i =
      if i < B * (2 * h) then (butterflyBlock m (2 * h) (i / (2 * h) * (2 * h)) x).sample i else x.sample i := by
  induction B generalizing i with
  | zero => simp
  | succ B ih =>
    have e : (B + 1) * (2 * h) = B * (2 * h) + 2 * h := by ring
    have ih := ih (by omega)
    rw [List.range_succ, List.foldl_append, List.foldl_cons, List.foldl_nil]
    have hl := foldl_keeps (Signal.HasLength · n) (fun y b => butterflyBlock m (2 * h) (b * (2 * h)) y)
      (fun _ _ hy => butterflyBlock_hasLength _ _ _ hy) (List.range B) x hx
    rw [butterflyBlock_sample m hl hh (by omega)]
    have same : ∀ j, B * (2 * h) ≤ j →
        ((List.range B).foldl (fun y b => butterflyBlock m (2 * h) (b * (2 * h)) y) x).sample j = x.sample j :=
      fun j hj => by rw [ih, if_neg (by omega)]
    have lows : ∀ j w, B * (2 * h) ≤ j →
        butterflyLow ((List.range B).foldl (fun y b => butterflyBlock m (2 * h) (b * (2 * h)) y) x) j h w =
          butterflyLow x j h w ∧
        butterflyHigh ((List.range B).foldl (fun y b => butterflyBlock m (2 * h) (b * (2 * h)) y) x) j h w =
          butterflyHigh x j h w := by
      intro j w hj
      have e1 := same j hj
      have e2 := same (j + h) (by omega)
      have e3 := congrArg Cplx.re e1
      have e4 := congrArg Cplx.im e1
      simp only [Signal.sample] at e3 e4
      unfold butterflyLow butterflyHigh
      rw [e2, e3, e4]
      exact ⟨rfl, rfl⟩
    by_cases c0 : i < B * (2 * h)
    · rw [if_neg (by omega), if_neg (by omega), ih, if_pos c0, if_pos (by omega)]
    · by_cases c1 : i < (B + 1) * (2 * h)
      · have hd : i / (2 * h) = B := by
          rw [Nat.div_eq_iff (by omega)]
          omega
        rw [if_pos c1, hd, butterflyBlock_sample m hx hh (by omega)]
        by_cases d1 : B * (2 * h) ≤ i ∧ i < B * (2 * h) + h
        · rw [if_pos d1, if_pos d1, (lows _ _ d1.1).1]
        · rw [if_neg d1, if_neg d1]
          have d2 : B * (2 * h) + h ≤ i ∧ i < B * (2 * h) + 2 * h := by omega
          rw [if_pos d2, if_pos d2, (lows _ _ (by omega)).2]
      · rw [if_neg c1, if_neg (by omega), if_neg (by omega), same _ (by omega)]

/-- A whole stage (41_transform.md R176). -/
theorem butterflyStage_sample {x : Signal} {n h : Nat} (hx : x.HasLength n) (hh : 0 < h) {i : Nat}
    (hi : i / (2 * h) < n / (2 * h)) :
    (butterflyStage n (2 * h) x).sample i = (butterflyBlock n (2 * h) (i / (2 * h) * (2 * h)) x).sample i := by
  unfold butterflyStage
  rw [blocks_sample n hx hh _ (Nat.div_mul_le_self _ _), if_pos]
  rw [Nat.div_lt_iff_lt_mul (by omega)] at hi
  exact hi

end Sys2Proof.Machine
end

