-- ==== Sys2Proof/Laws/Step.lean ====
section
/-! SUPPORT. What one step can do, said once: the five cases of a step, the cases of a host transaction, and what a reset
assertion leaves. -/

namespace Sys2Proof.Machine

open Sys2Proof.Safety

/-- The state after the completion step of a busy machine (40_command_execution.md R131). -/
def completed (s : State) : State :=
  match decode s.op with
  | .error _ => takeFailure .errCmd 0 0 s
  | .ok c => runCommand c (semantics c) s

theorem sequencerCompletes_eq (s : State) : sequencerCompletes s = .next (completed s) := by
  unfold sequencerCompletes completed
  cases decode s.op with
  | error e => rfl
  | ok c => exact exec_eq c s

theorem sequencerStep_busy {s : State} (h : s.busy = true) : sequencerStep s = .next (completed s) := by
  rw [sequencerStep, if_pos h, sequencerCompletes_eq]

theorem sequencerStep_idle {s : State} (h : s.busy = false) : sequencerStep s = .next s := by
  rw [sequencerStep, if_neg (by simp [h])]

/-- The Exec result of the running command: ERR_CMD for a word that names no command, else steps 2–8
(40_command_execution.md R145). -/
def commandResult (s : State) : ExecResult :=
  match decode s.op with
  | .error _ => failWith .errCmd 0 0
  | .ok c => execSteps c (semantics c) s.snapshot s.dmemWords s.dmem

theorem completed_commandResult (s : State) : completed s = completionStep (commandResult s) s := by
  unfold completed commandResult
  split <;> rfl

/-- The Exec result depends on op, the snapshot, DMEM_WORDS and DMEM only (40_command_execution.md R145). -/
theorem commandResult_congr {s t : State} (ho : t.op = s.op) (hl : t.snapshot = s.snapshot)
    (hw : t.dmemWords = s.dmemWords) (hm : t.dmem = s.dmem) : commandResult t = commandResult s := by
  unfold commandResult
  rw [ho, hl, hw, hm]

/-- A completion is the completion step of one Exec result. -/
theorem completed_eq (s : State) : ∃ r, completed s = completionStep r s := by
  unfold completed
  split
  · exact ⟨_, rfl⟩
  · exact ⟨_, rfl⟩

@[simp] theorem completed_busy (s : State) : (completed s).busy = false := by
  obtain ⟨r, hr⟩ := completed_eq s
  simp [hr]

@[simp] theorem completed_done (s : State) : (completed s).done = true := by
  obtain ⟨r, hr⟩ := completed_eq s
  simp [hr]

theorem completed_sameControl (s : State) : SameControl s (completed s) := by
  obtain ⟨r, hr⟩ := completed_eq s
  rw [hr]
  exact completionStep_sameControl r s

theorem completed_fail (s : State) : (completed s).fail = decide ((completed s).result ≠ .ok) := by
  obtain ⟨r, hr⟩ := completed_eq s
  simp [hr]

theorem completed_keeps_dmem {s : State} (hwf : Memory.wf s.dmem = true)
    (hin : Memory.below (8 * s.dmemWords) s.dmem = true) :
    Memory.wf (completed s).dmem = true ∧ Memory.below (8 * s.dmemWords) (completed s).dmem = true := by
  unfold completed
  split
  · exact ⟨hwf, hin⟩
  · exact runCommand_keeps_dmem hwf hin

/-- A completion's m_r is 0 or a power of two not above 2^31 (10_state.md R39). -/
theorem execSteps_mR (c : Instr) (f : SemFn) (l : Operands) (words : Nat) (m : Memory) :
    (execSteps c f l words m).mR = 0 ∨
      (isPow2 (execSteps c f l words m).mR = true ∧ (execSteps c f l words m).mR ≤ 2 ^ 31) := by
  have key : lengthReported (topLength c l.length) = 0 ∨
      (isPow2 (lengthReported (topLength c l.length)) = true ∧ lengthReported (topLength c l.length) ≤ 2 ^ 31) := by
    unfold lengthReported topLength
    split
    · split
      · exact .inr ⟨bluesteinLength_isPow2 _, ‹_›⟩
      · exact .inl rfl
    · exact .inl rfl
  obtain ⟨code, -, he⟩ | ⟨-, -, he⟩ | ⟨code, -, -, he⟩ | ⟨-, he⟩ := execSteps_cases c f l words m <;> rw [he]
  · exact .inl rfl
  · exact .inl rfl
  · exact key
  · exact key

theorem completed_blM (s : State) : (completed s).blM = 0 ∨ isPow2 (completed s).blM.toNat = true := by
  have key : ∀ m : Nat, (m = 0 ∨ (isPow2 m = true ∧ m ≤ 2 ^ 31)) →
      BitVec.ofNat 32 m = 0 ∨ isPow2 (BitVec.ofNat 32 m).toNat = true := by
    rintro m (rfl | ⟨h, hle⟩)
    · exact .inl rfl
    · right
      rw [BitVec.toNat_ofNat, Nat.mod_eq_of_lt (by omega)]
      exact h
  unfold completed
  split
  · exact .inl rfl
  · exact key _ (execSteps_mR _ _ _ _ _)

/-! ### The cases of a step -/

/-- What a step that answers `next t` has done, by the first event of the inbox. -/
inductive StepCase (s t : State) : Prop where
  | transaction (tr : Transaction) (rest : List Event) (h : s.inbox = .transaction tr :: rest) (hr : s.resetLine = false)
      (ht : t = hostTransaction tr (withInbox rest s))
  | completion (rest : List Event) (h : (s.inbox = [] ∧ rest = []) ∨ s.inbox = .sequencerTurn :: rest)
      (hb : s.busy = true) (ht : t = completed (withInbox rest s))
  | idle (rest : List Event) (h : (s.inbox = [] ∧ rest = []) ∨ s.inbox = .sequencerTurn :: rest)
      (hb : s.busy = false) (ht : t = (withInbox rest s))
  | asserted (rest : List Event) (h : s.inbox = .resetAsserted :: rest) (ht : t = assertReset (withInbox rest s))
  | released (rest : List Event) (h : s.inbox = .resetReleased :: rest) (ht : t = releaseReset (withInbox rest s))

theorem step_cases {s t : State} (h : step s = .next t) : StepCase s t := by
  unfold step at h
  split at h
  · rename_i hi
    cases hb : s.busy with
    | true =>
      rw [sequencerStep_busy hb] at h
      injection h with h
      exact .completion [] (.inl ⟨hi, rfl⟩) hb (by rw [withInbox_self s hi, h])
    | false =>
      rw [sequencerStep_idle hb] at h
      injection h with h
      exact .idle [] (.inl ⟨hi, rfl⟩) hb (by rw [withInbox_self s hi, h])
  · rename_i e rest hi
    cases e with
    | transaction tr =>
      simp only [eventStep] at h
      split at h
      · cases h
      · injection h with h
        exact .transaction tr rest hi (by rename_i hr; simpa using hr) h.symm
    | sequencerTurn =>
      simp only [eventStep] at h
      cases hb : s.busy with
      | true =>
        rw [sequencerStep_busy (s := withInbox rest s) hb] at h
        injection h with h
        exact .completion rest (.inr hi) hb h.symm
      | false =>
        rw [sequencerStep_idle (s := withInbox rest s) hb] at h
        injection h with h
        exact .idle rest (.inr hi) hb h.symm
    | resetAsserted =>
      injection h with h
      exact .asserted rest hi h.symm
    | resetReleased =>
      injection h with h
      exact .released rest hi h.symm

theorem step_transaction {s : State} {tr : Transaction} {rest : List Event} (h : s.inbox = .transaction tr :: rest)
    (hr : s.resetLine = false) : step s = .next (hostTransaction tr (withInbox rest s)) := by
  simp [step, h, eventStep, hr]

theorem step_turn_busy {s : State} {rest : List Event} (h : s.inbox = .sequencerTurn :: rest) (hb : s.busy = true) :
    step s = .next (completed (withInbox rest s)) := by
  simp [step, h, eventStep, sequencerStep, hb, sequencerCompletes_eq]

theorem step_empty_busy {s : State} (h : s.inbox = []) (hb : s.busy = true) : step s = .next (completed s) := by
  simp [step, h, sequencerStep, hb, sequencerCompletes_eq]

/-! ### The cases of a host transaction -/

/-- What a transaction does besides its response: nothing, a register write, or the write of one half of a DMEM word while
idle (20_memory.md R72–R76). -/
theorem hostTransaction_cases (tr : Transaction) (s : State) :
    (∃ r, hostTransaction tr s = respond r s) ∨
    (∃ v r, tr.whole = true ∧ tr.access = .write v ∧ tr.offset.toNat = registerOffset r ∧
      hostTransaction tr s = respond (.write .okay) (writeRegister v s r)) ∨
    (∃ v w h, tr.whole = true ∧ tr.access = .write v ∧ s.busy = false ∧ h < 2 ∧ w < s.dmemWords ∧
      tr.offset.toNat = windowOffset w h ∧
      hostTransaction tr s = respond (.write .okay) { s with dmem := writeHalf s.dmem w h v }) := by
  have hbus : ∀ acc, ∃ r, busError acc s = respond r s := fun acc => by cases acc <;> exact ⟨_, rfl⟩
  unfold hostTransaction
  split
  · rename_i hw
    unfold alignedAccess
    split
    · rename_i r hr
      split
      · exact .inl ⟨_, rfl⟩
      · rename_i v hv
        refine .inr (.inl ⟨v, r, hw.1, hv, ?_, rfl⟩)
        unfold blockTarget at hr
        split at hr
        · split at hr
          · rename_i r' hf
            injection hr with hr
            subst hr
            unfold registerAt at hf
            have := List.find?_some hf
            simp only [decide_eq_true_eq] at this
            exact this.symm
          · cases hr
        · split at hr <;> cases hr
    · split <;> exact .inl ⟨_, rfl⟩
    · rename_i w h ht
      split
      · exact .inl (hbus _)
      · rename_i hb
        split
        · exact .inl ⟨_, rfl⟩
        · rename_i v hv
          unfold blockTarget at ht
          split at ht
          · split at ht <;> cases ht
          · split at ht
            · rename_i hwin
              injection ht with h1 h2
              refine .inr (.inr ⟨v, w, h, hw.1, hv, by simpa using hb, by omega, by omega, ?_, rfl⟩)
              have := hw.2
              unfold windowOffset
              unfold windowBase at *
              omega
            · cases ht
    · exact .inl (hbus _)
  · exact .inl (hbus _)

theorem registerAt_offset (r : RegName) : registerAt (registerOffset r) = some r := by cases r <;> decide

theorem blockTarget_register (words : Nat) (r : RegName) : blockTarget words (registerOffset r) = .register r := by
  have : registerOffset r < 0x1000 := by cases r <;> decide
  simp [blockTarget, this, registerAt_offset]

theorem registerOffset_aligned (r : RegName) : registerOffset r % 4 = 0 := by cases r <;> decide

/-- A whole read at a register's offset (10_state.md R32). -/
theorem hostTransaction_readRegister {a : Word} {s : State} (r : RegName) (h : a.toNat = registerOffset r) :
    hostTransaction { access := .read, offset := a, whole := true } s = respond (.read (readRegister s r) .okay) s := by
  simp [hostTransaction, h, registerOffset_aligned, alignedAccess, blockTarget_register]

/-- A whole write at a register's offset (10_state.md R32). -/
theorem hostTransaction_writeRegister {a v : Word} {s : State} (r : RegName) (h : a.toNat = registerOffset r) :
    hostTransaction { access := .write v, offset := a, whole := true } s =
      respond (.write .okay) (writeRegister v s r) := by
  simp [hostTransaction, h, registerOffset_aligned, alignedAccess, blockTarget_register]

/-- The map inside the DMEM window (20_memory.md R71, R73). -/
theorem blockTarget_window {words w h : Nat} (hw : w < words) (hh : h < 2) :
    blockTarget words (windowOffset w h) = .window w h := by
  have h1 : ¬ windowOffset w h < 0x1000 := by unfold windowOffset windowBase; omega
  have h2 : windowBase ≤ windowOffset w h ∧ windowOffset w h < windowBase + 8 * words := by unfold windowOffset; omega
  rw [blockTarget, if_neg h1, if_pos h2]
  congr 1 <;> unfold windowOffset <;> omega

/-- No register stands at a reserved offset (10_state.md R41). -/
theorem registerAt_reserved {a : Nat} (h : 0x04C ≤ a) : registerAt a = none := by
  unfold registerAt
  rw [List.find?_eq_none]
  intro r _
  have : registerOffset r ≤ 0x048 := by cases r <;> decide
  simp only [decide_eq_true_eq]
  omega

/-- A register write never touches DMEM, DMEM_WORDS, the reset line, the inbox, the response or the draws. -/
theorem writeRegister_frame (v : Word) (s : State) (r : RegName) :
    (writeRegister v s r).dmem = s.dmem ∧ (writeRegister v s r).dmemWords = s.dmemWords ∧
    (writeRegister v s r).resetLine = s.resetLine ∧ (writeRegister v s r).inbox = s.inbox ∧
    (writeRegister v s r).response = s.response ∧ (writeRegister v s r).draws = s.draws ∧
    (writeRegister v s r).scrNeed = s.scrNeed ∧ (writeRegister v s r).blM = s.blM := by
  cases r <;> simp only [writeRegister, writeCmd] <;> first | simp | (split <;> simp)

/-- While busy, a register write leaves the running command alone (70_reset_and_hazards.md R341, R342). -/
theorem writeRegister_busy {v : Word} {s : State} (r : RegName) (hb : s.busy = true) :
    (writeRegister v s r).busy = true ∧ (writeRegister v s r).op = s.op ∧ (writeRegister v s r).cmd = s.cmd ∧
    (writeRegister v s r).snapshot = s.snapshot ∧ (writeRegister v s r).result = s.result ∧
    (writeRegister v s r).fail = s.fail ∧ ((writeRegister v s r).done = true → s.done = true) := by
  cases r <;> simp [writeRegister, writeCmd, hb]
  intro h _
  exact h

/-- While idle, a register write other than a CMD write starts nothing (10_state.md R33). -/
theorem writeRegister_idle {v : Word} {s : State} {r : RegName} (hr : r ≠ .cmd) :
    (writeRegister v s r).busy = s.busy ∧ (writeRegister v s r).op = s.op ∧ (writeRegister v s r).cmd = s.cmd := by
  cases r <;> first | exact ⟨rfl, rfl, rfl⟩ | exact absurd rfl hr

/-- FAIL stays 1 exactly when RESULT is not OK (10_state.md R34). -/
theorem writeRegister_fail_iff {v : Word} {s : State} (r : RegName) (h : s.fail = decide (s.result ≠ .ok)) :
    (writeRegister v s r).fail = decide ((writeRegister v s r).result ≠ .ok) := by
  cases r <;> try exact h
  show (writeCmd v s).fail = decide ((writeCmd v s).result ≠ .ok)
  unfold writeCmd
  split
  · exact h
  · rfl

/-- A transaction keeps a busy machine busy with the same command (70_reset_and_hazards.md R340–R342). -/
theorem hostTransaction_busy {tr : Transaction} {s : State} (hb : s.busy = true) :
    (hostTransaction tr s).busy = true ∧ (hostTransaction tr s).op = s.op ∧
    (hostTransaction tr s).snapshot = s.snapshot ∧ (hostTransaction tr s).dmem = s.dmem ∧
    (hostTransaction tr s).inbox = s.inbox ∧ (hostTransaction tr s).resetLine = s.resetLine := by
  obtain ⟨r, h⟩ | ⟨v, r, -, -, -, h⟩ | ⟨v, w, g, -, -, hn, -⟩ := hostTransaction_cases tr s
  · simp [h, hb]
  · have h1 := writeRegister_frame v s r
    have h2 := writeRegister_busy (v := v) r hb
    simp [h, h1, h2]
  · simp [hb] at hn

/-- A bus error only answers (20_memory.md R74, 60_exceptions.md R305). -/
theorem busError_eq (acc : Access) (s : State) :
    busError acc s =
      { s with response := some (match acc with | .read => .read 0 .buserr | .write _ => .write .buserr) } := by
  cases acc <;> rfl

/-- The half of a word that its window offset reaches (20_memory.md R73). -/
theorem extract_readWord (m : Memory) (w : Nat) {h : Nat} (hh : h < 2) :
    (readWord m w).extractLsb' (32 * h) 32 = readHalf m w h := by
  unfold readWord
  have : h = 0 ∨ h = 1 := by omega
  obtain rfl | rfl := this
  · exact BitVec.extractLsb'_append_eq_right
  · exact BitVec.extractLsb'_append_eq_left

/-- A whole transaction inside the DMEM window (20_memory.md R73, R76). -/
theorem hostTransaction_window {acc : Access} {a : Word} {s : State} {w h : Nat} (ha : a.toNat = windowOffset w h)
    (hw : w < s.dmemWords) (hh : h < 2) :
    hostTransaction { access := acc, offset := a, whole := true } s =
      if s.busy then busError acc s
      else match acc with
        | .read => respond (.read (readHalf s.dmem w h) .okay) s
        | .write v => respond (.write .okay) { s with dmem := writeHalf s.dmem w h v } := by
  have hal : windowOffset w h % 4 = 0 := by unfold windowOffset windowBase; omega
  cases acc <;> simp only [hostTransaction, ha, hal, true_and, if_true, alignedAccess, blockTarget_window hw hh]

/-- What stands at an aligned offset, by the ranges of the map (20_memory.md R71). -/
theorem blockTarget_cases (words a : Nat) :
    (a < 0x1000 ∧ ((∃ r, blockTarget words a = .register r) ∨ blockTarget words a = .reserved)) ∨
    (0x80000000 ≤ a ∧ a < 0x80000000 + 8 * words ∧ ∃ w h, blockTarget words a = .window w h) ∨
    (((0x1000 ≤ a ∧ a < 0x80000000) ∨ 0x80000000 + 8 * words ≤ a) ∧ blockTarget words a = .unmapped) := by
  have h0 : windowBase = 0x80000000 := rfl
  by_cases h1 : a < 0x1000
  · refine .inl ⟨h1, ?_⟩
    rw [blockTarget, if_pos h1]
    cases registerAt a with
    | none => exact .inr rfl
    | some r => exact .inl ⟨r, rfl⟩
  · by_cases h2 : windowBase ≤ a ∧ a < windowBase + 8 * words
    · exact .inr (.inl ⟨by omega, by omega, _, _, by rw [blockTarget, if_neg h1, if_pos h2]⟩)
    · exact .inr (.inr ⟨by omega, by rw [blockTarget, if_neg h1, if_neg h2]⟩)

/-! ### Reset -/

theorem assertReset_registersReset (s : State) : RegistersReset (assertReset s) := by simp [RegistersReset]

/-- Every region a reset loses lies inside DMEM or is empty (70_reset_and_hazards.md R331). -/
theorem resetLoss_inside (s : State) : ∀ r ∈ resetLoss s, r.len = 0 ∨ r.base + r.len ≤ s.dmemWords := by
  intro r hr
  unfold resetLoss at hr
  split at hr
  · unfold lostRegions at hr
    split at hr
    · simp at hr
    · split at hr
      · simp at hr
      · obtain ⟨t, -, rfl⟩ := List.mem_map.1 hr
        simp only [Region.clip]
        omega
  · simp at hr

end Sys2Proof.Machine
end

