-- ==== Sys2Proof/Tests/Slice0.lean ====
section
/-! SUPPORT. The model's own tests: command words written out from 30_encoding.md R103, ill-formed terms that the checks
refuse, one step on small states with the results of 95_test_vectors.md that hold under every TRIG, and for every obligation
with hypotheses a witness that meets them. -/

namespace Sys2Proof.Tests

set_option Elab.async false

open Sys2Proof.Machine Sys2Proof.Safety

/-! ### Helpers -/

/-- Operand registers in the order of the register map. -/
def regs (n xr xi yr yi outR outI out2R out2I scrBase scrSize : Word) : Operands :=
  { n := n, xr := xr, xi := xi, yr := yr, yi := yi, outR := outR, outI := outI, out2R := out2R, out2I := out2I,
    scrBase := scrBase, scrSize := scrSize }

/-- DMEM with the given words stored from word 0 on. -/
def words (ws : List DWord) : Memory := storeSeq [] 0 0 (ws.map .word)

/-- Reset, with operand registers and DMEM filled. -/
def filled (l : Operands) (ws : List DWord) : State := { State.reset with operands := l, dmem := words ws }

/-- The running command of a word, its snapshot taken. -/
def running (w : Word) (l : Operands) (ws : List DWord) : State := startStep w (filled l ws)

/-- One step of the state that is about to run the command word w, seen through f. -/
def afterRun {α : Type} (w : Nat) (l : Operands) (ws : List DWord) (f : State → α) : Option α :=
  match step ((filled l ws).withFetchWord 8 w) with
  | .next t => some (f t)
  | .fault _ => none
  | .refused _ => none

/-- The words of DMEM from p on. -/
def view (p n : Nat) (s : State) : List DWord := (List.range n).map fun i => readWord s.dmem (p + i)

/-- STATUS, SCR_NEED and BL_M as read. -/
def report (s : State) : List Word := [readRegister s .status, readRegister s .scrNeed, readRegister s .blM]

/-- One host transaction on a state, seen through f beside the response. -/
def afterHost {α : Type} (a : Access) (off : Word) (s : State) (f : State → α) : Option (Option Response × α) :=
  match step { s with inbox := [.transaction { access := a, offset := off, whole := true }] } with
  | .next t => some (t.response, f t)
  | .fault _ => none
  | .refused _ => none

/-! ### Decoding: the words of 30_encoding.md R103, bit by bit (RSVD ++ OPCODE) -/

theorem test_word_nop : decode ((0 : BitVec 24) ++ 0b00000000#8) = .ok .nop := by decide
theorem test_word_fft : decode ((0 : BitVec 24) ++ 0b00000001#8) = .ok .fft := by decide
theorem test_word_ifft : decode ((0 : BitVec 24) ++ 0b00000010#8) = .ok .ifft := by decide
theorem test_word_fftr2 : decode ((0 : BitVec 24) ++ 0b00000011#8) = .ok .fftr2 := by decide
theorem test_word_fftbl : decode ((0 : BitVec 24) ++ 0b00000100#8) = .ok .fftbl := by decide
theorem test_word_convc : decode ((0 : BitVec 24) ++ 0b00000101#8) = .ok .convc := by decide
theorem test_word_convr : decode ((0 : BitVec 24) ++ 0b00000110#8) = .ok .convr := by decide
theorem test_word_fft2r : decode ((0 : BitVec 24) ++ 0b00000111#8) = .ok .fft2r := by decide
theorem test_word_absfft : decode ((0 : BitVec 24) ++ 0b00001000#8) = .ok .absfft := by decide
theorem test_word_absfft2 : decode ((0 : BitVec 24) ++ 0b00001001#8) = .ok .absfft2 := by decide
theorem test_word_bitrev : decode ((0 : BitVec 24) ++ 0b00010000#8) = .ok .bitrev := by decide
theorem test_word_cmul : decode ((0 : BitVec 24) ++ 0b00010001#8) = .ok .cmul := by decide
theorem test_word_scale : decode ((0 : BitVec 24) ++ 0b00010010#8) = .ok .scale := by decide
theorem test_word_twtab : decode ((0 : BitVec 24) ++ 0b00010011#8) = .ok .twtab := by decide
theorem test_word_chirptab : decode ((0 : BitVec 24) ++ 0b00010100#8) = .ok .chirptab := by decide

/-- V-E1 and V-E2: 0x15 is reserved; 0x101 has RSVD ≠ 0. -/
theorem test_words_rejected : decode 0x00000015 = .error .reservedOpcode ∧ decode 0x0000000A = .error .reservedOpcode ∧
    decode 0x00000101 = .error .reservedBits ∧ decode 0x80000001 = .error .reservedBits := by decide

theorem test_table_word : decodeTableWord 8 0x14 = some .chirptab ∧ decodeTableWord 8 0x15 = none := by decide

/-! ### Well-formedness: ill-formed terms are refused -/

theorem test_wellFormed_reserved_bits : commandWordWellFormed 0x00000101 = false := by decide
theorem test_wellFormed_reserved_opcode_low : commandWordWellFormed 0x0000000A = false := by decide
theorem test_wellFormed_reserved_opcode_high : commandWordWellFormed 0x00000015 = false := by decide
theorem test_wellFormed_every_command : (Instr.all.all fun i => i.wellFormed && commandWordWellFormed (encode i)) = true := by
  decide
theorem test_dmemWords_limits : dmemWordsLegal 0 = false ∧ dmemWordsLegal 1 = true ∧ dmemWordsLegal (2 ^ 28) = true ∧
    dmemWordsLegal (2 ^ 28 + 1) = false := by decide

/-! ### One step per command, expected values from 95_test_vectors.md (each holds under every TRIG) -/

/-- V-E15. -/
theorem test_nop : afterRun 0x00 (regs 0xFFFFFFFF 0xFFFFFFFF 0xFFFFFFFF 0 0 0 0 0 0 0 0) [] report =
    some [0x00000002, 0, 0] := by decide +kernel

/-- V-T1: n = 1 is the identity, −0 survives. -/
theorem test_fft_identity : afterRun 0x01 (regs 1 0 1 0 0 0 0 0 0 2 0) [0x400C000000000000, 0x8000000000000000] (view 0 2) =
    some [0x400C000000000000, 0x8000000000000000] := by decide +kernel

/-- V-T2: x = (1, 2) real. -/
theorem test_fft_two : afterRun 0x01 (regs 2 0 2 0 0 0 0 0 0 4 2) [0x3FF0000000000000, 0x4000000000000000, 0, 0]
    (fun t => (view 0 4 t, report t)) =
    some ([0x4008000000000000, 0xBFF0000000000000, 0, 0], [0x00000002, 2, 0]) := by decide +kernel

/-- IFFT swaps, transforms, swaps back (41_transform.md R191), at n = 2 by hand: (1 + 3j, 2 + 4j) gives (3 + 7j, −1 − j). -/
theorem test_ifft_two : afterRun 0x02 (regs 2 0 2 0 0 0 0 0 0 4 2)
    [0x3FF0000000000000, 0x4000000000000000, 0x4008000000000000, 0x4010000000000000] (view 0 4) =
    some [0x4008000000000000, 0xBFF0000000000000, 0x401C000000000000, 0xBFF0000000000000] := by decide +kernel

/-- V-T2z with FFTR2: all −0 in, signs by the rules out. -/
theorem test_fftr2_signed_zeros : afterRun 0x03 (regs 2 0 2 0 0 0 0 0 0 4 2)
    [0x8000000000000000, 0x8000000000000000, 0x8000000000000000, 0x8000000000000000] (view 0 4) =
    some [0x8000000000000000, 0, 0, 0x8000000000000000] := by decide +kernel

/-- V-E14: 0 is not a power of two. -/
theorem test_fftr2_zero : afterRun 0x03 (regs 0 0 0 0 0 0 0 0 0 0 0) [] report = some [0x00000206, 0, 0] := by decide +kernel

/-- V-E13: FFTBL at n = 0 succeeds. -/
theorem test_fftbl_zero : afterRun 0x04 (regs 0 0 0 0 0 0 0 0 0 0 0) [] report = some [0x00000002, 0, 0] := by decide +kernel

/-- Section 2: FFTBL at n = 4 needs 184 words and reports M = 16 (here with one word too few: ERR_NOMEM). -/
theorem test_fftbl_need : afterRun 0x04 (regs 4 0 4 0 0 0 0 0 0 8 183) [] report = some [0x00000606, 184, 16] := by decide +kernel

/-- V-V4: (2 + 3j)(4 + 5j) = −7 + 22j. -/
theorem test_convc_one : afterRun 0x05 (regs 1 0 1 2 3 4 5 0 0 6 4)
    [0x4000000000000000, 0x4008000000000000, 0x4010000000000000, 0x4014000000000000] (view 4 2) =
    some [0xC01C000000000000, 0x4036000000000000] := by decide +kernel

/-- V-V5: x = (1 + j, 2), y = (3, 4j). -/
theorem test_convc_two : afterRun 0x05 (regs 2 0 2 4 6 8 10 0 0 12 10)
    [0x3FF0000000000000, 0x4000000000000000, 0x3FF0000000000000, 0, 0x4008000000000000, 0, 0, 0x4010000000000000]
    (view 8 4) = some [0x4008000000000000, 0x4000000000000000, 0x4026000000000000, 0x4010000000000000] := by
  decide +kernel

/-- CONVR at n = 2 by hand: (1, 2) with (3, 4) is (1·3 + 2·4, 1·4 + 2·3) = (11, 10), exact as in V-V5. -/
theorem test_convr_two : afterRun 0x06 (regs 2 0 0 2 0 4 0 0 0 6 12)
    [0x3FF0000000000000, 0x4000000000000000, 0x4008000000000000, 0x4010000000000000] (view 4 2) =
    some [0x4026000000000000, 0x4024000000000000] := by decide +kernel

/-- V-E16: one scratch word too few. -/
theorem test_convr_nomem : afterRun 0x06 (regs 3 0 0 3 0 6 0 0 0 16 108) [] report = some [0x00000606, 109, 8] := by decide +kernel

/-- V-P2: s1 = (1, 2), s2 = (3, 4). -/
theorem test_fft2r_two : afterRun 0x07 (regs 2 0 0 2 0 4 6 8 10 12 6)
    [0x3FF0000000000000, 0x4000000000000000, 0x4008000000000000, 0x4010000000000000] (view 4 8) =
    some [0x4008000000000000, 0xBFF0000000000000, 0, 0, 0x401C000000000000, 0xBFF0000000000000, 0, 0] := by
  decide +kernel

/-- V-E4. -/
theorem test_fft2r_odd : afterRun 0x07 (regs 5 0 0 0 0 0 0 0 0 0 0) [] report = some [0x00000306, 0, 0] := by decide +kernel

/-- V-A1: MAG(−3, 0, 1) = 6. -/
theorem test_absfft_one : afterRun 0x08 (regs 1 0 0 0 0 1 0 0 0 2 2) [0xC008000000000000] (view 1 1) =
    some [0x4018000000000000] := by decide +kernel

/-- V-A5: r·r overflows to +∞. -/
theorem test_absfft_overflow : afterRun 0x08 (regs 1 0 0 0 0 1 0 0 0 2 2) [0x6012E2AD366AD36A] (view 1 1) =
    some [0x7FF0000000000000] := by decide +kernel

/-- V-A4: (3, 1) and (7, 1). -/
theorem test_absfft2_two : afterRun 0x09 (regs 2 0 0 2 0 4 0 6 0 8 6)
    [0x3FF0000000000000, 0x4000000000000000, 0x4008000000000000, 0x4010000000000000] (view 4 4) =
    some [0x4008000000000000, 0x3FF0000000000000, 0x401C000000000000, 0x3FF0000000000000] := by decide +kernel

/-- V-BR1: a signalling NaN moves unchanged (xi given; xr = (0, 1, 2, 3, 4, 5, 6, 7) as bit patterns). -/
theorem test_bitrev_eight : afterRun 0x10 (regs 8 0 8 0 0 0 0 0 0 0 0)
    [0, 1, 2, 3, 4, 5, 6, 7, 0x8000000000000000, 0x7FF0000000000001, 0, 0, 0, 0, 0, 0] (view 0 16) =
    some [0, 4, 2, 6, 1, 5, 3, 7, 0x8000000000000000, 0, 0, 0, 0x7FF0000000000001, 0, 0, 0] := by decide +kernel

/-- V-E8: need = 0, so the scratch declaration is not checked. -/
theorem test_bitrev_scratch_unchecked : afterRun 0x10 (regs 4 0 4 0 0 0 0 0 0 200 94) [] report =
    some [0x00000002, 0, 0] := by decide +kernel

/-- V-M1: (1 + 2j)(3 + 4j) = −5 + 10j. -/
theorem test_cmul_one : afterRun 0x11 (regs 1 0 1 2 3 4 5 0 0 0 0)
    [0x3FF0000000000000, 0x4000000000000000, 0x4008000000000000, 0x4010000000000000] (view 4 2) =
    some [0xC014000000000000, 0x4024000000000000] := by decide +kernel

/-- V-M2: ∞·0 makes the real part a NaN, the imaginary part is +∞, and the command succeeds. -/
theorem test_cmul_nan : afterRun 0x11 (regs 1 0 1 2 3 4 5 0 0 0 0) [0x7FF0000000000000, 0, 0, 0x3FF0000000000000]
    (fun t => (readWord t.dmem 5, report t, (performWrites .cmul semCmul t.snapshot t.dmem).map Prod.snd)) =
    some (0x7FF0000000000000, [0x00000002, 0, 0], [[.nan], [.word 0x7FF0000000000000]]) := by decide +kernel

/-- V-S2: 5/3 by division, not by a reciprocal. -/
theorem test_scale_divides : afterRun 0x12 (regs 3 0 3 0 0 0 0 0 0 0 0) [0x4014000000000000, 0, 0, 0, 0, 0] (view 0 6) =
    some [0x3FFAAAAAAAAAAAAB, 0, 0, 0, 0, 0] := by decide +kernel

/-- V-S3. -/
theorem test_scale_zero : afterRun 0x12 (regs 0 0 0 0 0 0 0 0 0 0 0) [] report = some [0x00000002, 0, 0] := by decide +kernel

/-- V-W1, entry 0, at n = 2: (1, +0) by TRIG0, over words that held other values. -/
theorem test_twtab_two : afterRun 0x13 (regs 2 0 0 0 0 0 1 0 0 0 0) [5, 6] (view 0 2) = some [0x3FF0000000000000, 0] := by
  decide +kernel

/-- V-W3: n = 6. -/
theorem test_twtab_not_pow2 : afterRun 0x13 (regs 6 0 0 0 0 0 0 0 0 0 0) [] report = some [0x00000206, 0, 0] := by decide +kernel

/-- CHIRPTAB entry 0 is (1, +0) by TRIG0 (41_transform.md R180, R206). -/
theorem test_chirptab_one : afterRun 0x14 (regs 1 0 0 0 0 0 1 0 0 0 0) [5, 6] (view 0 2) = some [0x3FF0000000000000, 0] := by
  decide +kernel

/-- V-C3: the reduction of i·i is exact. -/
theorem test_chirp_reduction : chirpAngle (2 ^ 20) (2 ^ 20 - 1) = chirpAngle (2 ^ 20) 1 := by decide +kernel

/-! ### Result codes: priority (95_test_vectors.md section 6) -/

/-- V-E1, V-E2, V-E3, V-E5. -/
theorem test_codes_early :
    (match step (running 0x00000015 .zero []) with | .next t => report t | _ => []) = [0x00000106, 0, 0] ∧
    (match step (running 0x00000101 (regs 4 0 0 0 0 0 0 0 0 0 0) []) with | .next t => report t | _ => []) =
      [0x00000106, 0, 0] ∧
    afterRun 0x03 (regs 6 1000 2000 0 0 0 0 0 0 0 0) [] report = some [0x00000206, 0, 0] ∧
    afterRun 0x01 (regs 0x08000001 0 0 0 0 0 0 0 0 0 0) [] report = some [0x00000406, 0xFFFFFFFF, 0x20000000] := by decide +kernel

/-- V-E6, V-E7, V-E9, V-E10, V-E11. -/
theorem test_codes_late :
    afterRun 0x01 (regs 3 254 0 0 0 0 0 0 0 0 0) [] report = some [0x00000506, 94, 8] ∧
    afterRun 0x01 (regs 3 0 3 0 0 0 0 0 0 200 94) [] report = some [0x00000506, 94, 8] ∧
    afterRun 0x01 (regs 3 0 3 0 0 0 0 0 0 8 93) [] report = some [0x00000606, 94, 8] ∧
    afterRun 0x01 (regs 3 0 2 0 0 0 0 0 0 8 94) [] report = some [0x00000706, 94, 8] ∧
    afterRun 0x01 (regs 3 0 3 0 0 0 0 0 0 5 94) [] report = some [0x00000706, 94, 8] := by decide +kernel

/-! ### The slave port (95_test_vectors.md V-X1 – V-X11) -/

theorem test_port_reads :
    afterHost .read 0x000 State.reset report = some (some (.read 0x46465445 .okay), [0, 0, 0]) ∧
    afterHost .read 0x008 State.reset report = some (some (.read 0x00000100 .okay), [0, 0, 0]) ∧
    afterHost .read 0x012 State.reset report = some (some (.read 0 .buserr), [0, 0, 0]) ∧
    afterHost .read 0x050 State.reset report = some (some (.read 0 .okay), [0, 0, 0]) ∧
    afterHost .read 0x1000 State.reset report = some (some (.read 0 .buserr), [0, 0, 0]) ∧
    afterHost .read 0x80000800 State.reset report = some (some (.read 0 .buserr), [0, 0, 0]) := by decide +kernel

/-- V-X7 is OKAY; word 0 is used for a value: the high half at the higher offset. -/
theorem test_port_window :
    afterHost .read 0x80000004 (filled .zero [0x3FF0000012345678]) report =
      some (some (.read 0x3FF00000 .okay), [0, 0, 0]) ∧
    afterHost .read 0x80000000 (filled .zero [0x3FF0000012345678]) report =
      some (some (.read 0x12345678 .okay), [0, 0, 0]) ∧
    afterHost (.write 0xCAFEF00D) 0x80000004 (filled .zero [0x3FF0000012345678]) (view 0 1) =
      some (some (.write .okay), [0xCAFEF00D12345678]) := by decide +kernel

/-- V-X5, V-X9, V-X10, V-X11. -/
theorem test_port_writes :
    afterHost (.write 0xFFFFFFFF) 0x050 State.reset report = some (some (.write .okay), [0, 0, 0]) ∧
    afterHost (.write 0) 0x000 State.reset (readRegister · .id) = some (some (.write .okay), 0x46465445) ∧
    afterHost (.write 0xFFFFFFFF) 0x014 State.reset (readRegister · .irqEn) = some (some (.write .okay), 1) ∧
    afterHost (.write 0xFFFFFFFF) 0x010
      { State.reset with done := true, ovr := true, fail := true, result := .errNomem } (readRegister · .status) =
      some (some (.write .okay), 0x00000604) := by decide +kernel

/-- A block at 0x4000_0000 on the interconnect: CMD, the first window half, and the addresses on both sides of the block
(20_memory.md R70). -/
theorem test_port_base : blockOffset 0x40000000 0x4000000C = some 0x00C ∧ blockOffset 0x40000000 0xC0000000 = some 0x80000000 ∧
    blockOffset 0x40000000 0x3FFFFFFC = none ∧ blockOffset 0x40000000 0x140000000 = none := by decide +kernel

/-! ### Witnesses: for every obligation with hypotheses, concrete states and operands that meet them -/

/-- A whole write of v at an offset. -/
def writeAt (off v : Word) : Event := .transaction { access := .write v, offset := off, whole := true }

/-- A whole read at an offset. -/
def readAt (off : Word) : Event := .transaction { access := .read, offset := off, whole := true }

/-- Idle after reset, with events to come. -/
def idle (es : List Event) : State := { State.reset with inbox := es }

/-- An FFT of n = 2 running, with events to come. -/
def busyFft (es : List Event) : State :=
  withInbox es (running 0x01 (regs 2 0 2 0 0 0 0 0 0 4 2) [0x3FF0000000000000, 0x4000000000000000, 0, 0])

theorem witness_DecodeIsExactlyEncode :
    (∀ i ∈ Instr.all, i.wellFormed = true) ∧
    ([0x00000100#32, 0x80000000, 0xFFFFFFFF].all fun w => decide (w.extractLsb' 8 24 ≠ 0)) = true ∧
    ([0x0A#32, 0x0F, 0x15, 0xFF].all fun w => decide (w.extractLsb' 8 24 = 0 ∧
      ((0x0A ≤ (w.extractLsb' 0 8).toNat ∧ (w.extractLsb' 0 8).toNat ≤ 0x0F) ∨ 0x15 ≤ (w.extractLsb' 0 8).toNat))) = true := by
  decide +kernel

theorem witness_ReservedWordStartsThenFailsWithErrCmd :
    ([0x00000100#32, 0x0A, 0x0F, 0x15, 0xFF].all fun w => decide (
      (w.extractLsb' 8 24 ≠ 0 ∨ (0x0A ≤ (w.extractLsb' 0 8).toNat ∧ (w.extractLsb' 0 8).toNat ≤ 0x0F) ∨
        0x15 ≤ (w.extractLsb' 0 8).toNat) ∧
      (idle [writeAt 0x00C w, .sequencerTurn]).busy = false ∧ (idle [writeAt 0x00C w, .sequencerTurn]).resetLine = false ∧
      (idle [writeAt 0x00C w, .sequencerTurn]).inbox = .transaction { access := .write w, offset := 0x00C, whole := true } ::
        .sequencerTurn :: [])) = true := by decide +kernel

/-- The same from a busy state: with the turn next, with nothing left, and with a transaction taken in between. -/
theorem witness_ReservedWordStartsThenFailsWithErrCmd_busy :
    ([0x00000100#32, 0x0A, 0x0F, 0x15, 0xFF].all fun w => decide (
      (running w .zero []).busy = true ∧ (running w .zero []).op = w ∧ (running w .zero []).inbox = [] ∧
      { running w .zero [] with inbox := [.sequencerTurn] }.inbox = .sequencerTurn :: [])) = true ∧
    (match step { running 0x0A .zero [] with inbox := [readAt 0x010] } with
      | .next t => decide (t.busy = true ∧ t.op = 0x0A ∧ t.inbox = [])
      | _ => false) = true := by decide +kernel

theorem witness_StepRunsDecodedCommand :
    (busyFft []).busy = true ∧ decode (busyFft []).op = .ok .fft ∧ (busyFft []).inbox = [] ∧
    (busyFft [.sequencerTurn]).busy = true ∧ (busyFft [.sequencerTurn]).inbox = .sequencerTurn :: [] ∧
    decode (tableWord 8 0x14) = .ok .chirptab := by decide +kernel

theorem witness_AcceptedCmdWriteIsTheStartStep :
    (idle [writeAt 0x00C 0x15]).busy = false ∧ (idle [writeAt 0x00C 0x15]).resetLine = false ∧
    (idle [writeAt 0x00C 0x15]).inbox = .transaction { access := .write 0x15, offset := 0x00C, whole := true } :: [] := by
  decide +kernel

theorem witness_BusyCmdWriteOnlySetsOvr :
    (busyFft [writeAt 0x00C 0]).busy = true ∧ (busyFft [writeAt 0x00C 0]).resetLine = false ∧
    (busyFft [writeAt 0x00C 0]).inbox = .transaction { access := .write 0, offset := 0x00C, whole := true } :: [] := by decide +kernel

theorem witness_StatusReadsItsFieldsAndClearsByOnes :
    (idle [readAt 0x010]).resetLine = false ∧
    (idle [readAt 0x010]).inbox = .transaction { access := .read, offset := 0x010, whole := true } :: [] ∧
    (idle [writeAt 0x010 0xA]).inbox = .transaction { access := .write 0xA, offset := 0x010, whole := true } :: [] := by decide +kernel

theorem witness_IrqEnableHoldsBitZero :
    (idle [writeAt 0x014 3]).resetLine = false ∧
    (idle [writeAt 0x014 3]).inbox = .transaction { access := .write 3, offset := 0x014, whole := true } :: [] ∧
    (idle [readAt 0x014]).inbox = .transaction { access := .read, offset := 0x014, whole := true } :: [] := by decide +kernel

theorem witness_RegisterReadsReturnTheirValues :
    (idle [readAt 0x000]).resetLine = false ∧
    ((0x000, 0x46465445) : Word × Word) ∈ [((0x000 : Word), (0x46465445 : Word)), (0x048, (idle [readAt 0x048]).blM)] ∧
    (idle [readAt 0x048]).inbox = .transaction { access := .read, offset := 0x048, whole := true } :: [] := by decide +kernel

theorem witness_RegisterWritesSetOnlyTheirRegister :
    (busyFft [writeAt 0x018 7]).resetLine = false ∧
    (busyFft [writeAt 0x018 7]).inbox = .transaction { access := .write 7, offset := 0x018, whole := true } :: [] ∧
    (busyFft [writeAt 0x048 7]).inbox = .transaction { access := .write 7, offset := 0x048, whole := true } :: [] := by decide +kernel

theorem witness_ReservedOffsetsReadZeroIgnoreWrites :
    ([0x04C#32, 0xFFC].all fun a => decide (a.toNat % 4 = 0 ∧ 0x04C ≤ a.toNat ∧ a.toNat ≤ 0xFFC ∧
      (idle [readAt a]).resetLine = false ∧
      (idle [readAt a]).inbox = .transaction { access := .read, offset := a, whole := true } :: [] ∧
      (idle [writeAt a 1]).inbox = .transaction { access := .write 1, offset := a, whole := true } :: [])) = true ∧
    ([0x1000#32, 0x7FFFFFFC].all fun a => decide (a.toNat % 4 = 0 ∧ 0x1000 ≤ a.toNat ∧ a.toNat ≤ 0x7FFFFFFC ∧
      (idle [readAt a]).inbox = .transaction { access := .read, offset := a, whole := true } :: [] ∧
      (idle [writeAt a 1]).inbox = .transaction { access := .write 1, offset := a, whole := true } :: [])) = true := by
  decide +kernel

/-- Each case of BUSERR at a boundary, and each kind of OKAY beside it. -/
theorem witness_BusErrorsAreExactlyTheListedCases :
    (idle []).resetLine = false ∧ (busyFft []).resetLine = false ∧
    BusErrorCase (idle []) { access := .read, offset := 0x000, whole := false } ∧
    BusErrorCase (idle []) { access := .read, offset := 0x002, whole := true } ∧
    BusErrorCase (idle []) { access := .read, offset := 0x1000, whole := true } ∧
    BusErrorCase (idle []) { access := .read, offset := 0x7FFFFFFC, whole := true } ∧
    BusErrorCase (idle []) { access := .read, offset := 0x80000800, whole := true } ∧
    BusErrorCase (busyFft []) { access := .read, offset := 0x80000000, whole := true } ∧
    ¬ BusErrorCase (idle []) { access := .read, offset := 0xFFC, whole := true } ∧
    ¬ BusErrorCase (idle []) { access := .read, offset := 0x80000000, whole := true } ∧
    ¬ BusErrorCase (idle []) { access := .read, offset := 0x800007FC, whole := true } := by
  unfold BusErrorCase
  refine ⟨rfl, rfl, ?_, ?_, ?_, ?_, ?_, ?_, ?_, ?_, ?_⟩ <;> decide +kernel

theorem witness_WindowAccessesOneHalf :
    (idle []).resetLine = false ∧ dmemWordsLegal (idle []).dmemWords = true ∧ 0 < (idle []).dmemWords ∧
    255 < (idle []).dmemWords ∧ (0x80000000#32).toNat = 0x80000000 + 8 * 0 + 4 * 0 ∧
    (0x800007FC#32).toNat = 0x80000000 + 8 * 255 + 4 * 1 ∧
    (idle [readAt 0x80000000]).inbox = .transaction { access := .read, offset := 0x80000000, whole := true } :: [] ∧
    (idle [writeAt 0x800007FC 1]).inbox = .transaction { access := .write 1, offset := 0x800007FC, whole := true } :: [] ∧
    (idle [writeAt 0x800007FC 1]).busy = false ∧ (busyFft [writeAt 0x800007FC 1]).busy = true ∧
    (busyFft [writeAt 0x800007FC 1]).inbox = .transaction { access := .write 1, offset := 0x800007FC, whole := true } :: [] := by
  decide +kernel

/-- A completion with DONE_IE = 1, and both ways in which irq rises. -/
theorem witness_IrqRisesOnCompletionOrEnableOnly :
    ({ busyFft [] with doneIe := true } : State).busy = true ∧ ({ busyFft [] with doneIe := true } : State).inbox = [] ∧
    irq { busyFft [] with doneIe := true } = false ∧
    (match step { busyFft [] with doneIe := true } with | .next t => irq t | _ => false) = true ∧
    irq { idle [writeAt 0x014 1] with done := true } = false ∧
    (match step { idle [writeAt 0x014 1] with done := true } with | .next t => irq t | _ => false) = true := by
  decide +kernel

theorem witness_OperandWriteCommutesWithCompletion :
    (busyFft []).busy = true ∧ (busyFft []).resetLine = false ∧ (0x018 : Word) ∈ [(0x018 : Word), 0x040] ∧
    (0x040 : Word) ∈ [(0x018 : Word), 0x040] := by decide +kernel

/-- A window write and a completion that each change a word. -/
theorem witness_DmemWordsChangeOnlyInThreeWays :
    (match step { filled .zero [0] with inbox := [writeAt 0x80000000 1] } with
      | .next t => readWord t.dmem 0 | _ => 0) ≠ readWord (filled .zero [0]).dmem 0 ∧
    (match step (busyFft []) with | .next t => readWord t.dmem 0 | _ => 0x3FF0000000000000) ≠
      readWord (busyFft []).dmem 0 := by decide +kernel

/-- A reset during a busy TWTAB (n = 2, DMEM_WORDS = 1) that changes a word of its output region: whatever the lost word
becomes, it differs from 0 or from 1. -/
theorem witness_DmemWordsChangeOnlyInThreeWays_reset :
    ∃ s t : State, step s = .next t ∧ readWord t.dmem 0 ≠ readWord s.dmem 0 ∧ s.inbox = [.resetAsserted] := by
  have loss : ∀ s : State, s.busy = true → s.op = 0x13 → s.snapshot = regs 2 0 0 0 0 0 300 0 0 0 0 → s.dmemWords = 1 →
      resetLoss s = [⟨0, 1⟩, ⟨300, 0⟩, ⟨0, 0⟩] := by
    intro s hb ho hl hw
    unfold resetLoss lostRegions
    rw [hb, ho, hl, hw]
    decide +kernel
  have val : ∀ v : DWord, readWord (words [v]) 0 = v := fun v => readWord_writeWord_self [] 0 v
  have key : ∀ s : State, s.inbox = [.resetAsserted] → s.draws = 0 → resetLoss (withInbox [] s) = [⟨0, 1⟩, ⟨300, 0⟩, ⟨0, 0⟩] →
      step s = .next (assertReset (withInbox [] s)) ∧ readWord (assertReset (withInbox [] s)).dmem 0 = Config.freeWord 0 := by
    intro s hi hd hl
    refine ⟨by simp [step, hi, eventStep], ?_⟩
    show readWord (havocAll s.dmem s.draws (resetLoss (withInbox [] s))) 0 = _
    rw [hl, hd]
    exact readWord_writeWord_self _ 0 _
  have go : ∀ v : DWord, Config.freeWord 0 ≠ v →
      ∃ s t : State, step s = .next t ∧ readWord t.dmem 0 ≠ readWord s.dmem 0 ∧ s.inbox = [.resetAsserted] := by
    intro v hv
    have h := key { State.reset with
      inbox := [.resetAsserted], dmem := words [v], busy := true, op := 0x13, snapshot := regs 2 0 0 0 0 0 300 0 0 0 0
      dmemWords := 1 } rfl rfl (loss _ rfl rfl rfl rfl)
    refine ⟨_, _, h.1, ?_, rfl⟩
    rw [h.2]
    show Config.freeWord 0 ≠ readWord (words [v]) 0
    rw [val]
    exact hv
  by_cases h : Config.freeWord 0 = 0
  · exact go 1 (by rw [h]; decide)
  · exact go 0 h

theorem witness_EveryStepKeepsTheInvariant : Inv State.reset ∧ step State.reset = .next State.reset :=
  ⟨⟨by decide +kernel, by decide +kernel, by decide +kernel, by decide +kernel, by decide +kernel, by decide +kernel, by decide +kernel, fun h => absurd h (by decide +kernel)⟩, rfl⟩

theorem witness_WarmResetKeepsDmemAsTheRuleSays :
    (idle [.resetAsserted]).inbox = .resetAsserted :: [] ∧ (idle []).busy = false ∧
    (busyFft [.resetAsserted]).inbox = .resetAsserted :: [] ∧ decode (busyFft []).op = .ok .fft ∧
    (∀ r ∈ outputRegions .fft (busyFft []).snapshot, r.contains (48 / 8) = false) ∧
    (scratchDeclared (busyFft []).snapshot).contains (48 / 8) = false ∧ (busyFft []).dmemWords ≤ 2048 / 8 ∧
    decode (running 0x00 .zero []).op = .ok .nop ∧ decode (running 0x0A .zero []).op = .error .reservedOpcode := by decide +kernel

theorem witness_TransactionsUnderResetAreRefused :
    ({ idle [readAt 0x000] with resetLine := true } : State).resetLine = true ∧
    ({ idle [readAt 0x000] with resetLine := true } : State).inbox =
      .transaction { access := .read, offset := 0x000, whole := true } :: [] := by decide +kernel

theorem witness_StartedCommandsComplete :
    (busyFft [readAt 0x010, .resetReleased]).busy = true ∧ (busyFft [readAt 0x010, .resetReleased]).resetLine = false ∧
    .resetAsserted ∉ (busyFft [readAt 0x010, .resetReleased]).inbox := by decide +kernel

/-- One snapshot for each of Exec's outcomes (V-E14, V-E13, V-E5, V-E6, V-E9, V-E10, and a success). -/
theorem witness_EarliestFailingStepDecidesResult :
    lengthPrecondition .fftr2 (regs 0 0 0 0 0 0 0 0 0 0 0).length = some .errNotPow2 ∧
    (lengthPrecondition .fftbl (regs 0 0 0 0 0 0 0 0 0 0 0).length = none ∧ ¬ HasWork .fftbl (regs 0 0 0 0 0 0 0 0 0 0 0)) ∧
    (HasWork .fft (regs 0x08000001 0 0 0 0 0 0 0 0 0 0) ∧ ¬ SizesFit .fft (regs 0x08000001 0 0 0 0 0 0 0 0 0 0)) ∧
    (SizesFit .fft (regs 3 254 0 0 0 0 0 0 0 0 0) ∧ ¬ RangesFit .fft (regs 3 254 0 0 0 0 0 0 0 0 0) 256) ∧
    (RangesFit .fft (regs 3 0 3 0 0 0 0 0 0 8 93) 256 ∧ ¬ ScratchSuffices .fft (regs 3 0 3 0 0 0 0 0 0 8 93)) ∧
    (RangesFit .fft (regs 3 0 2 0 0 0 0 0 0 8 94) 256 ∧ ScratchSuffices .fft (regs 3 0 2 0 0 0 0 0 0 8 94) ∧
      ¬ RegionsDisjoint .fft (regs 3 0 2 0 0 0 0 0 0 8 94)) ∧
    (SizesFit .fft (regs 3 0 3 0 0 0 0 0 0 6 94) ∧ RangesFit .fft (regs 3 0 3 0 0 0 0 0 0 6 94) 256 ∧
      ScratchSuffices .fft (regs 3 0 3 0 0 0 0 0 0 6 94) ∧ RegionsDisjoint .fft (regs 3 0 3 0 0 0 0 0 0 6 94)) := by
  decide +kernel

/-- Scratch needs that the spec states in numbers (40_command_execution.md R151, 95_test_vectors.md V-T3, V-T8, V-B1, V-V1, V-V2,
V-P1, V-P4, V-A3), and CONVC at n = 1 by R151 (log 26). -/
theorem witness_EarliestFailingStepDecidesResult_needs :
    [scratchNeed .fft 3, scratchNeed .fft 8, scratchNeed .fftbl 1, scratchNeed .convc 4, scratchNeed .convr 3,
      scratchNeed .fft2r 4, scratchNeed .fft2r 6, scratchNeed .absfft 3, scratchNeed .convc 1] =
      [94, 8, 46, 20, 109, 12, 200, 100, 4] ∧ (1 ≤ 1 ∧ isPow2 1 = true ∧ isPow2 3 = false) := by decide +kernel

theorem witness_NotPowerOfTwoFails :
    Instr.twtab ∈ [Instr.fftr2, .bitrev, .twtab] ∧ (∀ k, (0 : Nat) ≠ 2 ^ k) ∧ ∀ k, (6 : Nat) ≠ 2 ^ k := by
  refine ⟨by decide +kernel, fun k => (Nat.two_pow_pos k).ne, fun k h => ?_⟩
  have := isPow2_two_pow k
  rw [← h] at this
  revert this
  decide +kernel

theorem witness_OddLengthFailsInPacking :
    Instr.absfft2 ∈ [Instr.fft2r, .absfft2] ∧ (regs 5 0 0 0 0 0 0 0 0 0 0).n.toNat % 2 = 1 ∧
    (regs 0xFFFFFFFF 0 0 0 0 0 0 0 0 0 0).n.toNat % 2 = 1 ∧ (regs 0 0 0 0 0 0 0 0 0 0 0).n = 0 := by decide +kernel

theorem witness_ZeroLengthSucceedsWithNoWrite :
    Instr.fftbl ∉ [Instr.fftr2, .bitrev, .twtab] ∧ (regs 0 1 2 3 4 5 6 7 8 9 10).n = 0 := by decide +kernel

theorem witness_OverflowThresholds :
    (isPow2 (2 ^ 27 - 1) = false ∧ ¬ 2 ^ 27 ≤ 2 ^ 27 - 1) ∧ (isPow2 (2 ^ 27 + 1) = false ∧ 2 ^ 27 ≤ 2 ^ 27 + 1) ∧
    (isPow2 (2 ^ 29) = true ∧ ¬ 2 ^ 30 ≤ 2 ^ 29) ∧ (isPow2 (2 ^ 30) = true ∧ 2 ^ 30 ≤ 2 ^ 30) ∧ isPow2 (2 ^ 31) = true ∧
    (isPow2 (2 ^ 27 - 2) = false ∧ (2 ^ 27 - 2) % 2 = 0) ∧ (isPow2 (2 ^ 27 + 2) = false ∧ (2 ^ 27 + 2) % 2 = 0) ∧
    (match exec .absfft (running 0x08 (regs 0x80000000 0 0 0 0 0 0 0 0 0 0) []) with
      | .next t => t.result
      | _ => .ok) = .errOverflow := by
  decide +kernel

theorem witness_FailedCommandLeavesDmem :
    (running 0x0A .zero [5]).busy = true ∧ (running 0x0A .zero [5]).inbox = [] ∧
    (match step (running 0x0A .zero [5]) with | .next t => t.result | _ => .ok) ≠ .ok ∧
    (match step { running 0x0A .zero [5] with inbox := [.sequencerTurn] } with | .next t => t.result | _ => .ok) ≠ .ok := by
  decide +kernel

theorem witness_SuccessfulCommandFrame :
    (match exec .scale (running 0x12 (regs 1 0 1 0 0 0 0 0 0 0 0) [0, 0]) with | .next t => t.result | _ => .errCmd) = .ok ∧
    ¬ Touched .scale (regs 1 0 1 0 0 0 0 0 0 0 0) (16 / 8) ∧ Touched .scale (regs 1 0 1 0 0 0 0 0 0 0 0) (15 / 8) ∧
    (match exec .nop (running 0x00 .zero []) with | .next t => t.result | _ => .errCmd) = .ok ∧
    ¬ HasWork .nop .zero := by
  simp only [Touched]
  decide +kernel

theorem witness_UnnamedOperandsDoNotMatter :
    (regs 4 0 4 9 9 9 9 9 9 20 30).n = (regs 4 0 4 0 0 0 0 0 0 20 30).n ∧
    (regs 4 0 4 9 9 9 9 9 9 20 30).scrBase = (regs 4 0 4 0 0 0 0 0 0 20 30).scrBase ∧
    (regs 4 0 4 9 9 9 9 9 9 20 30).scrSize = (regs 4 0 4 0 0 0 0 0 0 20 30).scrSize ∧
    namedOperands .fft (regs 4 0 4 9 9 9 9 9 9 20 30) = namedOperands .fft (regs 4 0 4 0 0 0 0 0 0 20 30) := by decide +kernel

/-- BITREV with another declared scratch, and NOP with another N. -/
theorem witness_UnnamedOperandsDoNotMatter_unread :
    (HasWork .bitrev (regs 4 0 4 0 0 0 0 0 0 200 94) ∧
      namedOperands .bitrev (regs 4 0 4 9 9 9 9 9 9 1 2) = namedOperands .bitrev (regs 4 0 4 0 0 0 0 0 0 200 94) ∧
      (regs 4 0 4 9 9 9 9 9 9 1 2).scrSize ≠ (regs 4 0 4 0 0 0 0 0 0 200 94).scrSize) ∧
    (regs 1 0 0 0 0 0 0 0 0 0 0).n ≠ (regs 2 0 0 0 0 0 0 0 0 0 0).n ∧
    (HasWork .fft (regs 4 0 4 0 0 0 0 0 0 20 30) ∧ 0 < scratchNeed .fft (regs 4 0 4 0 0 0 0 0 0 20 30).length) := by
  decide +kernel

/-- Two states with the same snapshot and inputs that differ elsewhere in DMEM, in the draws and in OVR; the command
succeeds. -/
theorem witness_ResultsDependOnlyOnOperandsAndInputs :
    ∃ s s' : State, s ≠ s' ∧ s.snapshot = s'.snapshot ∧ s.dmemWords = s'.dmemWords ∧
      (∀ r ∈ inputRegions .scale s.snapshot, ∀ w, r.contains w = true → readWord s.dmem w = readWord s'.dmem w) ∧
      (∃ t, exec .scale s = .next t ∧ t.result = .ok) ∧ HasWork .scale s.snapshot ∧
      ∃ r ∈ outputRegions .scale s.snapshot, r.contains 1 = true := by
  refine ⟨running 0x12 (regs 1 0 1 0 0 0 0 0 0 0 0) [0, 0x3FE0000000000000], { running 0x12 (regs 1 0 1 0 0 0 0 0 0 0 0) [0, 0x3FE0000000000000, 7] with
    draws := 9, ovr := true }, by decide +kernel, rfl, rfl, ?_, ⟨_, rfl, by decide +kernel⟩, by decide +kernel,
    by decide +kernel⟩
  intro r hr w hw
  have hw := contains_iff.1 hw
  have hlt : w < 2 := by
    rcases List.mem_cons.1 hr with rfl | hr
    · exact lt_of_lt_of_le hw.2 (by decide)
    · rcases List.mem_cons.1 hr with rfl | hr
      · exact lt_of_lt_of_le hw.2 (by decide)
      · simp at hr
  have : w = 0 ∨ w = 1 := by omega
  rcases this with rfl | rfl <;> decide +kernel

/-- The six checks of a ready command at once. -/
theorem commandReady_of {c : Instr} {l : Operands} {n : Nat} (h1 : lengthPrecondition c l.length = none)
    (h : HasWork c l ∧ SizesFit c l ∧ RangesFit c l n ∧ ScratchSuffices c l ∧ RegionsDisjoint c l) : CommandReady c l n :=
  ⟨h1, h.1, h.2.1, h.2.2.1, h.2.2.2.1, h.2.2.2.2⟩

theorem witness_FftHoldsTheTransform : CommandReady .fft (regs 3 0 3 0 0 0 0 0 0 6 94) 256 :=
  commandReady_of (by decide +kernel) (by decide +kernel)
theorem witness_IfftHoldsTheSwappedTransform : CommandReady .ifft (regs 4 0 4 0 0 0 0 0 0 8 4) 256 :=
  commandReady_of (by decide +kernel) (by decide +kernel)
theorem witness_Fftr2HoldsTheRadix2Transform : CommandReady .fftr2 (regs 1 0 1 0 0 0 0 0 0 300 0) 256 :=
  commandReady_of (by decide +kernel) (by decide +kernel)
theorem witness_FftblHoldsTheBluesteinTransform : CommandReady .fftbl (regs 4 0 4 0 0 0 0 0 0 8 184) 256 :=
  commandReady_of (by decide +kernel) (by decide +kernel)
theorem witness_FftblHoldsTheBluesteinTransform_dispatch : 3 ≠ 0 ∧ isPow2 3 = false := by decide +kernel
theorem witness_BitrevMovesWordsUnchanged : CommandReady .bitrev (regs 8 0 8 0 0 0 0 0 0 0 0) 16 :=
  commandReady_of (by decide +kernel) (by decide +kernel)
theorem witness_TwtabHoldsTheTwiddleTable : CommandReady .twtab (regs 8 0 0 0 0 0 4 0 0 0 0) 8 :=
  commandReady_of (by decide +kernel) (by decide +kernel)
theorem witness_ChirptabHoldsTheChirpTable : CommandReady .chirptab (regs 3 0 0 0 0 0 3 0 0 0 0) 6 :=
  commandReady_of (by decide +kernel) (by decide +kernel)
theorem witness_ConvcHoldsTheConvolution : CommandReady .convc (regs 4 0 4 0 4 8 12 0 0 16 20) 256 :=
  commandReady_of (by decide +kernel) (by decide +kernel)
theorem witness_ConvrHoldsTheRealConvolution : CommandReady .convr (regs 3 0 0 3 0 6 0 0 0 16 109) 256 :=
  commandReady_of (by decide +kernel) (by decide +kernel)
theorem witness_CmulHoldsThePointwiseProducts : CommandReady .cmul (regs 2 0 2 4 6 0 2 0 0 0 0) 8 :=
  commandReady_of (by decide +kernel) (by decide +kernel)
theorem witness_ScaleHoldsTheQuotients : CommandReady .scale (regs 3 0 3 0 0 0 0 0 0 0 0) 6 :=
  commandReady_of (by decide +kernel) (by decide +kernel)
theorem witness_Fft2rHoldsBothSpectra : CommandReady .fft2r (regs 6 0 0 6 0 12 18 24 30 36 200) 256 :=
  commandReady_of (by decide +kernel) (by decide +kernel)
theorem witness_AbsfftHoldsTheMagnitudes : CommandReady .absfft (regs 3 0 0 0 0 3 0 0 0 5 100) 256 :=
  commandReady_of (by decide +kernel) (by decide +kernel)
theorem witness_Absfft2HoldsBothMagnitudes : CommandReady .absfft2 (regs 2 0 0 2 0 4 0 6 0 8 6) 256 :=
  commandReady_of (by decide +kernel) (by decide +kernel)

/-- The half-way ratio 3/2 rounds to 2 (an even encoding), with a neighbour on each side; a ratio beyond the range does not
meet the third clause's premise, and meets the second clause. -/
theorem witness_RatiosRoundToNearestEven :
    (0 < 2 ∧ valueOf (BitVec.ofNat 64 (roundRatio 3 2)) = .fin false 2 ∧ valueOf 1 = .fin false 1 ∧ 1 < 2 ∧
      valueOf 3 = .fin false 3 ∧ 2 < 3) ∧ roundRatio (2 ^ 2100) 1 = infBits := by decide +kernel

/-- Operands of each operation: 1.0 + 0.5, 1.0 − 0.5, 1.0 · 0.5 and 1.0 / 0.5, whose exact results are neither zero. -/
theorem witness_RatiosRoundToNearestEven_operations :
    (FNum.word oneBits).value = .fin false (2 ^ 1074) ∧ half.value = .fin false (2 ^ 1073) ∧
    signedUnits false (2 ^ 1074) + signedUnits false (2 ^ 1073) ≠ 0 ∧
    signedUnits false (2 ^ 1074) - signedUnits false (2 ^ 1073) ≠ 0 ∧ 2 ^ 1073 ≠ 0 := by decide +kernel

/-- √1 = 1.0 and √2, with the next encodings above and below 1.0. -/
theorem witness_SquareRootsRoundToNearest :
    (0 < 2 ^ 1074 ∧ 2 ^ 1074 < 2 ^ 2098) ∧ roundSqrt (2 ^ 1074 * 2 ^ 1074) = 0x3FF0000000000000 ∧
    roundSqrt (2 ^ 1075 * 2 ^ 1074) = 0x3FF6A09E667F3BCD ∧
    valueOf 0x3FF0000000000001 = .fin false (2 ^ 1074 + 2 ^ 1022) ∧
    valueOf 0x3FEFFFFFFFFFFFFF = .fin false (2 ^ 1074 - 2 ^ 1021) := by decide +kernel

theorem witness_SquareRootsRoundToNearest_operation :
    (FNum.word oneBits).value = .fin false (2 ^ 1074) ∧ 0 < 2 ^ 1074 := by decide +kernel

/-- A value of each kind: a NaN loaded and an open one, both infinities, both zeros, and −1.0; and encodings at the ends of each
exponent range. -/
theorem witness_SpecialValuesFollowTheStandard :
    (2047 < 2 ^ 11 ∧ 2 ^ 52 - 1 < 2 ^ 52) ∧ FNum.nan.value = .nan ∧ (FNum.word 0x7FF0000000000001).value = .nan ∧
    (FNum.word 0x7FF0000000000000).value = .inf false ∧ (FNum.word 0xFFF0000000000000).value = .inf true ∧
    pzero.value = .fin false 0 ∧ (FNum.word 0x8000000000000000).value = .fin true 0 ∧
    (FNum.word 0xBFF0000000000000).value = .fin true (2 ^ 1074) ∧ 2 ^ 1074 ≠ 0 ∧
    signedUnits false 0 + signedUnits true 0 = 0 ∧ signedUnits false (2 ^ 1074) - signedUnits false (2 ^ 1074) = 0 := by
  decide +kernel

theorem witness_NaturalConversionIsExact : 0 < 2 ^ 53 ∧ 2 ^ 53 - 1 < 2 ^ 53 ∧ f64 (2 ^ 53 - 1) = .word 0x433FFFFFFFFFFFFF := by
  decide +kernel

theorem witness_FirstTableEntriesAreOne : (1 ≤ 1 ∧ 1 < 2 ^ 32) ∧ 1 ≤ 2 ^ 32 - 1 ∧ 2 ^ 32 - 1 < 2 ^ 32 := by decide +kernel

theorem witness_BitReverseReversesBits : 6 < 2 ^ 3 ∧ 0 < 3 ∧ 2 < 3 ∧ bitReverse 6 3 = 3 ∧ 0 < 2 ^ 0 := by decide +kernel

theorem witness_BitReversalTwiceIsIdentity :
    isPow2 2 = true ∧ [pzero, half].length = 2 ∧ [two, pzero].length = 2 := by decide +kernel

theorem witness_StageIsItsButterflies :
    0 < 1 ∧ 0 < 2 ^ 1 / 2 ^ (0 + 1) ∧ 0 < 2 ^ 0 ∧ [pzero, half].length = 2 ^ 1 ∧ [two, pzero].length = 2 ^ 1 := by decide +kernel

theorem witness_BluesteinLengthIsLeastPowerOfTwo :
    2 * 3 + 1 ≤ 2 ^ 3 ∧ 2 ^ 27 - 1 < 2 ^ 27 ∧ 1 ≤ 1 ∧ 1 < 2 := by decide +kernel

theorem witness_BluesteinUsesTheConvolutionEngine : 1 ≤ 1 := by decide +kernel

/-- At n = 4 the interior bin of a Signal with equal imaginary parts is +0.0, so its mirror is −0.0 (V-P3). -/
theorem witness_UnpackingIsConjugateSymmetric :
    4 % 2 = 0 ∧ 2 ≤ 4 ∧ 1 ≤ 1 ∧ 1 < 4 / 2 ∧
    ((unpack1 4 { re := [half, half, half, half], im := [pzero, pzero, pzero, pzero] }).sample 1).im = pzero ∧
    ((unpack2 4 { re := [half, half, half, half], im := [pzero, pzero, pzero, pzero] }).sample 1).im = pzero := by
  decide +kernel

end Sys2Proof.Tests
end

section
/-! SUPPORT. The rounding of a ratio and of a square root, seen from the neighbouring magnitudes (00_scope.md R11, R17). -/

namespace Sys2Proof.Machine

open Sys2Proof.Safety

/-- M is one of the two whole multiples of D around num, m·D and (m + 1)·D, not beyond num's side of their midpoint, and the
even one where num is that midpoint. -/
def RoundsSignificand (num D m M : Nat) : Prop :=
  m * D ≤ num ∧ num < (m + 1) * D ∧
  (M = m ∧ 2 * num ≤ (2 * m + 1) * D ∨ M = m + 1 ∧ (2 * m + 1) * D ≤ 2 * num) ∧
  (2 * num = (2 * m + 1) * D → M % 2 = 0)

theorem roundsSignificand_nearestEven {num D m r : Nat} (hn : num = m * D + r) (hr : r < D) :
    RoundsSignificand num D m (nearestEven m (compare (2 * r) D)) := by
  subst hn
  have e1 : (m + 1) * D = m * D + D := by ring
  have e2 : (2 * m + 1) * D = 2 * (m * D) + D := by ring
  unfold RoundsSignificand
  rw [e1, e2]
  obtain ⟨h, hM⟩ | ⟨h, hM⟩ | ⟨h, hM⟩ := nearestEven_cases m r D <;> rw [hM] <;> omega

/-- roundRatio packs a rounded 53-bit significand (00_scope.md R11). -/
theorem roundRatio_significand (num : Nat) {den : Nat} (hd : 0 < den) :
    ∃ k m M, m < 2 ^ 53 ∧ (k = 0 ∨ 2 ^ 52 ≤ m) ∧ RoundsSignificand num (den * 2 ^ k) m M ∧
      roundRatio num den = min (k * 2 ^ 52 + M) infBits := by
  obtain ⟨k, m, r, hn, hr, hm, hk, he⟩ := roundRatio_spec (num := num) hd
  exact ⟨k, m, _, hm, hk, roundsSignificand_nearestEven hn hr, he⟩

section
variable {num den k m M : Nat} (hd : 0 < den) (h : RoundsSignificand num (den * 2 ^ k) m M)
include h

theorem RoundsSignificand.eq_self_or_succ : M = m ∨ M = m + 1 := by
  obtain ⟨-, -, hM | hM, -⟩ := h
  · exact .inl hM.1
  · exact .inr hM.1

include hd

/-- No larger magnitude is nearer, and one as near leaves M even. -/
theorem RoundsSignificand.no_nearer_above (hk : k = 0 ∨ 2 ^ 52 ≤ m) {b : Nat} (hu : M * 2 ^ k < magnitudeUnits b) :
    2 * num ≤ den * (magnitudeUnits b + M * 2 ^ k) ∧ (2 * num = den * (magnitudeUnits b + M * 2 ^ k) → M % 2 = 0) := by
  obtain ⟨-, hhi, ⟨rfl, hmid⟩ | ⟨rfl, -⟩, htie⟩ := h
  · have hub : (2 * M + 1) * (den * 2 ^ k) ≤ den * (magnitudeUnits b + M * 2 ^ k) := by
      calc (2 * M + 1) * (den * 2 ^ k) = den * ((M + 1) * 2 ^ k + M * 2 ^ k) := by ring
        _ ≤ _ := Nat.mul_le_mul_left _ (Nat.add_le_add_right (magnitudeUnits_above hk hu) _)
    exact ⟨hmid.trans hub, fun he => htie (by omega)⟩
  · have hlt : 2 * ((m + 1) * (den * 2 ^ k)) < den * (magnitudeUnits b + (m + 1) * 2 ^ k) := by
      calc 2 * ((m + 1) * (den * 2 ^ k)) = den * ((m + 1) * 2 ^ k + (m + 1) * 2 ^ k) := by ring
        _ < _ := Nat.mul_lt_mul_of_pos_left (Nat.add_lt_add_right hu _) hd
    omega

/-- No smaller magnitude is nearer, and one as near leaves M even. -/
theorem RoundsSignificand.no_nearer_below (hk : k = 0 ∨ 2 ^ 52 ≤ m) {b : Nat} (hu : magnitudeUnits b < M * 2 ^ k) :
    den * (magnitudeUnits b + M * 2 ^ k) ≤ 2 * num ∧ (den * (magnitudeUnits b + M * 2 ^ k) = 2 * num → M % 2 = 0) := by
  obtain ⟨hlo, -, ⟨rfl, -⟩ | ⟨rfl, hmid⟩, htie⟩ := h
  · have hlt : den * (magnitudeUnits b + M * 2 ^ k) < 2 * (M * (den * 2 ^ k)) := by
      calc _ < den * (M * 2 ^ k + M * 2 ^ k) := Nat.mul_lt_mul_of_pos_left (Nat.add_lt_add_right hu _) hd
        _ = 2 * (M * (den * 2 ^ k)) := by ring
    omega
  · have hub : den * (magnitudeUnits b + (m + 1) * 2 ^ k) ≤ (2 * m + 1) * (den * 2 ^ k) := by
      have hbelow := magnitudeUnits_below (hk.imp_right Nat.lt_succ_of_le) hu
      calc _ ≤ den * (m * 2 ^ k + (m + 1) * 2 ^ k) := Nat.mul_le_mul_left _ (by rw [Nat.succ_mul] at hbelow; omega)
        _ = _ := by ring
    exact ⟨hub.trans hmid, fun he => htie (by omega)⟩

/-- With j + 1 the last exponent step: the packed significand goes beyond it exactly from half an ulp above the largest
significand at that step on. -/
theorem RoundsSignificand.overflow_iff (hm : m < 2 ^ 53) (hk : k = 0 ∨ 2 ^ 52 ≤ m) (j : Nat) :
    (j + 3) * 2 ^ 52 ≤ k * 2 ^ 52 + M ↔ den * ((2 ^ 54 - 1) * 2 ^ j) ≤ num := by
  have hM := h.eq_self_or_succ
  obtain ⟨hlo, hhi, hmid, htie⟩ := h
  have hP : 0 < den * 2 ^ j := by positivity
  have hX : den * ((2 ^ 54 - 1) * 2 ^ j) = (2 ^ 54 - 1) * (den * 2 ^ j) := by ring
  rw [hX]
  rcases Nat.lt_trichotomy k (j + 1) with hk' | rfl | hk'
  · have hlt : num < 2 ^ 53 * (den * 2 ^ j) := hhi.trans_le (by gcongr <;> omega)
    exact iff_of_false (by omega) (by omega)
  · have hD : den * 2 ^ (j + 1) = 2 * (den * 2 ^ j) := by ring
    rw [hD] at hlo hhi hmid htie
    generalize den * 2 ^ j = P at *
    obtain rfl | hm' : m = 2 ^ 53 - 1 ∨ m + 1 ≤ 2 ^ 53 - 1 := by omega
    · omega
    · have hlt : num < (2 ^ 53 - 1) * (2 * P) := hhi.trans_le (Nat.mul_le_mul_right _ hm')
      exact iff_of_false (by omega) (by omega)
  · have hge : 2 ^ 54 * (den * 2 ^ j) ≤ num := by
      calc 2 ^ 54 * (den * 2 ^ j) = 2 ^ 52 * (den * 2 ^ (j + 2)) := by ring
        _ ≤ m * (den * 2 ^ k) := by gcongr <;> omega
        _ ≤ num := hlo
    exact iff_of_true (by omega) (by omega)

end

/-- Magnitude bits below those of +∞, as an encoding with the sign bit clear (00_scope.md R10). -/
theorem valueOf_magnitude {bits : Nat} (h : bits < infBits) :
    valueOf (BitVec.ofNat 64 bits) = .fin false (magnitudeUnits bits) :=
  valueOf_finite false h

/-- The rounding of a ratio is IEEE 754's (00_scope.md R11, R17). -/
theorem roundsTo_roundRatio (num : Nat) {den : Nat} (hd : 0 < den) : RoundsTo num den (roundRatio num den) := by
  obtain ⟨k, m, M, hm, hk, h, he⟩ := roundRatio_significand num hd
  have hinf : infBits = (2044 + 3) * 2 ^ 52 := rfl
  have hover := h.overflow_iff hd hm hk 2044
  rw [← hinf] at hover
  refine ⟨roundRatio_le _ _, by rw [he, ← hover]; omega, ?_⟩
  intro v hv w u hu
  have hM := h.eq_self_or_succ
  by_cases hfin : k * 2 ^ 52 + M < infBits
  · rw [he, min_eq_left hfin.le] at hv ⊢
    rw [valueOf_magnitude hfin, magnitudeUnits_pack (by omega) (by omega)] at hv
    obtain rfl : M * 2 ^ k = v := by injection hv
    obtain ⟨b, -, rfl⟩ := units_of_valueOf hu
    have heven : (k * 2 ^ 52 + M) % 2 = M % 2 := by omega
    rw [heven]
    exact ⟨h.no_nearer_above hd hk, h.no_nearer_below hd hk⟩
  · rw [he, min_eq_right (by omega)] at hv
    cases (valueOf_inf false).symm.trans hv

theorem log2_mul_two_pow_lt {a p q : Nat} (h0 : 0 < a) (h : a < 2 ^ p) : (a * 2 ^ q).log2 < p + q := by
  rw [Nat.log2_lt (by positivity), pow_add]
  exact Nat.mul_lt_mul_of_pos_right h (by positivity)

theorem two_pow_le_mul_two_pow {a p q : Nat} (h0 : 0 < a) (h : p ≤ q) : 2 ^ p ≤ a * 2 ^ q :=
  (Nat.pow_le_pow_right (by decide) h).trans (Nat.le_mul_of_pos_left _ h0)

theorem sq_mul_two_pow (c k : Nat) : (c * 2 ^ k) ^ 2 = c * c * 4 ^ k := by
  rw [mul_pow, sq c, pow_right_comm]
  norm_num

section
variable {s k m M : Nat}
  (hmid : (M = m ∧ 4 * s ≤ (2 * m + 1) * (2 * m + 1) * 4 ^ k) ∨
    (M = m + 1 ∧ (2 * m + 1) * (2 * m + 1) * 4 ^ k ≤ 4 * s))
include hmid

/-- √s lies below its midpoint with every magnitude above the rounded root. -/
theorem root_below_midpoint (hhi : s < (m + 1) * (m + 1) * 4 ^ k) (hk : k = 0 ∨ 2 ^ 52 ≤ m) {b : Nat}
    (hu : M * 2 ^ k < magnitudeUnits b) : 4 * s ≤ (magnitudeUnits b + M * 2 ^ k) ^ 2 := by
  obtain ⟨rfl, hmid⟩ | ⟨rfl, -⟩ := hmid
  · have hle : (2 * M + 1) * 2 ^ k ≤ magnitudeUnits b + M * 2 ^ k := by
      have := magnitudeUnits_above hk hu
      linarith
    calc 4 * s ≤ _ := hmid
      _ = ((2 * M + 1) * 2 ^ k) ^ 2 := (sq_mul_two_pow _ _).symm
      _ ≤ _ := Nat.pow_le_pow_left hle 2
  · calc 4 * s ≤ 4 * ((m + 1) * (m + 1) * 4 ^ k) := Nat.mul_le_mul_left 4 hhi.le
      _ = ((m + 1) * 2 ^ k + (m + 1) * 2 ^ k) ^ 2 := by rw [← sq_mul_two_pow]; ring
      _ ≤ _ := Nat.pow_le_pow_left (Nat.add_le_add_right hu.le _) 2

/-- √s lies above its midpoint with every magnitude below the rounded root. -/
theorem midpoint_below_root (hlo : m * m * 4 ^ k ≤ s) (hk : k = 0 ∨ 2 ^ 52 ≤ m) {b : Nat}
    (hu : magnitudeUnits b < M * 2 ^ k) : (magnitudeUnits b + M * 2 ^ k) ^ 2 ≤ 4 * s := by
  obtain ⟨rfl, -⟩ | ⟨rfl, hmid⟩ := hmid
  · calc _ ≤ (M * 2 ^ k + M * 2 ^ k) ^ 2 := Nat.pow_le_pow_left (Nat.add_le_add_right hu.le _) 2
      _ = 4 * (M * M * 4 ^ k) := by rw [← sq_mul_two_pow]; ring
      _ ≤ _ := Nat.mul_le_mul_left 4 hlo
  · have hle : magnitudeUnits b + (m + 1) * 2 ^ k ≤ (2 * m + 1) * 2 ^ k := by
      have := magnitudeUnits_below (hk.imp_right Nat.lt_succ_of_le) hu
      linarith
    calc _ ≤ ((2 * m + 1) * 2 ^ k) ^ 2 := Nat.pow_le_pow_left hle 2
      _ = _ := sq_mul_two_pow _ _
      _ ≤ _ := hmid

end

/-- The square root of a binary64 number of units is rounded to the nearest magnitude (00_scope.md R11). -/
theorem rootRoundsTo_roundSqrt {a : Nat} (h0 : 0 < a) (ha : a < 2 ^ 2098) : RootRoundsTo a (roundSqrt (a * 2 ^ 1074)) := by
  have hlog := log2_mul_two_pow_lt (q := 1074) h0 ha
  obtain ⟨k, m, M, hm1, hm2, hlo, hhi, hk, hmid, he⟩ :=
    roundSqrt_spec (a * 2 ^ 1074) (two_pow_le_mul_two_pow h0 (by decide))
  have hinf : infBits = 2047 * 2 ^ 52 := rfl
  have hfin : k * 2 ^ 52 + M < infBits := by omega
  refine ⟨M * 2 ^ k, ?_, ?_⟩
  · rw [he, min_eq_left hfin.le, valueOf_magnitude hfin, magnitudeUnits_pack (by omega) (by omega)]
  · intro w u hu
    obtain ⟨b, -, rfl⟩ := units_of_valueOf hu
    exact ⟨root_below_midpoint hmid hhi (.inr hm1), midpoint_below_root hmid hlo (.inr hm1)⟩

/-- A finite binary64 value is below 2^2098 units. -/
theorem magnitudeUnits_lt {b : Nat} (h : b < infBits) : magnitudeUnits b < 2 ^ 2098 := by
  obtain ⟨k, m, rfl, hm, hk⟩ := exists_pack b
  have hinf : infBits = 2047 * 2 ^ 52 := rfl
  rw [magnitudeUnits_pack (by omega) hk]
  refine (Nat.mul_lt_mul_of_pos_right hm (Nat.two_pow_pos k)).trans_le ?_
  rw [← pow_add]
  gcongr <;> omega

/-- The units of a finite value are below 2^2098. -/
theorem units_lt {x : FNum} {neg : Bool} {a : Nat} (h : x.value = .fin neg a) : a < 2 ^ 2098 := by
  cases x with
  | nan => cases h
  | word w =>
    obtain ⟨b, hb, rfl⟩ := units_of_valueOf h
    exact magnitudeUnits_lt hb

end Sys2Proof.Machine
end

section
/-! SUPPORT. What fneg does to a bit, and the operations on NaNs, infinities and zeros (00_scope.md R11, R13, R18). -/

namespace Sys2Proof.Machine

theorem unitExponent_eq : unitExponent = 1074 := rfl

theorem signMask_eq_twoPow : (0x8000000000000000 : DWord) = BitVec.twoPow 64 63 := rfl

theorem getLsbD_xor_signMask (w : DWord) {i : Nat} (hi : i < 64) :
    (w ^^^ 0x8000000000000000).getLsbD i = (w.getLsbD i ^^ decide (i = 63)) := by
  rw [BitVec.getLsbD_xor, signMask_eq_twoPow, BitVec.getLsbD_twoPow]
  simp [hi, eq_comm]

@[simp] theorem value_withSign_zero (neg : Bool) : (withSign neg 0).value = .fin neg 0 := by cases neg <;> rfl

/-- A word's value by its sign, exponent and significand fields (00_scope.md R10). -/
theorem valueOf_fields (neg : Bool) {e f : Nat} (he : e < 2 ^ 11) (hf : f < 2 ^ 52) :
    valueOf (BitVec.ofNat 64 ((if neg then 2 ^ 63 else 0) + e * 2 ^ 52 + f)) =
      if e = 2047 then (if f = 0 then .inf neg else .nan)
      else if e = 0 then .fin neg f else .fin neg ((2 ^ 52 + f) * 2 ^ (e - 1)) := by
  have hword : (BitVec.ofNat 64 ((if neg then 2 ^ 63 else 0) + e * 2 ^ 52 + f)).toNat =
      (if neg then 2 ^ 63 else 0) + e * 2 ^ 52 + f := by
    rw [BitVec.toNat_ofNat, Nat.mod_eq_of_lt]
    split <;> omega
  have hneg : decide (2 ^ 63 ≤ (if neg then 2 ^ 63 else 0) + e * 2 ^ 52 + f) = neg := by
    cases neg <;> simp <;> omega
  have hexp : ((if neg then 2 ^ 63 else 0) + e * 2 ^ 52 + f) / 2 ^ 52 % 2 ^ 11 = e := by split <;> omega
  have hsig : ((if neg then 2 ^ 63 else 0) + e * 2 ^ 52 + f) % 2 ^ 52 = f := by split <;> omega
  simp only [valueOf, hword, hneg, hexp, hsig]

/-- fmul is commutative, NaN bits being open (00_scope.md R11, R16). -/
theorem fmul_comm (x y : FNum) : fmul x y = fmul y x := by
  unfold fmul
  cases x.value with
  | nan => cases y.value <;> rfl
  | inf na =>
    cases y.value with
    | nan => rfl
    | inf nb => simp only [bne_comm]
    | fin nb b => simp only [bne_comm]
  | fin na a =>
    cases y.value with
    | nan => rfl
    | inf nb => simp only [bne_comm]
    | fin nb b => simp only [bne_comm, Nat.mul_comm]

/-! ### NaN operands -/

section
variable {x : FNum} (h : x.value = .nan) (y : FNum)
include h

theorem fadd_nan_left : fadd x y = .nan := by simp only [fadd, h]

theorem fadd_nan_right : fadd y x = .nan := by rw [fadd_comm, fadd_nan_left h]

theorem fsub_nan_left : fsub x y = .nan := fadd_nan_left h _

theorem fsub_nan_right : fsub y x = .nan := fadd_nan_right (by rw [value_fneg, h]; rfl) y

theorem fmul_nan_left : fmul x y = .nan := by simp only [fmul, h]

theorem fmul_nan_right : fmul y x = .nan := by rw [fmul_comm, fmul_nan_left h]

theorem fdiv_nan_left : fdiv x y = .nan := by simp only [fdiv, h]

theorem fdiv_nan_right : fdiv y x = .nan := by
  unfold fdiv
  rw [h]
  cases y.value <;> rfl

theorem fsqrt_nan : fsqrt x = .nan := by simp only [fsqrt, h]

end

/-! ### Two infinities -/

section
variable {x y : FNum} {na nb : Bool} (hx : x.value = .inf na) (hy : y.value = .inf nb)
include hx hy

theorem fadd_inf_inf : fadd x y = if na = nb then withSign na infBits else .nan := by simp only [fadd, hx, hy]

theorem fsub_inf_inf : fsub x y = if na = nb then .nan else withSign na infBits := by
  rw [fsub, fadd_inf_inf hx (nb := !nb) (by rw [value_fneg, hy]; rfl)]
  cases na <;> cases nb <;> rfl

theorem fmul_inf_inf : fmul x y = withSign (na != nb) infBits := by simp only [fmul, hx, hy]

theorem fdiv_inf_inf : fdiv x y = .nan := by simp only [fdiv, hx, hy]

end

/-! ### An infinity and a finite value -/

section
variable {x y : FNum} {na nb : Bool} {b : Nat} (hx : x.value = .inf na) (hy : y.value = .fin nb b)
include hx hy

theorem fadd_inf_fin : fadd x y = withSign na infBits := by simp only [fadd, hx, hy]

theorem fadd_fin_inf : fadd y x = withSign na infBits := by rw [fadd_comm, fadd_inf_fin hx hy]

theorem fsub_inf_fin : fsub x y = withSign na infBits := fadd_inf_fin hx (by rw [value_fneg, hy]; rfl)

theorem fsub_fin_inf : fsub y x = withSign (!na) infBits := fadd_fin_inf (by rw [value_fneg, hx]; rfl) hy

theorem fmul_inf_fin : fmul x y = if b = 0 then .nan else withSign (na != nb) infBits := by simp only [fmul, hx, hy]

theorem fmul_fin_inf : fmul y x = if b = 0 then .nan else withSign (na != nb) infBits := by
  rw [fmul_comm, fmul_inf_fin hx hy]

theorem fdiv_inf_fin : fdiv x y = withSign (na != nb) infBits := by simp only [fdiv, hx, hy]

theorem fdiv_fin_inf : fdiv y x = withSign (na != nb) 0 := by simp only [fdiv, hx, hy, bne_comm]

end

/-- An exact zero difference is +0.0, unless a negative zero is diminished by a positive one (00_scope.md R11). -/
theorem fsub_fin_zero {x y : FNum} {na nb : Bool} {a b : Nat} (hx : x.value = .fin na a) (hy : y.value = .fin nb b)
    (h : signedUnits na a - signedUnits nb b = 0) : fsub x y = withSign (na && !nb) 0 := by
  rw [fsub_fin hx hy, addFinite_zero (by rw [signedUnits_not, ← sub_eq_add_neg, h])]

theorem fdiv_fin_zero {x y : FNum} {na nb : Bool} {a : Nat} (hx : x.value = .fin na a) (hy : y.value = .fin nb 0) :
    fdiv x y = if a = 0 then .nan else withSign (na != nb) infBits := by
  simp only [fdiv, hx, hy, if_true]

theorem fsqrt_inf {x : FNum} {neg : Bool} (h : x.value = .inf neg) :
    fsqrt x = if neg then .nan else withSign false infBits := by simp only [fsqrt, h]

theorem fsqrt_fin_zero {x : FNum} {neg : Bool} (h : x.value = .fin neg 0) : fsqrt x = withSign neg 0 := by
  simp only [fsqrt, h, if_true]

theorem fsqrt_negative {x : FNum} {a : Nat} (h : x.value = .fin true a) (ha : a ≠ 0) : fsqrt x = .nan := by
  simp only [fsqrt, h, if_neg ha, if_true]

end Sys2Proof.Machine
end

section
/-! SUPPORT. The angle of a table's first entry (00_scope.md R19; 41_transform.md R170, R180). -/

namespace Sys2Proof.Machine

theorem trig_zero : trig (.word 0) = { re := .word 0x3FF0000000000000, im := .word 0 } := rfl

theorem value_twoPiD : twoPiD.value = .fin false (magnitudeUnits 0x401921FB54442D18) :=
  valueOf_magnitude (bits := 0x401921FB54442D18) (by decide)

theorem value_piD : piD.value = .fin false (magnitudeUnits 0x400921FB54442D18) :=
  valueOf_magnitude (bits := 0x400921FB54442D18) (by decide)

/-- The angle (c · f64(0)) / f64(n) of R170 and R180 is +0.0. -/
theorem tableAngle_zero {c : FNum} {a n : Nat} (hc : c.value = .fin false a) (h1 : 1 ≤ n) (hn : n < 2 ^ 53) :
    fdiv (fmul c (f64 0)) (f64 n) = .word 0 := by
  have hmul : fmul c (f64 0) = withSign false 0 := by
    rw [fmul_fin hc (value_f64 (by decide)), Nat.zero_mul, Nat.mul_zero, roundRatio_zero]
    rfl
  have hpos : n * 2 ^ unitExponent ≠ 0 := Nat.ne_of_gt (Nat.mul_pos h1 (Nat.two_pow_pos _))
  rw [hmul, fdiv_fin (value_withSign_zero false) (value_f64 hn) hpos, Nat.zero_mul, roundRatio_zero]
  rfl

theorem twiddle_zero {n : Nat} (h1 : 1 ≤ n) (hn : n < 2 ^ 53) :
    twiddle n 0 = { re := .word 0x3FF0000000000000, im := .word 0 } := by
  rw [twiddle, twiddleAngle, tableAngle_zero value_twoPiD h1 hn, trig_zero]

theorem chirp_zero {n : Nat} (h1 : 1 ≤ n) (hn : n < 2 ^ 53) :
    chirp n 0 = { re := .word 0x3FF0000000000000, im := .word 0 } := by
  rw [chirp, chirpAngle, Nat.zero_mul, Nat.zero_mod, tableAngle_zero value_piD h1 hn, trig_zero]

end Sys2Proof.Machine
end

section
/-! PROOF. The statements about the arithmetic (00_scope.md). -/

namespace Sys2Proof.Machine

open Sys2Proof.Safety

/-- Settles O48: every result is a packed significand rounded to nearest even, and each operation rounds its exact ratio. -/
theorem ratiosRoundToNearestEven : Obligations.RatiosRoundToNearestEven := by
  unfold Obligations.RatiosRoundToNearestEven
  refine ⟨fun num den hd => roundsTo_roundRatio num hd, ?_⟩
  intro x y na nb a b hx hy
  refine ⟨fun hsum => ?_, fun hdiff => ?_, ?_, fun hb => ?_⟩
  · exact ⟨_, by rw [fadd_fin hx hy, addFinite_ne_zero hsum], roundsTo_roundRatio _ Nat.one_pos⟩
  · rw [sub_eq_add_neg, ← signedUnits_not] at hdiff ⊢
    exact ⟨_, by rw [fsub_fin hx hy, addFinite_ne_zero hdiff], roundsTo_roundRatio _ Nat.one_pos⟩
  · exact ⟨_, by rw [fmul_fin hx hy, unitExponent_eq], roundsTo_roundRatio _ (by positivity)⟩
  · exact ⟨_, by rw [fdiv_fin hx hy hb, unitExponent_eq], roundsTo_roundRatio _ (Nat.pos_of_ne_zero hb)⟩

/-- Settles O49: the packed integer root lies on the right side of the midpoint with each neighbour. -/
theorem squareRootsRoundToNearest : Obligations.SquareRootsRoundToNearest := by
  unfold Obligations.SquareRootsRoundToNearest
  refine ⟨fun a => rootRoundsTo_roundSqrt, fun x a hx ha => ?_⟩
  exact ⟨_, by rw [fsqrt_fin hx (Nat.ne_of_gt ha), unitExponent_eq], rootRoundsTo_roundSqrt ha (units_lt hx)⟩

/-- Settles O50: fneg is an exclusive or with bit 63, and the signs of products and sums follow it. -/
theorem negationIdentities : Obligations.NegationIdentities := by
  unfold Obligations.NegationIdentities
  refine ⟨fun w => ⟨_, rfl, ?_, fun i hi => ?_⟩, fmul_fneg, fun a b => rfl, fadd_comm⟩
  · rw [getLsbD_xor_signMask w (by decide), decide_eq_true rfl, Bool.xor_true]
  · rw [getLsbD_xor_signMask w (by omega), decide_eq_false (Nat.ne_of_lt hi), Bool.xor_false]

/-- Settles O51, by the exact encoding of a natural below 2^53. -/
theorem naturalConversionIsExact : Obligations.NaturalConversionIsExact := by
  unfold Obligations.NaturalConversionIsExact
  exact fun k hk => unitExponent_eq ▸ value_f64 hk

/-- Settles O52: both angles are +0.0, where TRIG0 fixes TRIG. -/
theorem firstTableEntriesAreOne : Obligations.FirstTableEntriesAreOne := by
  unfold Obligations.FirstTableEntriesAreOne
  intro n h1 hn
  have hn' : n < 2 ^ 53 := hn.trans (by decide)
  exact ⟨twiddle_zero h1 hn', chirp_zero h1 hn'⟩

/-- Settles O60, by one lemma for each operation and each kind of operand. -/
theorem specialValuesFollowTheStandard : Obligations.SpecialValuesFollowTheStandard := by
  unfold Obligations.SpecialValuesFollowTheStandard
  refine ⟨rfl, fun _ _ => rfl, fun neg e f he hf => valueOf_fields neg he hf, ?_, ?_, ?_, ?_, ?_⟩
  · intro x y h
    exact ⟨fadd_nan_left h y, fadd_nan_right h y, fsub_nan_left h y, fsub_nan_right h y, fmul_nan_left h y,
      fmul_nan_right h y, fdiv_nan_left h y, fdiv_nan_right h y, fsqrt_nan h⟩
  · intro x y na nb hx hy
    exact ⟨fadd_inf_inf hx hy, fsub_inf_inf hx hy, fmul_inf_inf hx hy, fdiv_inf_inf hx hy⟩
  · intro x y na nb b hx hy
    exact ⟨fadd_inf_fin hx hy, fadd_fin_inf hx hy, fsub_inf_fin hx hy, fsub_fin_inf hx hy, fmul_inf_fin hx hy,
      fmul_fin_inf hx hy, fdiv_inf_fin hx hy, fdiv_fin_inf hx hy⟩
  · intro x y na nb a b hx hy
    refine ⟨fun h => ?_, fsub_fin_zero hx hy, ?_⟩
    · rw [fadd_fin hx hy, addFinite_zero h]
    · rintro rfl
      exact fdiv_fin_zero hx hy
  · exact fun x neg => ⟨fsqrt_inf, fsqrt_fin_zero, fun a => fsqrt_negative⟩

end Sys2Proof.Machine
end

section
/-! SUPPORT. One step that takes a whole transaction at a register, a reserved or an unmapped offset (10_state.md R32, R41;
20_memory.md R71–R78), and the fields of the STATUS and IRQ_EN words. -/

namespace Sys2Proof.Machine

/-! ### Registers -/

/-- The offset of a register as a bus master writes it. -/
def registerWord (r : RegName) : Word := BitVec.ofNat 32 (registerOffset r)

theorem registerWord_toNat (r : RegName) : (registerWord r).toNat = registerOffset r := by cases r <;> rfl

theorem readRegister_withInbox (rest : List Event) (s : State) (r : RegName) :
    readRegister (withInbox rest s) r = readRegister s r := by cases r <;> rfl

section
variable {s : State} {rest : List Event} (r : RegName) (hr : s.resetLine = false)
include hr

/-- A whole read of a register answers with its value and has no other effect (20_memory.md R78). -/
theorem step_readRegister
    (h : s.inbox = .transaction { access := .read, offset := registerWord r, whole := true } :: rest) :
    step s = .next { s with inbox := rest, response := some (.read (readRegister s r) .okay) } := by
  rw [step_transaction h hr, hostTransaction_readRegister r (registerWord_toNat r), readRegister_withInbox]
  rfl

/-- A whole write to a register does what the register does with it and gets OKAY. -/
theorem step_writeRegister {v : Word}
    (h : s.inbox = .transaction { access := .write v, offset := registerWord r, whole := true } :: rest) :
    step s = .next (respond (.write .okay) (writeRegister v (withInbox rest s) r)) := by
  rw [step_transaction h hr, hostTransaction_writeRegister r (registerWord_toNat r)]

/-- Only CMD, STATUS and IRQ_EN do more with a write than set an operand register (10_state.md R31–R39). -/
theorem step_writeOperand {v : Word} (hc : r ≠ .cmd) (hs : r ≠ .status) (hi : r ≠ .irqEn)
    (h : s.inbox = .transaction { access := .write v, offset := registerWord r, whole := true } :: rest) :
    step s = .next { s with
      inbox := rest, response := some (.write .okay), operands := (writeRegister v s r).operands } := by
  rw [step_writeRegister r hr h]
  cases r with
  | cmd => exact absurd rfl hc
  | status => exact absurd rfl hs
  | irqEn => exact absurd rfl hi
  | _ => rfl

end

/-! ### The STATUS and IRQ_EN words -/

@[simp] theorem bit_getElem_zero (b : Bool) : (bit b)[0] = b := by cases b <;> rfl

theorem statusWord_flags (s : State) :
    (statusWord s).getLsbD 0 = s.busy ∧ (statusWord s).getLsbD 1 = s.done ∧
    (statusWord s).getLsbD 2 = s.fail ∧ (statusWord s).getLsbD 3 = s.ovr := by
  simp only [statusWord, BitVec.getLsbD_append]
  simp

/-- The fields of STATUS wider than one bit: 7:4, RESULT in 15:8, and 31:16 (10_state.md R34). -/
theorem statusWord_fields (s : State) :
    (statusWord s).extractLsb' 4 4 = 0 ∧ (statusWord s).extractLsb' 16 16 = 0 ∧
    (statusWord s).extractLsb' 8 8 = resultCode s.result := by
  simp (disch := omega) only [statusWord, BitVec.extractLsb'_append_eq_of_le, BitVec.extractLsb'_append_eq_of_add_le]
  simp

/-- The W1C write, bit by bit (10_state.md R34). -/
theorem writeStatus_eq (v : Word) (s : State) :
    writeStatus v s = { s with
      done := if v.getLsbD 1 then false else s.done, ovr := if v.getLsbD 3 then false else s.ovr } := by
  unfold writeStatus
  cases v.getLsbD 1 <;> cases v.getLsbD 3 <;> simp

theorem irqEnWord_eq (s : State) : irqEnWord s = if s.doneIe then 1 else 0 := by
  unfold irqEnWord
  cases s.doneIe <;> rfl

/-! ### Offsets where no register stands -/

theorem blockTarget_reserved {words a : Nat} (h1 : 0x04C ≤ a) (h2 : a < 0x1000) : blockTarget words a = .reserved := by
  rw [blockTarget, if_pos h2, registerAt_reserved h1]

theorem blockTarget_unmapped {words a : Nat} (h1 : 0x1000 ≤ a) (h2 : a < windowBase) :
    blockTarget words a = .unmapped := by
  rw [blockTarget, if_neg (by omega), if_neg (by omega)]

section
variable {s : State} {acc : Access} {a : Word} {rest : List Event} (hr : s.resetLine = false) (ha : a.toNat % 4 = 0)
  (h : s.inbox = .transaction { access := acc, offset := a, whole := true } :: rest)
include hr ha h

theorem step_aligned : step s = .next (alignedAccess acc a.toNat (withInbox rest s)) := by
  rw [step_transaction h hr, hostTransaction, if_pos ⟨rfl, ha⟩]

/-- A reserved offset reads as zero and ignores a write, without a bus error (10_state.md R41). -/
theorem step_reserved (h1 : 0x04C ≤ a.toNat) (h2 : a.toNat < 0x1000) :
    step s = .next { s with
      inbox := rest, response := some (match acc with | .read => .read 0 .okay | .write _ => .write .okay) } := by
  rw [step_aligned hr ha h]
  unfold alignedAccess
  rw [blockTarget_reserved h1 h2]
  cases acc <;> rfl

/-- An offset between the registers and the DMEM window gets a bus error (20_memory.md R71, R74). -/
theorem step_unmapped (h1 : 0x1000 ≤ a.toNat) (h2 : a.toNat < windowBase) :
    step s = .next { s with
      inbox := rest, response := some (match acc with | .read => .read 0 .buserr | .write _ => .write .buserr) } := by
  rw [step_aligned hr ha h]
  unfold alignedAccess
  rw [blockTarget_unmapped h1 h2]
  cases acc <;> rfl

end

end Sys2Proof.Machine
end

section
/-! SUPPORT. What keeps the state invariant, one lemma per part of a step, and where each part can change a DMEM word
(10_state.md R33, R34, R51; 40_command_execution.md R131, R147; 70_reset_and_hazards.md R330, R331). -/

namespace Sys2Proof.Machine

open Sys2Proof.Safety

/-! ### DMEM words -/

/-- A command that is not ready to perform leaves DMEM alone (40_command_execution.md R146). -/
theorem runCommand_dmem_of_not_ready {c : Instr} {f : SemFn} {s : State}
    (h : ¬ CommandReady c s.snapshot s.dmemWords) : (runCommand c f s).dmem = s.dmem := by
  obtain ⟨code, -, he⟩ | ⟨-, -, he⟩ | ⟨code, -, hcode, he⟩ | ⟨hready, -⟩ :=
    execSteps_cases c f s.snapshot s.dmemWords s.dmem
  · rw [runCommand, he]
    exact ite_self s.dmem
  · rw [runCommand, he]
    rfl
  · rw [runCommand, he]
    exact dmemAfter_failed s (by obtain rfl | rfl | rfl | rfl := hcode <;> exact nofun)
  · exact absurd hready h

/-- A command changes only words it touches, and only when it is ready (40_command_execution.md R146, R147). -/
theorem runCommand_word_changed {c : Instr} {s : State} {w : Nat}
    (h : readWord (runCommand c (semantics c) s).dmem w ≠ readWord s.dmem w) :
    CommandReady c s.snapshot s.dmemWords ∧ Touched c s.snapshot w := by
  have hready : CommandReady c s.snapshot s.dmemWords := by
    by_contra hn
    exact h (by rw [runCommand_dmem_of_not_ready hn])
  refine ⟨hready, ?_⟩
  by_contra ht
  obtain ⟨-, -, -, hframe⟩ := runCommand_ready hready
  exact h (readWord_congr fun a ha => hframe a (ha ▸ ht))

/-- A completion that changes a word is the success of a command with work that touches it. -/
theorem completed_word_changed {s : State} {w : Nat} (h : readWord (completed s).dmem w ≠ readWord s.dmem w) :
    (completed s).result = .ok ∧ ∃ c, decode s.op = .ok c ∧ HasWork c s.snapshot ∧ Touched c s.snapshot w := by
  unfold completed at h ⊢
  split at h
  · exact absurd rfl h
  · rename_i c hc
    obtain ⟨hready, ht⟩ := runCommand_word_changed h
    obtain ⟨-, ⟨-, -, hres, -⟩, -⟩ := runCommand_ready hready
    exact ⟨hres, c, hc, hready.work, ht⟩

/-- The words a reset may lose lie inside DMEM, in the output regions or the declared scratch of a running command other than
NOP (70_reset_and_hazards.md R331). -/
theorem resetLoss_contains {s : State} {w : Nat} {r : Region} (hr : r ∈ resetLoss s) (hw : r.contains w = true) :
    s.busy = true ∧ w < s.dmemWords ∧ ∃ c, decode s.op = .ok c ∧ c ≠ .nop ∧
      ((∃ t ∈ outputRegions c s.snapshot, t.contains w = true) ∨ (scratchDeclared s.snapshot).contains w = true) := by
  unfold resetLoss at hr
  split at hr
  · rename_i hb
    unfold lostRegions at hr
    split at hr
    · cases hr
    · rename_i c hc
      split at hr
      · cases hr
      · rename_i hnop
        obtain ⟨t, ht, rfl⟩ := List.mem_map.1 hr
        obtain ⟨hin, hlt⟩ := contains_clip.1 hw
        refine ⟨hb, hlt, c, hc, hnop, ?_⟩
        obtain ht | ht := List.mem_append.1 ht
        · exact .inl ⟨t, ht, hin⟩
        · exact .inr (List.mem_singleton.1 ht ▸ hin)
  · cases hr

theorem assertReset_word_changed {s : State} {w : Nat} (h : readWord (assertReset s).dmem w ≠ readWord s.dmem w) :
    ∃ r ∈ resetLoss s, r.contains w = true := by
  by_contra! hn
  exact h (readWord_havocAll_other _ _ _ fun r hr => outside_of_contains_false (Bool.eq_false_iff.2 (hn r hr)))

/-- A transaction changes a word only as the write of one half of it through the window while idle (20_memory.md R73). -/
theorem hostTransaction_word_changed {tr : Transaction} {s : State} {w : Nat}
    (hne : readWord (hostTransaction tr s).dmem w ≠ readWord s.dmem w) :
    ∃ v h, tr.whole = true ∧ tr.access = .write v ∧ s.busy = false ∧ h < 2 ∧ w < s.dmemWords ∧
      tr.offset.toNat = windowOffset w h := by
  obtain ⟨r, he⟩ | ⟨v, r, -, -, -, he⟩ | ⟨v, x, h, hwhole, hacc, hb, hh, hx, ho, he⟩ := hostTransaction_cases tr s
  · exact absurd (by rw [he, respond_dmem]) hne
  · exact absurd (by rw [he, respond_dmem, (writeRegister_frame v s r).1]) hne
  · have hwx : w = x := by
      by_contra hwx
      exact hne (by rw [he, respond_dmem, readWord_writeHalf_other _ _ hh hwx])
    subst hwx
    exact ⟨v, h, hwhole, hacc, hb, hh, hx, ho⟩

/-! ### The invariant -/

/-- A register write leaves the machine busy only where it was busy, or as an accepted CMD write (10_state.md R33). -/
theorem busy_of_writeRegister {v : Word} {s : State} {r : RegName} (h : (writeRegister v s r).busy = true) :
    s.busy = true ∨ writeRegister v s r = startStep v s := by
  by_cases hr : r = .cmd
  · subst hr
    show s.busy = true ∨ writeCmd v s = startStep v s
    unfold writeCmd
    split
    · exact .inl ‹_›
    · exact .inr rfl
  · exact .inl ((writeRegister_idle (v := v) hr).1 ▸ h)

theorem completed_dmemWords (s : State) : (completed s).dmemWords = s.dmemWords := (completed_sameControl s).1

theorem completed_resetLine (s : State) : (completed s).resetLine = s.resetLine := by
  obtain ⟨r, hr⟩ := completed_eq s
  rw [hr, completionStep_resetLine]

end Sys2Proof.Machine

namespace Sys2Proof.Safety.Inv

open Sys2Proof.Machine

variable {s : State}

theorem withInbox (h : Inv s) (rest : List Event) : Inv (withInbox rest s) :=
  { h with }

theorem respond (h : Inv s) (r : Response) : Inv (respond r s) :=
  { h with }

theorem releaseReset (h : Inv s) : Inv (releaseReset s) :=
  { h with reset_holds := nofun }

theorem assertReset (h : Inv s) : Inv (assertReset s) where
  dmemWords_legal := h.dmemWords_legal
  dmem_wf := wf_havocAll _ _ _ h.dmem_wf
  dmem_inside := below_havocAll _ _ _ h.dmem_inside (resetLoss_inside s)
  fail_iff := rfl
  busy_clears := nofun
  busy_cmd := nofun
  blM_legal := .inl rfl
  reset_holds _ := assertReset_registersReset s

/-- A busy machine is not under reset, so the completion's registers are free to move. -/
theorem completed (h : Inv s) (hb : s.busy = true) : Inv (completed s) where
  dmemWords_legal := completed_dmemWords s ▸ h.dmemWords_legal
  dmem_wf := (completed_keeps_dmem h.dmem_wf h.dmem_inside).1
  dmem_inside := completed_dmemWords s ▸ (completed_keeps_dmem h.dmem_wf h.dmem_inside).2
  fail_iff := completed_fail s
  busy_clears hbusy := by simp at hbusy
  busy_cmd hbusy := by simp at hbusy
  blM_legal := completed_blM s
  reset_holds hreset := by
    obtain ⟨-, hidle, -⟩ := h.reset_holds (completed_resetLine s ▸ hreset)
    simp [hb] at hidle

theorem writeRegister (h : Inv s) (hr : s.resetLine = false) (v : Word) (r : RegName) :
    Inv (writeRegister v s r) := by
  obtain ⟨hdmem, hwords, hline, -, -, -, -, hblM⟩ := writeRegister_frame v s r
  refine
    { dmemWords_legal := hwords ▸ h.dmemWords_legal
      dmem_wf := hdmem ▸ h.dmem_wf
      dmem_inside := by rw [hdmem, hwords]; exact h.dmem_inside
      fail_iff := writeRegister_fail_iff r h.fail_iff
      busy_clears := fun hbusy => ?_
      busy_cmd := fun hbusy => ?_
      blM_legal := hblM ▸ h.blM_legal
      reset_holds := fun hreset => by simp [hline, hr] at hreset }
  · obtain hb | hstart := busy_of_writeRegister hbusy
    · obtain ⟨-, -, -, -, hres, -, hdone⟩ := writeRegister_busy (v := v) r hb
      obtain ⟨hnot, hok⟩ := h.busy_clears hb
      exact ⟨by simpa [hnot] using hdone, hres.trans hok⟩
    · rw [hstart]
      exact ⟨rfl, rfl⟩
  · obtain hb | hstart := busy_of_writeRegister hbusy
    · obtain ⟨-, hop, hcmd, -⟩ := writeRegister_busy (v := v) r hb
      rw [hop, hcmd, h.busy_cmd hb]
    · rw [hstart]
      rfl

theorem writeHalf (h : Inv s) (v : Word) {w g : Nat} (hw : w < s.dmemWords) (hg : g < 2) :
    Inv { s with dmem := writeHalf s.dmem w g v } :=
  { h with
    dmem_wf := wf_writeHalf _ _ _ _ h.dmem_wf
    dmem_inside := below_writeHalf _ _ h.dmem_inside hw hg }

theorem hostTransaction (h : Inv s) (hr : s.resetLine = false) (tr : Transaction) : Inv (hostTransaction tr s) := by
  obtain ⟨r, he⟩ | ⟨v, r, -, -, -, he⟩ | ⟨v, w, g, -, -, -, hg, hw, -, he⟩ := hostTransaction_cases tr s
  · exact he ▸ h.respond r
  · exact he ▸ (h.writeRegister hr v r).respond _
  · exact he ▸ (h.writeHalf v hw hg).respond _

end Sys2Proof.Safety.Inv
end

section
/-! PROOF. The statements about the registers, DMEM and the invariant (10_state.md). -/

namespace Sys2Proof.Machine

open Sys2Proof.Safety

/-- The registers that read back a plain value: all but STATUS and IRQ_EN (10_state.md R32). -/
def plainRegisters : List RegName :=
  [.id, .version, .cap, .cmd, .n, .xr, .xi, .yr, .yi, .outR, .outI, .out2R, .out2I, .scrBase, .scrSize, .scrNeed, .blM]

/-- The registers whose write at most sets an operand: the eleven operand registers and the five read-only ones
(10_state.md R31, R36–R39). -/
def quietRegisters : List RegName :=
  [.n, .xr, .xi, .yr, .yi, .outR, .outI, .out2R, .out2I, .scrBase, .scrSize, .id, .version, .cap, .scrNeed, .blM]

/-- Settles O16, by the cases of a step: each says which words it can change. -/
theorem dmemWordsChangeOnlyInThreeWays : Obligations.DmemWordsChangeOnlyInThreeWays := by
  unfold Obligations.DmemWordsChangeOnlyInThreeWays
  intro s t w hstep hne
  cases step_cases hstep with
  | transaction tr rest hi _ ht =>
    obtain ⟨v, h, hwhole, hacc, hb, hh, hw, ho⟩ := hostTransaction_word_changed (ht ▸ hne)
    exact .inl ⟨tr, rest, v, h, hi, hwhole, hacc, hb, hh, hw, ho⟩
  | completion rest _ hb ht =>
    subst ht
    obtain ⟨hres, hc⟩ := completed_word_changed hne
    exact .inr (.inl ⟨hb, completed_busy _, completed_done _, hres, hc⟩)
  | idle rest _ _ ht => exact absurd (by rw [ht, withInbox_dmem]) hne
  | asserted rest hi ht =>
    obtain ⟨r, hr, hw⟩ := assertReset_word_changed (ht ▸ hne)
    obtain ⟨hb, hlt, c, hc⟩ := resetLoss_contains hr hw
    exact .inr (.inr ⟨hb, hlt, rest, c, hi, hc⟩)
  | released rest _ ht => exact absurd (by rw [ht, releaseReset_dmem, withInbox_dmem]) hne

/-- Settles O17, by the cases of a step: each part of a step keeps the invariant. -/
theorem everyStepKeepsTheInvariant : Obligations.EveryStepKeepsTheInvariant := by
  unfold Obligations.EveryStepKeepsTheInvariant
  intro s t h hstep
  cases step_cases hstep with
  | transaction tr rest _ hr ht => exact ht ▸ (h.withInbox rest).hostTransaction hr tr
  | completion rest _ hb ht => exact ht ▸ (h.withInbox rest).completed hb
  | idle rest _ _ ht => exact ht ▸ h.withInbox rest
  | asserted rest _ ht => exact ht ▸ (h.withInbox rest).assertReset
  | released rest _ ht => exact ht ▸ (h.withInbox rest).releaseReset

/-- Settles O11, by what stands at the two ranges of offsets. -/
theorem reservedOffsetsReadZeroIgnoreWrites : Obligations.ReservedOffsetsReadZeroIgnoreWrites := by
  unfold Obligations.ReservedOffsetsReadZeroIgnoreWrites
  intro s v a rest hr ha
  refine ⟨fun h1 h2 => ?_, fun h1 h2 => ?_⟩
  · exact ⟨fun h => step_reserved hr ha h h1 (by omega), fun h => step_reserved hr ha h h1 (by omega)⟩
  · have h2 : a.toNat < windowBase := Nat.lt_of_le_of_lt h2 (by decide)
    exact ⟨fun h => step_unmapped hr ha h h1 h2, fun h => step_unmapped hr ha h h1 h2⟩

/-- Settles O23: every command's meaning is one completion step. -/
theorem completionWritesOnlyStatusNeedAndLength : Obligations.CompletionWritesOnlyStatusNeedAndLength := by
  unfold Obligations.CompletionWritesOnlyStatusNeedAndLength
  exact fun c s => ⟨_, exec_eq c s, completionStep_sameControl _ s, rfl, rfl, rfl⟩

/-- Settles O7, by the fields of the STATUS word and the W1C write. -/
theorem statusReadsItsFieldsAndClearsByOnes : Obligations.StatusReadsItsFieldsAndClearsByOnes := by
  unfold Obligations.StatusReadsItsFieldsAndClearsByOnes
  intro s v rest hr
  refine ⟨fun h => ?_, fun h => ?_⟩
  · obtain ⟨hbusy, hdone, hfail, hovr⟩ := statusWord_flags s
    obtain ⟨hlow, hhigh, hcode⟩ := statusWord_fields s
    refine ⟨_, step_readRegister .status hr h, hbusy, hdone, hfail, hovr, hlow, hhigh, ?_⟩
    show (s.result, (statusWord s).extractLsb' 8 8) ∈ _
    rw [hcode]
    cases s.result <;> decide
  · rw [step_writeRegister .status hr h, writeRegister, writeStatus_eq]
    rfl

/-- Settles O8: the write keeps bit 0, and the read shows it alone. -/
theorem irqEnableHoldsBitZero : Obligations.IrqEnableHoldsBitZero := by
  unfold Obligations.IrqEnableHoldsBitZero
  intro s v rest hr
  refine ⟨fun h => step_writeRegister .irqEn hr h, fun h => ?_⟩
  rw [step_readRegister .irqEn hr h, ← irqEnWord_eq]
  rfl

/-- Settles O9: each pair is a register's offset and the value it reads. -/
theorem registerReadsReturnTheirValues : Obligations.RegisterReadsReturnTheirValues := by
  unfold Obligations.RegisterReadsReturnTheirValues
  intro s rest p hr hp h
  have hp : p ∈ plainRegisters.map fun r => (registerWord r, readRegister s r) := hp
  obtain ⟨r, -, rfl⟩ := List.mem_map.1 hp
  exact step_readRegister r hr h

/-- Settles O10: each pair is a register's offset and the operands its write leaves. -/
theorem registerWritesSetOnlyTheirRegister : Obligations.RegisterWritesSetOnlyTheirRegister := by
  unfold Obligations.RegisterWritesSetOnlyTheirRegister
  intro s v rest p hr hp h
  have hp : p ∈ quietRegisters.map fun r => (registerWord r, (writeRegister v s r).operands) := hp
  obtain ⟨r, hmem, rfl⟩ := List.mem_map.1 hp
  have hquiet : r ≠ .cmd ∧ r ≠ .status ∧ r ≠ .irqEn := by
    revert hmem
    cases r <;> decide
  obtain ⟨hc, hs, hi⟩ := hquiet
  exact step_writeOperand r hr hc hs hi h

end Sys2Proof.Machine
end

section
/-! SUPPORT. Which transactions get BUSERR and which OKAY, and the two halves of a DMEM word in the window
(20_memory.md R71–R76). -/

namespace Sys2Proof.Machine

open Sys2Proof.Safety

/-! ### BUSERR and OKAY -/

/-- The unmapped offsets are the gap below the DMEM window and everything beyond its end (20_memory.md R71). -/
theorem blockTarget_eq_unmapped {words a : Nat}
    (h : (0x1000 ≤ a ∧ a < 0x80000000) ∨ 0x80000000 + 8 * words ≤ a) : blockTarget words a = .unmapped := by
  obtain ⟨hlow, -⟩ | ⟨hlo, hhi, -⟩ | ⟨-, hu⟩ := blockTarget_cases words a
  · omega
  · omega
  · exact hu

/-- Offsets of the DMEM window lead to a half of a word (20_memory.md R71). -/
theorem blockTarget_eq_window {words a : Nat} (hlo : 0x80000000 ≤ a) (hhi : a < 0x80000000 + 8 * words) :
    ∃ w h, blockTarget words a = .window w h := by
  obtain ⟨hlow, -⟩ | ⟨-, -, hw⟩ | ⟨hout, -⟩ := blockTarget_cases words a
  · omega
  · exact hw
  · omega

section
variable {s : State} {tr : Transaction}

/-- A misaligned or partial access gets BUSERR, wherever it leads (20_memory.md R74). -/
theorem hostTransaction_illFormed (h : tr.whole = false ∨ tr.offset.toNat % 4 ≠ 0) :
    hostTransaction tr s = busError tr.access s := by
  rw [hostTransaction, if_neg]
  rintro ⟨hwhole, hal⟩
  obtain h | h := h
  · simp [hwhole] at h
  · exact h hal

theorem alignedAccess_unmapped (acc : Access) {a : Nat} (h : blockTarget s.dmemWords a = .unmapped) :
    alignedAccess acc a s = busError acc s := by
  simp only [alignedAccess, h]

theorem alignedAccess_window_busy (acc : Access) {a w h : Nat} (ht : blockTarget s.dmemWords a = .window w h)
    (hb : s.busy = true) : alignedAccess acc a s = busError acc s := by
  simp only [alignedAccess, ht, hb, if_true]

/-- An access that leads to a BUSERR target gets BUSERR, aligned or not (20_memory.md R74). -/
theorem hostTransaction_eq_busError
    (h : alignedAccess tr.access tr.offset.toNat s = busError tr.access s) :
    hostTransaction tr s = busError tr.access s := by
  rw [hostTransaction, h, ite_self]

/-- Each of the listed cases gets BUSERR (20_memory.md R74). -/
theorem hostTransaction_of_busErrorCase (h : BusErrorCase s tr) : hostTransaction tr s = busError tr.access s := by
  have hunmapped (hu : blockTarget s.dmemWords tr.offset.toNat = .unmapped) :
      hostTransaction tr s = busError tr.access s :=
    hostTransaction_eq_busError (alignedAccess_unmapped _ hu)
  obtain hpart | hmis | hgap | hend | ⟨hb, hlo, hhi⟩ := h
  · exact hostTransaction_illFormed (.inl hpart)
  · exact hostTransaction_illFormed (.inr hmis)
  · exact hunmapped (blockTarget_eq_unmapped (.inl hgap))
  · exact hunmapped (blockTarget_eq_unmapped (.inr hend))
  · obtain ⟨w, g, hw⟩ := blockTarget_eq_window hlo hhi
    exact hostTransaction_eq_busError (alignedAccess_window_busy _ hw hb)

/-- The port has answered OKAY. -/
def AnsweredOkay (s : State) : Prop := (∃ d, s.response = some (.read d .okay)) ∨ s.response = some (.write .okay)

@[simp] theorem respond_read_answeredOkay (d : Word) (s : State) : AnsweredOkay (respond (.read d .okay) s) := .inl ⟨d, rfl⟩

@[simp] theorem respond_write_answeredOkay (s : State) : AnsweredOkay (respond (.write .okay) s) := .inr rfl

theorem alignedAccess_register_answeredOkay (acc : Access) {a : Nat} {r : RegName}
    (h : blockTarget s.dmemWords a = .register r) : AnsweredOkay (alignedAccess acc a s) := by
  unfold alignedAccess
  cases acc <;> simp [h]

theorem alignedAccess_reserved_answeredOkay (acc : Access) {a : Nat} (h : blockTarget s.dmemWords a = .reserved) :
    AnsweredOkay (alignedAccess acc a s) := by
  unfold alignedAccess
  cases acc <;> simp [h]

theorem alignedAccess_window_answeredOkay (acc : Access) {a w h : Nat} (ht : blockTarget s.dmemWords a = .window w h)
    (hb : s.busy = false) : AnsweredOkay (alignedAccess acc a s) := by
  unfold alignedAccess
  cases acc <;> simp [ht, hb]

/-- A transaction outside the listed cases is aligned and whole, and leads to a register, a reserved offset or the open
window (20_memory.md R71, R74). -/
theorem hostTransaction_answeredOkay (h : ¬ BusErrorCase s tr) : AnsweredOkay (hostTransaction tr s) := by
  unfold BusErrorCase at h
  push Not at h
  obtain ⟨hwhole, hal, hgap, hend, hbusy⟩ := h
  rw [hostTransaction, if_pos ⟨by simpa using hwhole, hal⟩]
  obtain ⟨-, ⟨r, hreg⟩ | hres⟩ | ⟨hlo, hhi, w, g, hw⟩ | ⟨hout, -⟩ := blockTarget_cases s.dmemWords tr.offset.toNat
  · exact alignedAccess_register_answeredOkay _ hreg
  · exact alignedAccess_reserved_answeredOkay _ hres
  · have hb : s.busy = false := by
      rw [Bool.eq_false_iff]
      intro hb
      exact absurd (hbusy hb hlo) (by omega)
    exact alignedAccess_window_answeredOkay _ hw hb
  · omega

end

/-! ### The halves of a DMEM word -/

/-- The written half reads back, and the other half keeps its value (20_memory.md R73). -/
theorem extract_readWord_writeHalf (m : Memory) (w : Nat) (v : Word) {h : Nat} (hh : h < 2) :
    (readWord (writeHalf m w h v) w).extractLsb' (32 * h) 32 = v ∧
    (readWord (writeHalf m w h v) w).extractLsb' (32 * (1 - h)) 32 = (readWord m w).extractLsb' (32 * (1 - h)) 32 := by
  have hg : 1 - h < 2 := by omega
  rw [extract_readWord _ _ hh, extract_readWord _ _ hg, extract_readWord _ _ hg]
  exact ⟨readHalf_writeHalf_self m w h v, readHalf_writeHalf_other m v hh hg (by omega)⟩

section
variable {s : State} {a : Word} {rest : List Event} {w h : Nat} (hr : s.resetLine = false) (hw : w < s.dmemWords)
  (hh : h < 2) (ha : a.toNat = windowOffset w h)
include hr hw hh ha

/-- While busy the window is closed (20_memory.md R76). -/
theorem step_window_busy {acc : Access}
    (hi : s.inbox = .transaction { access := acc, offset := a, whole := true } :: rest) (hb : s.busy = true) :
    step s = .next (busError acc (withInbox rest s)) := by
  rw [step_transaction hi hr, hostTransaction_window (s := withInbox rest s) ha hw hh, withInbox_busy, if_pos hb]

/-- While idle a window read returns its half (20_memory.md R73). -/
theorem step_window_read (hi : s.inbox = .transaction { access := .read, offset := a, whole := true } :: rest)
    (hb : s.busy = false) :
    step s = .next { s with inbox := rest, response := some (.read (readHalf s.dmem w h) .okay) } := by
  rw [step_transaction hi hr, hostTransaction_window (s := withInbox rest s) ha hw hh, withInbox_busy,
    if_neg (Bool.eq_false_iff.1 hb)]
  rfl

/-- While idle a window write replaces its half (20_memory.md R73). -/
theorem step_window_write {v : Word}
    (hi : s.inbox = .transaction { access := .write v, offset := a, whole := true } :: rest) (hb : s.busy = false) :
    step s = .next { s with inbox := rest, response := some (.write .okay), dmem := writeHalf s.dmem w h v } := by
  rw [step_transaction hi hr, hostTransaction_window (s := withInbox rest s) ha hw hh, withInbox_busy,
    if_neg (Bool.eq_false_iff.1 hb)]
  rfl

end

end Sys2Proof.Machine
end

section
/-! PROOF. The statements about the host's transactions and the DMEM window (20_memory.md). -/

namespace Sys2Proof.Machine

open Sys2Proof.Safety

/-- Settles O12, by where each transaction leads in the block space map. -/
theorem busErrorsAreExactlyTheListedCases : Obligations.BusErrorsAreExactlyTheListedCases := by
  unfold Obligations.BusErrorsAreExactlyTheListedCases
  intro s tr rest hr hi
  refine ⟨fun hbad => ?_, fun hok => ?_⟩
  · have hbad' : BusErrorCase (withInbox rest s) tr := hbad
    rw [step_transaction hi hr, hostTransaction_of_busErrorCase hbad', busError_eq]
    rfl
  · have hok' : ¬ BusErrorCase (withInbox rest s) tr := hok
    exact ⟨_, step_transaction hi hr, hostTransaction_answeredOkay hok'⟩

/-- Settles O13: the offset leads to half h of word w, which a read returns and a write replaces. -/
theorem windowAccessesOneHalf : Obligations.WindowAccessesOneHalf := by
  unfold Obligations.WindowAccessesOneHalf
  intro s w h v a rest hr _ hw hh ha
  have ha' : a.toNat = windowOffset w h := ha
  refine ⟨fun hi => ?_, fun hi => ⟨step_window_busy hr hw hh ha' hi, fun hb => ?_⟩⟩
  · rw [extract_readWord _ _ hh]
    split
    · next hb => exact step_window_busy hr hw hh ha' hi hb
    · next hb => exact step_window_read hr hw hh ha' hi (Bool.eq_false_iff.2 hb)
  · obtain ⟨hself, hother⟩ := extract_readWord_writeHalf s.dmem w v hh
    exact ⟨_, step_window_write hr hw hh ha' hi hb, hself, hother, fun b => readByte_writeHalf_other s.dmem w h v⟩

end Sys2Proof.Machine
end

section
/-! SUPPORT. The decoder as the inverse of the encoder and its two reasons to reject a word (30_encoding.md R101–R105), and what
a busy sequencer does with a word that names no command (40_command_execution.md R131, R145). -/

namespace Sys2Proof

/-! ### The two fields -/

/-- Bits 7:0 of a word are its OPCODE (30_encoding.md R101). -/
theorem toNat_opcodeBits (w : Word) : (w.extractLsb' 0 8).toNat = opcodeField w := by
  rw [BitVec.extractLsb'_toNat, Nat.shiftRight_zero]
  rfl

/-- Bits 31:8 of a word are its RSVD field (30_encoding.md R101). -/
theorem toNat_reservedBits (w : Word) : (w.extractLsb' 8 24).toNat = reservedField w := by
  rw [BitVec.extractLsb'_toNat, Nat.shiftRight_eq_div_pow, reservedField]
  omega

theorem reservedBits_eq_zero {w : Word} : w.extractLsb' 8 24 = 0 ↔ reservedField w = 0 := by
  rw [← toNat_reservedBits]
  exact BitVec.toNat_inj.symm

/-! ### Decoding and encoding -/

@[simp] theorem decode_encode (i : Instr) : decode (encode i) = .ok i :=
  decode_eq_ok.2 ⟨reservedField_encode i, by rw [opcodeField_encode, decodeOpcode_opcode]⟩

theorem encode_of_decode {w : Word} {i : Instr} (h : decode w = .ok i) : w = encode i := by
  obtain ⟨hrsvd, hop⟩ := decode_eq_ok.1 h
  apply BitVec.eq_of_toNat_eq
  rw [encode_toNat, opcode_of_decodeOpcode hop, word_of_fields, hrsvd, Nat.mul_zero, Nat.zero_add]

/-- A command's word is the only one that decodes to it (30_encoding.md R105). -/
theorem decode_eq_ok_iff_encode {w : Word} {i : Instr} : decode w = .ok i ↔ w = encode i :=
  ⟨encode_of_decode, fun h => h ▸ decode_encode i⟩

theorem encode_injective : Function.Injective encode := fun i j h =>
  Except.ok.inj (by rw [← decode_encode i, h, decode_encode])

theorem Instr.mem_all (i : Instr) : i ∈ Instr.all := by cases i <;> decide

theorem nodup_commandWords : (Instr.all.map encode).Nodup := List.Nodup.map encode_injective (by decide)

/-! ### The words that name no command -/

/-- The OPCODE values that R103 reserves: 0x0A–0x0F and 0x15–0xFF (30_encoding.md R104). -/
def ReservedOpcode (op : Nat) : Prop := (0x0A ≤ op ∧ op ≤ 0x0F) ∨ 0x15 ≤ op

/-- A word that names no command: a bit of RSVD is set, or the OPCODE is reserved (30_encoding.md R101, R104). -/
def ReservedWord (w : Word) : Prop := w.extractLsb' 8 24 ≠ 0 ∨ ReservedOpcode (w.extractLsb' 0 8).toNat

theorem ReservedOpcode.not_defined {op : Nat} (h : ReservedOpcode op) : opcodeDefined op = false := by
  unfold ReservedOpcode at h
  simp only [opcodeDefined, Bool.or_eq_false_iff, Bool.and_eq_false_iff, decide_eq_false_iff_not]
  omega

theorem decode_reservedBits {w : Word} (h : w.extractLsb' 8 24 ≠ 0) : decode w = .error .reservedBits := by
  rw [decode, if_neg (mt reservedBits_eq_zero.2 h)]

theorem decode_reservedOpcode {w : Word} (hrsvd : w.extractLsb' 8 24 = 0)
    (hop : ReservedOpcode (w.extractLsb' 0 8).toNat) : decode w = .error .reservedOpcode := by
  rw [toNat_opcodeBits] at hop
  rw [decode, if_pos (reservedBits_eq_zero.1 hrsvd), decodeOpcode_reserved hop.not_defined]

/-- No reserved word decodes; a set bit of RSVD is the reason that counts (30_encoding.md R105). -/
theorem ReservedWord.decode_error {w : Word} (h : ReservedWord w) : ∃ e, decode w = .error e := by
  by_cases hrsvd : w.extractLsb' 8 24 = 0
  · exact ⟨_, decode_reservedOpcode hrsvd (h.resolve_left (not_not_intro hrsvd))⟩
  · exact ⟨_, decode_reservedBits hrsvd⟩

end Sys2Proof

namespace Sys2Proof.Machine

open Sys2Proof.Safety

variable {s : State}

/-! ### The sequencer and a word that names no command -/

theorem completed_of_decode_error {e : DecodeError} (h : decode s.op = .error e) :
    completed s = takeFailure .errCmd 0 0 s := by
  rw [completed, h]

/-- The sequencer's turn, taken from the inbox or because nothing is left, completes a busy machine (log 1). -/
theorem step_completes (hb : s.busy = true) (h : s.inbox = [] ∨ ∃ rest, s.inbox = .sequencerTurn :: rest) :
    step s = .next (completed (withInbox s.inbox.tail s)) := by
  obtain h | ⟨rest, h⟩ := h
  · rw [step_empty_busy h hb, h, List.tail_nil, withInbox_self s h]
  · rw [step_turn_busy h hb, h, List.tail_cons]

/-- A failed command leaves DMEM as it was (40_command_execution.md R146). -/
theorem takeFailure_dmem {code : ResultCode} (needR mR : Nat) (s : State) (h : code ≠ .ok) :
    (takeFailure code needR mR s).dmem = s.dmem :=
  dmemAfter_failed s h

/-- u is s after the completion step of a word that names no command (30_encoding.md R104, 60_exceptions.md R302). -/
def CommandRejected (s u : State) : Prop :=
  SameControl s { u with inbox := s.inbox } ∧ u.inbox = s.inbox.tail ∧ CompletedWith .errCmd 0 0 u ∧ u.dmem = s.dmem

theorem takeFailure_commandRejected (s : State) : CommandRejected s (takeFailure .errCmd 0 0 (withInbox s.inbox.tail s)) :=
  ⟨completionStep_sameControl (failWith .errCmd 0 0) s, rfl, completionStep_completedWith _ _,
    takeFailure_dmem 0 0 _ (by decide)⟩

/-- From every busy state that runs a reserved word, the completion step rejects the command. -/
theorem step_reservedWord (hb : s.busy = true) (hop : ReservedWord s.op)
    (h : s.inbox = [] ∨ ∃ rest, s.inbox = .sequencerTurn :: rest) : ∃ u, step s = .next u ∧ CommandRejected s u := by
  obtain ⟨e, he⟩ := hop.decode_error
  exact ⟨_, by rw [step_completes hb h, completed_of_decode_error (s := withInbox s.inbox.tail s) he],
    takeFailure_commandRejected s⟩

/-- A CMD write while idle is the start step, whatever the word (10_state.md R33, 40_command_execution.md R130). -/
theorem step_writeCmd_idle {w : Word} {rest : List Event} (hb : s.busy = false) (hr : s.resetLine = false)
    (h : s.inbox = .transaction { access := .write w, offset := registerWord .cmd, whole := true } :: rest) :
    step s = .next (respond (.write .okay) (startStep w (withInbox rest s))) := by
  rw [step_writeRegister .cmd hr h, writeRegister, writeCmd, withInbox_busy, if_neg (Bool.eq_false_iff.1 hb)]

end Sys2Proof.Machine
end

section
/-! PROOF. The statements about the encoding (30_encoding.md). -/

namespace Sys2Proof.Machine

/-- Settles O2: the decoder inverts the encoder both ways, and each reason to reject is a test of one field. -/
theorem decodeIsExactlyEncode : Obligations.DecodeIsExactlyEncode := by
  unfold Obligations.DecodeIsExactlyEncode
  exact ⟨fun i _ => decode_encode i, fun w i => decode_eq_ok_iff_encode, Instr.mem_all, nodup_commandWords, rfl,
    fun w => ⟨decode_reservedBits, decode_reservedOpcode⟩⟩

/-- Settles O3: the accepted write leads to a busy state that runs the word, and every such state rejects it. -/
theorem reservedWordStartsThenFailsWithErrCmd : Obligations.ReservedWordStartsThenFailsWithErrCmd := by
  unfold Obligations.ReservedWordStartsThenFailsWithErrCmd
  refine ⟨fun s hb hop h => step_reservedWord hb hop h, fun s w rest hw hb hr hi => ?_⟩
  obtain ⟨u, hu, hsame, hinbox, hcompleted, hdmem⟩ :=
    step_reservedWord (s := respond (.write .okay) (startStep w (withInbox (.sequencerTurn :: rest) s))) rfl hw
      (.inr ⟨rest, rfl⟩)
  exact ⟨_, u, step_writeCmd_idle hb hr hi, rfl, rfl, rfl, hu, hsame, hinbox, hcompleted, hdmem⟩

/-- Settles O1: the 15 words are the commands' words. -/
theorem opcodeMapDecodes : Obligations.OpcodeMapDecodes := by
  unfold Obligations.OpcodeMapDecodes
  exact ⟨decode_encode .nop, decode_encode .fft, decode_encode .ifft, decode_encode .fftr2, decode_encode .fftbl,
    decode_encode .convc, decode_encode .convr, decode_encode .fft2r, decode_encode .absfft, decode_encode .absfft2,
    decode_encode .bitrev, decode_encode .cmul, decode_encode .scale, decode_encode .twtab, decode_encode .chirptab⟩

end Sys2Proof.Machine
end

section
/-! SUPPORT. The size arithmetic in closed form, and when the scratch need leaves 32 bits (40_command_execution.md R151–R153,
41_transform.md R181). -/

namespace Sys2Proof.Machine

open Sys2Proof.Safety

variable {n : Nat}

/-! ### The Bluestein length between powers of two -/

theorem bluesteinLength_le_two_pow {k : Nat} (h : 2 * n < 2 ^ k) : bluesteinLength n ≤ 2 ^ k := by
  by_cases hn : n = 0
  · rw [bluesteinLength, if_pos hn]
    exact Nat.one_le_two_pow
  · rw [bluesteinLength, if_neg hn]
    exact Nat.pow_le_pow_right two_pos ((Nat.log2_lt (by omega)).2 h)

theorem two_pow_succ_le_bluesteinLength {k : Nat} (h : 2 ^ k ≤ 2 * n) : 2 ^ (k + 1) ≤ bluesteinLength n := by
  have hn : n ≠ 0 := by
    have := Nat.two_pow_pos k
    omega
  rw [bluesteinLength, if_neg hn]
  exact Nat.pow_le_pow_right two_pos (Nat.succ_le_succ ((Nat.le_log2 (by omega)).2 h))

/-- A power of two below 2^(k+1) is at most 2^k. -/
theorem isPow2_le_of_lt {k : Nat} (hn : isPow2 n = true) (h : n < 2 ^ (k + 1)) : n ≤ 2 ^ k := by
  obtain ⟨j, rfl⟩ := (isPow2_iff n).1 hn
  exact Nat.pow_le_pow_right two_pos (Nat.lt_succ_iff.1 ((Nat.pow_lt_pow_iff_right one_lt_two).1 h))

/-! ### Scratch needs and top lengths -/

theorem tNeed_of_isPow2 (h : isPow2 n = true) : tNeed n = 2 * (n / 2) := by
  rw [tNeed, if_pos h, r2Need]

theorem tNeed_of_not_isPow2 (h : isPow2 n = false) : tNeed n = blNeed n := by
  rw [tNeed, if_neg (Bool.eq_false_iff.1 h)]

/-- TNEED(n) written out (40_command_execution.md R151). -/
theorem tNeed_eq (hn : 1 ≤ n) : tNeed n = if isPow2 n then 2 * (n / 2) else 2 * n + 11 * bluesteinLength n := by
  rw [tNeed, blNeed_eq (by omega), r2Need]

/-- The commands whose transforms go through the dispatcher: they use the Bluestein adapter exactly when n is no power of two
(40_command_execution.md R152). -/
def dispatched : List Instr := [.fft, .ifft, .convc, .convr, .fft2r, .absfft, .absfft2]

theorem scratchNeed_transform {c : Instr} (h : c ∈ [Instr.fft, .ifft]) (n : Nat) : scratchNeed c n = tNeed n := by
  fin_cases h <;> rfl

theorem scratchNeed_packing {c : Instr} (h : c ∈ [Instr.fft2r, .absfft, .absfft2]) (n : Nat) :
    scratchNeed c n = 2 * n + tNeed n := by
  fin_cases h <;> rfl

/-- Beside its transforms, a dispatched command needs at most five sequences of n words (40_command_execution.md R151). -/
theorem scratchNeed_of_dispatched {c : Instr} (h : c ∈ dispatched) (n : Nat) :
    ∃ a ≤ 5, scratchNeed c n = a * n + tNeed n := by
  fin_cases h
  · exact ⟨0, by omega, by rw [scratchNeed]; omega⟩
  · exact ⟨0, by omega, by rw [scratchNeed]; omega⟩
  · exact ⟨4, by omega, rfl⟩
  · exact ⟨5, by omega, by rw [scratchNeed, ccNeed]; omega⟩
  · exact ⟨2, by omega, rfl⟩
  · exact ⟨2, by omega, rfl⟩
  · exact ⟨2, by omega, rfl⟩

theorem topLength_of_dispatched {c : Instr} (h : c ∈ dispatched) (n : Nat) :
    topLength c n = if isPow2 n then 0 else bluesteinLength n := by
  have htop : bluesteinAtTop c n = !isPow2 n := by
    fin_cases h <;> rfl
  rw [topLength, htop]
  cases isPow2 n <;> rfl

/-- The commands that use neither transform nor scratch (40_command_execution.md R151, R152). -/
def scratchFree : List Instr := [.nop, .bitrev, .cmul, .scale, .twtab, .chirptab]

theorem sizes_of_scratchFree {c : Instr} (h : c ∈ scratchFree) (n : Nat) : scratchNeed c n = 0 ∧ topLength c n = 0 := by
  fin_cases h <;> exact ⟨rfl, rfl⟩

/-- As far as its sizes go, every command is of one of four kinds (40_command_execution.md R151, R152). -/
theorem sizes_kind (c : Instr) : c ∈ dispatched ∨ c ∈ scratchFree ∨ c = .fftr2 ∨ c = .fftbl := by
  cases c <;> decide

theorem bluesteinLength_le_blNeed (n : Nat) : bluesteinLength n ≤ blNeed n := by
  unfold blNeed
  omega

/-- The scratch need covers the Bluestein length, so the need alone decides an overflow (40_command_execution.md R153). -/
theorem topLength_le_scratchNeed (c : Instr) (n : Nat) : topLength c n ≤ scratchNeed c n := by
  obtain h | h | rfl | rfl := sizes_kind c
  · obtain ⟨a, -, hneed⟩ := scratchNeed_of_dispatched h n
    rw [topLength_of_dispatched h, hneed]
    have hle := bluesteinLength_le_blNeed n
    split
    · omega
    · next hp =>
      rw [tNeed_of_not_isPow2 (Bool.eq_false_iff.2 hp)]
      omega
  · exact (sizes_of_scratchFree h n).2 ▸ Nat.zero_le _
  · exact Nat.zero_le _
  · exact bluesteinLength_le_blNeed n

theorem not_sizesFit_iff {c : Instr} {l : Operands} : ¬ SizesFit c l ↔ 2 ^ 32 - 1 < scratchNeed c l.length := by
  have := topLength_le_scratchNeed c l.length
  unfold SizesFit
  omega

/-! ### Where the scratch need leaves 32 bits -/

/-- From 2^27 on M(n) is at least 2^29, and 11·M(n) exceeds 32 bits; below, M(n) is at most 2^28, and the need does not. -/
theorem blNeed_overflow_iff {a : Nat} (ha : a ≤ 5) : 2 ^ 32 - 1 < a * n + blNeed n ↔ 2 ^ 27 ≤ n := by
  unfold blNeed r2Need
  by_cases hn : 2 ^ 27 ≤ n
  · have hm : 2 ^ 29 ≤ bluesteinLength n := two_pow_succ_le_bluesteinLength (k := 28) (by omega)
    exact iff_of_true (by omega) hn
  · have hm : bluesteinLength n ≤ 2 ^ 28 := bluesteinLength_le_two_pow (by omega)
    have han : a * n ≤ 5 * n := Nat.mul_le_mul_right n ha
    exact iff_of_false (by omega) hn

/-- A convolution of a power of two needs 5n words for two complex signals, 6n for two real ones. -/
theorem convNeed_overflow_iff {c : Instr} (hc : c ∈ [Instr.convc, .convr]) (hn : isPow2 n = true) :
    2 ^ 32 - 1 < scratchNeed c n ↔ 2 ^ 30 ≤ n := by
  have hgap : n < 2 ^ 30 → n ≤ 2 ^ 29 := isPow2_le_of_lt (k := 29) hn
  fin_cases hc <;> simp only [scratchNeed, ccNeed, tNeed_of_isPow2 hn] <;> omega

/-- The packing family needs 3n words for a power of two above 1. -/
theorem packNeed_overflow_iff {c : Instr} (hc : c ∈ [Instr.fft2r, .absfft, .absfft2]) (hn : isPow2 n = true)
    (hlt : n < 2 ^ 32) : 2 ^ 32 - 1 < scratchNeed c n ↔ n = 2 ^ 31 := by
  have htop : n ≤ 2 ^ 31 := isPow2_le_of_lt (k := 31) hn hlt
  have hgap : n < 2 ^ 31 → n ≤ 2 ^ 30 := isPow2_le_of_lt (k := 30) hn
  rw [scratchNeed_packing hc, tNeed_of_isPow2 hn]
  omega

/-- The radix-2 transform of a power of two needs at most n words. -/
theorem radix2Need_le {c : Instr} (hc : c ∈ [Instr.fft, .ifft, .fftr2]) (hn : isPow2 n = true) : scratchNeed c n ≤ n := by
  have hneed : scratchNeed c n = 2 * (n / 2) := by
    fin_cases hc
    · exact tNeed_of_isPow2 hn
    · exact tNeed_of_isPow2 hn
    · rfl
  omega

end Sys2Proof.Machine
end

section
/-! SUPPORT. The dispatcher and the convolution engine at a power of two (40_command_execution.md R154,
41_transform.md R190). -/

namespace Sys2Proof.Machine

theorem transform_of_isPow2 {n : Nat} (h : isPow2 n = true) (x : Signal) : transform n x = radix2 n x := by
  rw [transform, if_neg (Nat.ne_of_gt (isPow2_pos h)), if_pos h]

theorem convolve_of_isPow2 {n : Nat} (h : isPow2 n = true) : convolve n = convolveBy (radix2 n) n := by
  funext x y
  rw [convolve, funext (transform_of_isPow2 h)]

end Sys2Proof.Machine
end

section
/-! SUPPORT. Exec step by step: what each failing step answers, the states a failed and a trivial command leave, and which
operands a command reads (40_command_execution.md R140, R145–R147). -/

namespace Sys2Proof.Machine

open Sys2Proof.Safety

/-! ### Step 2, the length preconditions -/

theorem lengthPrecondition_isPow2 {c : Instr} (h : c ∈ [Instr.fftr2, .bitrev, .twtab]) (n : Nat) :
    lengthPrecondition c n = if isPow2 n then none else some .errNotPow2 := by
  fin_cases h <;> rfl

theorem lengthPrecondition_even {c : Instr} (h : c ∈ [Instr.fft2r, .absfft2]) (n : Nat) :
    lengthPrecondition c n = if n % 2 = 0 then none else some .errOddN := by
  fin_cases h <;> rfl

theorem lengthPrecondition_free {c : Instr} (h : c ∉ [Instr.fftr2, .bitrev, .twtab, .fft2r, .absfft2]) (n : Nat) :
    lengthPrecondition c n = none := by
  cases c with
  | fftr2 | bitrev | twtab | fft2r | absfft2 => exact absurd (by decide) h
  | _ => rfl

/-- Every command is of one of three kinds, as far as its length precondition goes. -/
theorem lengthPrecondition_kind (c : Instr) :
    c ∈ [Instr.fftr2, .bitrev, .twtab] ∨ c ∈ [Instr.fft2r, .absfft2] ∨
      c ∉ [Instr.fftr2, .bitrev, .twtab, .fft2r, .absfft2] := by
  cases c <;> decide

/-- An even length meets every precondition but those on powers of two. -/
theorem lengthPrecondition_of_even {c : Instr} {n : Nat} (h : c ∉ [Instr.fftr2, .bitrev, .twtab]) (hn : n % 2 = 0) :
    lengthPrecondition c n = none := by
  obtain hpow | heven | hfree := lengthPrecondition_kind c
  · exact absurd hpow h
  · rw [lengthPrecondition_even heven, if_pos hn]
  · exact lengthPrecondition_free hfree n

theorem lengthPrecondition_ne_errOverflow (c : Instr) (n : Nat) : lengthPrecondition c n ≠ some .errOverflow := by
  obtain hpow | heven | hfree := lengthPrecondition_kind c
  · rw [lengthPrecondition_isPow2 hpow]
    split <;> decide
  · rw [lengthPrecondition_even heven]
    split <;> decide
  · rw [lengthPrecondition_free hfree]
    decide

theorem lengthPrecondition_transform_conv {c : Instr} (hc : c ∈ [Instr.fft, .ifft, .convc, .convr]) (n : Nat) :
    lengthPrecondition c n = none := by
  have hfree : ∀ c ∈ [Instr.fft, .ifft, .convc, .convr], c ∉ [Instr.fftr2, .bitrev, .twtab, .fft2r, .absfft2] := by
    decide
  exact lengthPrecondition_free (hfree c hc) n

theorem lengthPrecondition_packing {c : Instr} {n : Nat} (hc : c ∈ [Instr.fft2r, .absfft, .absfft2])
    (h : n % 2 = 0 ∨ c = .absfft) : lengthPrecondition c n = none := by
  have hany : ∀ c ∈ [Instr.fft2r, .absfft, .absfft2], c ∉ [Instr.fftr2, .bitrev, .twtab] := by decide
  obtain heven | rfl := h
  · exact lengthPrecondition_of_even (hany c hc) heven
  · rfl

/-! ### Steps 2–7, in their order -/

/-- What Exec returns when one of steps 4–7 fails: the code, with the size arithmetic reached (60_exceptions.md R302). -/
def checkFailed (code : ResultCode) (c : Instr) (l : Operands) : ExecResult :=
  failWith code (needReported (scratchNeed c l.length)) (lengthReported (topLength c l.length))

section
variable {c : Instr} {l : Operands} {words : Nat} (f : SemFn) (m : Memory)

theorem execSteps_of_precondition {code : ResultCode} (h : lengthPrecondition c l.length = some code) :
    execSteps c f l words m = failWith code 0 0 := by
  simp only [execSteps, h]

theorem execSteps_of_not_hasWork (hp : lengthPrecondition c l.length = none) (hw : ¬ HasWork c l) :
    execSteps c f l words m = { res := .ok, writes := [], needR := 0, mR := 0 } := by
  have htrivial : c = .nop ∨ l.length = 0 := by tauto
  simp only [execSteps, hp, if_pos htrivial]

/-- With work to do, the first of steps 4–7 that fails decides the result (60_exceptions.md R301). -/
theorem execSteps_of_hasWork (hp : lengthPrecondition c l.length = none) (hw : HasWork c l) :
    execSteps c f l words m =
      if SizesFit c l then
        if RangesFit c l words then
          if ScratchSuffices c l then
            if RegionsDisjoint c l then
              { res := .ok, writes := performWrites c f l m, needR := needReported (scratchNeed c l.length),
                mR := lengthReported (topLength c l.length) }
            else checkFailed .errOverlap c l
          else checkFailed .errNomem c l
        else checkFailed .errRange c l
      else checkFailed .errOverflow c l := by
  have h4 : sizeOverflow (topLength c l.length) (scratchNeed c l.length) = true ↔ ¬ SizesFit c l := by
    rw [← Bool.not_eq_false, sizeOverflow_eq_false]
  have h5 : rangeFailure c l words (scratchNeed c l.length) = true ↔ ¬ RangesFit c l words := by
    rw [← Bool.not_eq_false, rangeFailure_eq_false]
  have h6 : l.scrSize.toNat < scratchNeed c l.length ↔ ¬ ScratchSuffices c l := not_le.symm
  have h7 : overlapFailure c l (scratchNeed c l.length) = true ↔ ¬ RegionsDisjoint c l := by
    rw [← Bool.not_eq_false, overlapFailure_eq_false]
  simp only [execSteps, hp, if_neg (not_or.2 hw), h4, h5, h6, h7, ite_not, checkFailed]

/-- ERR_OVERFLOW comes from step 4 alone (40_command_execution.md R145, R153). -/
theorem execSteps_errOverflow_iff :
    (execSteps c f l words m).res = .errOverflow ↔
      lengthPrecondition c l.length = none ∧ HasWork c l ∧ ¬ SizesFit c l := by
  cases hp : lengthPrecondition c l.length with
  | some code =>
    rw [execSteps_of_precondition f m hp]
    exact iff_of_false (fun h => lengthPrecondition_ne_errOverflow c l.length (h ▸ hp)) nofun
  | none =>
    by_cases hw : HasWork c l
    · rw [execSteps_of_hasWork f m hp hw]
      by_cases hs : SizesFit c l
      · rw [if_pos hs]
        refine iff_of_false ?_ fun h => h.2.2 hs
        split_ifs <;> exact nofun
      · exact iff_of_true (by rw [if_neg hs]; rfl) ⟨rfl, hw, hs⟩
    · rw [execSteps_of_not_hasWork f m hp hw]
      exact iff_of_false nofun fun h => hw h.2.1

end

/-! ### The state a completion leaves -/

theorem runCommand_completedWith {c : Instr} {f : SemFn} {s : State} {r : ExecResult}
    (h : execSteps c f s.snapshot s.dmemWords s.dmem = r) : CompletedWith r.res r.needR r.mR (runCommand c f s) := by
  rw [runCommand, h]
  exact completionStep_completedWith r s

/-- A failed completion changes STATUS, SCR_NEED and BL_M only (40_command_execution.md R146). -/
theorem completionStep_failed {r : ExecResult} (s : State) (h : r.res ≠ .ok) :
    completionStep r s = { s with
      result := r.res, fail := true, busy := false, done := true,
      scrNeed := BitVec.ofNat 32 r.needR, blM := BitVec.ofNat 32 r.mR } := by
  simp [completionStep, dmemAfter, drawsAfter, h]

/-- A failed length precondition, by the whole next state (40_command_execution.md R145). -/
theorem exec_of_precondition {c : Instr} {s : State} {code : ResultCode}
    (h : lengthPrecondition c s.snapshot.length = some code) (hcode : code ≠ .ok) :
    exec c s = .next { s with
      result := code, fail := true, busy := false, done := true, scrNeed := 0, blM := 0 } := by
  rw [exec_eq, runCommand, execSteps_of_precondition _ _ h, completionStep_failed s hcode]
  rfl

/-- A trivial command, by the whole next state (40_command_execution.md R145). -/
theorem exec_of_not_hasWork {c : Instr} {s : State} (hp : lengthPrecondition c s.snapshot.length = none)
    (hw : ¬ HasWork c s.snapshot) :
    exec c s = .next { s with
      result := .ok, fail := false, busy := false, done := true, scrNeed := 0, blM := 0 } := by
  rw [exec_eq, runCommand, execSteps_of_not_hasWork _ _ hp hw]
  rfl

theorem exec_of_decode {c : Instr} {s : State} (h : decode s.op = .ok c) : exec c s = .next (completed s) := by
  rw [exec_eq, completed, h]

/-- ERR_OVERFLOW, by the length and the scratch need (40_command_execution.md R153). -/
theorem runCommand_errOverflow_iff {c : Instr} {f : SemFn} {s : State} :
    (runCommand c f s).result = .errOverflow ↔
      lengthPrecondition c s.snapshot.length = none ∧ HasWork c s.snapshot ∧
        2 ^ 32 - 1 < scratchNeed c s.snapshot.length := by
  rw [runCommand, completionStep_result, execSteps_errOverflow_iff, not_sizesFit_iff]

/-- A command that runs the Bluestein adapter on n overflows exactly from 2^27 on. -/
theorem runCommand_bluestein_errOverflow_iff {c : Instr} {f : SemFn} {s : State} {a : Nat}
    (hp : lengthPrecondition c s.snapshot.length = none) (hc : c ≠ .nop) (ha : a ≤ 5)
    (hneed : scratchNeed c s.snapshot.length = a * s.snapshot.length + blNeed s.snapshot.length) :
    (runCommand c f s).result = .errOverflow ↔ 2 ^ 27 ≤ s.snapshot.length := by
  rw [runCommand_errOverflow_iff, hneed, blNeed_overflow_iff ha]
  refine ⟨fun h => h.2.2, fun h => ⟨hp, ⟨hc, ?_⟩, h⟩⟩
  omega

/-- A dispatched command runs the adapter where n is no power of two (40_command_execution.md R152). -/
theorem runCommand_dispatched_errOverflow_iff {c : Instr} {f : SemFn} {s : State} (hc : c ∈ dispatched)
    (hn : isPow2 s.snapshot.length = false) (hp : lengthPrecondition c s.snapshot.length = none) :
    (runCommand c f s).result = .errOverflow ↔ 2 ^ 27 ≤ s.snapshot.length := by
  obtain ⟨a, ha, hneed⟩ := scratchNeed_of_dispatched hc s.snapshot.length
  rw [tNeed_of_not_isPow2 hn] at hneed
  exact runCommand_bluestein_errOverflow_iff hp (ne_of_mem_of_not_mem hc (by decide)) ha hneed

theorem hasWork_of_isPow2 {c : Instr} {l : Operands} (hc : c ≠ .nop) (hn : isPow2 l.length = true) : HasWork c l :=
  ⟨hc, Nat.ne_of_gt (isPow2_pos hn)⟩

theorem runCommand_conv_errOverflow_iff {c : Instr} {f : SemFn} {s : State} (hc : c ∈ [Instr.convc, .convr])
    (hn : isPow2 s.snapshot.length = true) :
    (runCommand c f s).result = .errOverflow ↔ 2 ^ 30 ≤ s.snapshot.length := by
  have hsub : [Instr.convc, .convr] ⊆ [Instr.fft, .ifft, .convc, .convr] := by decide
  have hp := lengthPrecondition_transform_conv (hsub hc) s.snapshot.length
  have hw := hasWork_of_isPow2 (ne_of_mem_of_not_mem hc (by decide)) hn
  rw [runCommand_errOverflow_iff, convNeed_overflow_iff hc hn]
  exact ⟨fun h => h.2.2, fun h => ⟨hp, hw, h⟩⟩

theorem runCommand_radix2_ne_errOverflow {c : Instr} {f : SemFn} {s : State} (hc : c ∈ [Instr.fft, .ifft, .fftr2])
    (hn : isPow2 s.snapshot.length = true) : (runCommand c f s).result ≠ .errOverflow := by
  rw [ne_eq, runCommand_errOverflow_iff]
  rintro ⟨-, -, hneed⟩
  have hle := radix2Need_le hc hn
  have hlt : s.snapshot.length < 2 ^ 32 := s.snapshot.n.isLt
  omega

/-- For a power of two above 1 the packing family passes step 2 (43_packing.md R263; log 24). -/
theorem runCommand_packing_errOverflow_iff {c : Instr} {f : SemFn} {s : State}
    (hc : c ∈ [Instr.fft2r, .absfft, .absfft2]) (hn : isPow2 s.snapshot.length = true) :
    (runCommand c f s).result = .errOverflow ↔ s.snapshot.length = 2 ^ 31 := by
  have hw := hasWork_of_isPow2 (ne_of_mem_of_not_mem hc (by decide)) hn
  rw [runCommand_errOverflow_iff, packNeed_overflow_iff hc hn s.snapshot.n.isLt]
  exact ⟨fun h => h.2.2, fun h => ⟨lengthPrecondition_packing hc (.inl (h ▸ by decide)), hw, h⟩⟩

/-! ### What a command reads of its operands -/

/-- The operands l' give command c the same length, the same regions and, where it needs scratch, the same scratch registers
as l (40_command_execution.md R140, R145). -/
structure SameOperands (c : Instr) (l l' : Operands) : Prop where
  length_eq : l'.length = l.length
  inputs_eq : inputRegions c l' = inputRegions c l
  outputs_eq : outputRegions c l' = outputRegions c l
  scratch_eq : scratchNeed c l.length = 0 ∨ (l'.scrBase = l.scrBase ∧ l'.scrSize = l.scrSize)

/-- An empty region overlaps nothing (40_command_execution.md R142). -/
theorem overlaps_scratchUsed_zero (r : Region) (l : Operands) : overlaps r (scratchUsed l 0) = false := by
  simp [overlaps, scratchUsed, regionAt]

/-- Exec reads nothing else of the operands. -/
theorem SameOperands.execSteps_eq {c : Instr} {l l' : Operands} (h : SameOperands c l l') (f : SemFn) (words : Nat)
    (m : Memory) : execSteps c f l' words m = execSteps c f l words m := by
  obtain ⟨hlen, hin, hout, hscr⟩ := h
  have hrange : rangeFailure c l' words (scratchNeed c l.length) = rangeFailure c l words (scratchNeed c l.length) := by
    rw [rangeFailure, rangeFailure, hin, hout]
    obtain h0 | ⟨hbase, hsize⟩ := hscr
    · simp only [h0, lt_irrefl, decide_false, Bool.false_and]
    · rw [hbase, hsize]
  have hsmall : l'.scrSize.toNat < scratchNeed c l.length ↔ l.scrSize.toNat < scratchNeed c l.length := by
    obtain h0 | ⟨-, hsize⟩ := hscr
    · simp only [h0, Nat.not_lt_zero]
    · rw [hsize]
  have hoverlap : overlapFailure c l' (scratchNeed c l.length) = overlapFailure c l (scratchNeed c l.length) := by
    rw [overlapFailure, overlapFailure, hin, hout]
    obtain h0 | ⟨hbase, -⟩ := hscr
    · simp only [h0, overlaps_scratchUsed_zero]
    · simp only [scratchUsed, hbase]
  simp only [execSteps, performWrites, hlen, hin, hout, hrange, hsmall, hoverlap]

/-- The regions of a command come from N and the registers the command names (40_command_execution.md R140). -/
theorem regions_eq_of_namedOperands {c : Instr} {l l' : Operands} (hn : l'.length = l.length)
    (h : namedOperands c l' = namedOperands c l) :
    inputRegions c l' = inputRegions c l ∧ outputRegions c l' = outputRegions c l := by
  cases c <;>
    simp only [namedOperands, List.cons.injEq, and_true] at h <;>
    simp only [inputRegions, outputRegions, signalX, signalY, realXY, signalOut, hn, h, and_self]

/-- Without work to do, the length precondition is all that Exec reads, and no scratch is used. -/
theorem execSteps_eq_of_not_hasWork {c : Instr} {l l' : Operands} (f : SemFn) (words : Nat) (m : Memory)
    (hp : lengthPrecondition c l'.length = lengthPrecondition c l.length) (hw : ¬ HasWork c l) (hw' : ¬ HasWork c l') :
    execSteps c f l' words m = execSteps c f l words m ∧ (execSteps c f l words m).needR = 0 := by
  cases h : lengthPrecondition c l.length with
  | some code =>
    rw [execSteps_of_precondition f m h, execSteps_of_precondition f m (hp.trans h)]
    exact ⟨rfl, rfl⟩
  | none =>
    rw [execSteps_of_not_hasWork f m h hw, execSteps_of_not_hasWork f m (hp.trans h) hw']
    exact ⟨rfl, rfl⟩

/-- need_r never exceeds the need, so a command without scratch need uses no scratch (40_command_execution.md R147). -/
theorem execSteps_needR_le (c : Instr) (f : SemFn) (l : Operands) (words : Nat) (m : Memory) :
    (execSteps c f l words m).needR ≤ scratchNeed c l.length := by
  obtain ⟨code, -, he⟩ | ⟨-, -, he⟩ | ⟨code, -, -, he⟩ | ⟨-, he⟩ := execSteps_cases c f l words m
  · exact he ▸ Nat.zero_le _
  · exact he ▸ Nat.zero_le _
  · exact he ▸ Nat.min_le_left _ _
  · exact he ▸ le_rfl

/-- Two snapshots with the same Exec result, and the same scratch base where scratch is used, complete alike. -/
theorem exec_withSnapshot {c : Instr} {s : State} {l : Operands}
    (he : execSteps c (semantics c) l s.dmemWords s.dmem =
      execSteps c (semantics c) s.snapshot s.dmemWords s.dmem)
    (hb : (execSteps c (semantics c) s.snapshot s.dmemWords s.dmem).needR = 0 ∨ l.scrBase = s.snapshot.scrBase) :
    exec c { s with snapshot := l } = .next { runCommand c (semantics c) s with snapshot := l } := by
  rw [exec_eq, runCommand, runCommand, he]
  generalize execSteps c (semantics c) s.snapshot s.dmemWords s.dmem = r at hb
  have hdmem : dmemAfter r { s with snapshot := l } = dmemAfter r s := by
    unfold dmemAfter
    obtain h0 | hbase := hb
    · rw [h0]
      rfl
    · rw [hbase]
  simp only [completionStep, hdmem, drawsAfter]

end Sys2Proof.Machine
end

section
/-! PROOF. The statements about command execution (40_command_execution.md). -/

namespace Sys2Proof.Machine

open Sys2Proof.Safety

/-- Settles O24: the sizes in closed form, then one failing step after the other. -/
theorem earliestFailingStepDecidesResult : Obligations.EarliestFailingStepDecidesResult := by
  unfold Obligations.EarliestFailingStepDecidesResult
  refine ⟨isPow2_iff, fun c n => ⟨fun h => lengthPrecondition_isPow2 h n, fun h => lengthPrecondition_even h n,
    fun h => lengthPrecondition_free h n⟩, fun c n hn => ?_, fun c s => ⟨_, exec_eq c s, ?_⟩⟩
  · have ht := tNeed_eq hn
    refine ⟨fun h => ?_, ?_, ?_, ?_, ?_, fun h => ?_, fun h => sizes_of_scratchFree h n, ?_, ?_,
      fun h => topLength_of_dispatched h n⟩
    · exact (scratchNeed_transform h n).trans ht
    · rintro rfl
      rfl
    · rintro rfl
      exact blNeed_eq (by omega)
    · rintro rfl
      exact congrArg (4 * n + ·) ht
    · rintro rfl
      exact congrArg (4 * n + · + n) ht
    · rw [scratchNeed_packing h, ht]
    · rintro rfl
      rfl
    · rintro rfl
      rfl
  · refine ⟨fun code h => runCommand_completedWith (execSteps_of_precondition _ _ h), fun hp => ⟨fun hw =>
      runCommand_completedWith (execSteps_of_not_hasWork _ _ hp hw), fun hw => ?_⟩⟩
    have he := execSteps_of_hasWork (words := s.dmemWords) (semantics c) s.dmem hp hw
    refine ⟨fun h4 => ?_, fun h4 => ⟨fun h5 => ?_, fun h5 => ⟨fun h6 => ?_, fun h6 => ⟨fun h7 => ?_, fun h7 => ?_⟩⟩⟩⟩
    · exact runCommand_completedWith (he.trans (if_neg h4))
    · rw [if_pos h4] at he
      exact runCommand_completedWith (he.trans (if_neg h5))
    · rw [if_pos h4, if_pos h5] at he
      exact runCommand_completedWith (he.trans (if_neg h6))
    · rw [if_pos h4, if_pos h5, if_pos h6] at he
      exact runCommand_completedWith (he.trans (if_neg h7))
    · exact runCommand_completedWith (execSteps_ready _ _ ⟨hp, hw, h4, h5, h6, h7⟩)

/-- Settles O25: the length precondition fails, at 0 as well. -/
theorem notPowerOfTwoFails : Obligations.NotPowerOfTwoFails := by
  unfold Obligations.NotPowerOfTwoFails
  intro c s hc hn
  have hpow : ¬ isPow2 s.snapshot.length = true := fun h =>
    let ⟨k, hk⟩ := (isPow2_iff _).1 h
    hn k hk
  exact exec_of_precondition (by rw [lengthPrecondition_isPow2 hc, if_neg hpow]) (by decide)

/-- Settles O27: 0 is even, so no precondition fails, and there is no work to do. -/
theorem zeroLengthSucceedsWithNoWrite : Obligations.ZeroLengthSucceedsWithNoWrite := by
  unfold Obligations.ZeroLengthSucceedsWithNoWrite
  intro c s hc hn
  have hlen : s.snapshot.length = 0 := congrArg BitVec.toNat hn
  exact exec_of_not_hasWork (lengthPrecondition_of_even hc (by rw [hlen])) fun hw => hw.2 hlen

/-- Settles O29: ERR_OVERFLOW is the scratch need above 32 bits, which has a closed form for each kind of command. -/
theorem overflowThresholds : Obligations.OverflowThresholds := by
  unfold Obligations.OverflowThresholds
  intro c s
  refine ⟨_, exec_eq c s, ?_⟩
  have hsub : [Instr.fft, .ifft, .convc, .convr] ⊆ dispatched ∧ [Instr.fft2r, .absfft, .absfft2] ⊆ dispatched := by
    decide
  refine ⟨fun hc hn => ?_, ?_, runCommand_conv_errOverflow_iff, runCommand_radix2_ne_errOverflow, fun hc hn heven => ?_,
    runCommand_packing_errOverflow_iff⟩
  · exact runCommand_dispatched_errOverflow_iff (hsub.1 hc) hn (lengthPrecondition_transform_conv hc _)
  · rintro rfl
    exact runCommand_bluestein_errOverflow_iff (a := 0) rfl (by decide) (by omega) (by simp [scratchNeed])
  · exact runCommand_dispatched_errOverflow_iff (hsub.2 hc) hn (lengthPrecondition_packing hc heven)

/-- Settles O30: a completion that fails is a failed completion step, whatever the word. -/
theorem failedCommandLeavesDmem : Obligations.FailedCommandLeavesDmem := by
  unfold Obligations.FailedCommandLeavesDmem
  intro s hb hi
  refine ⟨_, step_completes hb hi, fun hres => ?_⟩
  rw [completed_commandResult] at hres ⊢
  exact completionStep_failed (withInbox s.inbox.tail s) hres

/-- Settles O31: a command that is not ready leaves DMEM alone, a ready one what it does not touch. -/
theorem successfulCommandFrame : Obligations.SuccessfulCommandFrame := by
  unfold Obligations.SuccessfulCommandFrame
  intro c s
  refine ⟨_, exec_eq c s, fun _ => ⟨fun hw => runCommand_dmem_of_not_ready fun h => hw h.work, fun a ha => ?_⟩⟩
  by_cases hready : CommandReady c s.snapshot s.dmemWords
  · obtain ⟨-, -, -, hframe⟩ := runCommand_ready hready
    exact hframe a ha
  · rw [runCommand_dmem_of_not_ready hready]

/-- Settles O32: with work to do both snapshots give Exec the same operands; without, the length alone counts. -/
theorem unnamedOperandsDoNotMatter : Obligations.UnnamedOperandsDoNotMatter := by
  unfold Obligations.UnnamedOperandsDoNotMatter
  intro c s l hn hscr hnamed
  refine ⟨_, exec_eq c s, ?_⟩
  have hlen (hc : c ≠ .nop) : l.length = s.snapshot.length := congrArg BitVec.toNat (hn hc)
  by_cases hw : HasWork c s.snapshot
  · obtain ⟨hin, hout⟩ := regions_eq_of_namedOperands (hlen hw.1) hnamed
    have hscratch : scratchNeed c s.snapshot.length = 0 ∨
        (l.scrBase = s.snapshot.scrBase ∧ l.scrSize = s.snapshot.scrSize) := by
      refine (Nat.eq_zero_or_pos _).imp_right fun hpos => hscr hw (fun hfree => ?_) hpos
      exact hpos.ne' (sizes_of_scratchFree (List.mem_cons_of_mem _ hfree) _).1
    have hsame : SameOperands c s.snapshot l := ⟨hlen hw.1, hin, hout, hscratch⟩
    refine exec_withSnapshot (hsame.execSteps_eq _ _ _) (hscratch.imp (fun h0 => ?_) fun h => h.1)
    exact Nat.le_zero.1 (h0 ▸ execSteps_needR_le _ _ _ _ _)
  · have hfree : lengthPrecondition c l.length = lengthPrecondition c s.snapshot.length ∧ ¬ HasWork c l := by
      by_cases hc : c = .nop
      · subst hc
        exact ⟨rfl, fun h => h.1 rfl⟩
      · rw [HasWork, hlen hc]
        exact ⟨rfl, hw⟩
    obtain ⟨he, h0⟩ := execSteps_eq_of_not_hasWork (semantics c) s.dmemWords s.dmem hfree.1 hw hfree.2
    exact exec_withSnapshot he (.inl h0)

/-- Settles O58: M(n) is a power of two, where the dispatcher takes the radix-2 engine. -/
theorem bluesteinUsesTheConvolutionEngine : Obligations.BluesteinUsesTheConvolutionEngine := by
  unfold Obligations.BluesteinUsesTheConvolutionEngine
  intro n x _
  have hpow := bluesteinLength_isPow2 n
  refine ⟨?_, transform_of_isPow2 hpow⟩
  rw [convolve_of_isPow2 hpow]
  rfl

/-- Settles O4: a busy sequencer's turn is the completion of the decoded command. -/
theorem stepRunsDecodedCommand : Obligations.StepRunsDecodedCommand := by
  unfold Obligations.StepRunsDecodedCommand
  refine ⟨fun s i hb hop => ⟨fun hi => ?_, fun rest hi => ?_⟩, fun s nbits w i hop => ?_⟩
  · rw [step_empty_busy hi hb, exec_of_decode hop]
  · rw [step_turn_busy hi hb, exec_of_decode (s := { s with inbox := rest }) hop]
    rfl
  · rw [exec_of_decode (s := startStep (tableWord nbits w) s) hop]
    exact step_turn_busy (s := s.withFetchWord nbits w) rfl rfl

/-- Settles O5: while idle a write to CMD is the start step. -/
theorem acceptedCmdWriteIsTheStartStep : Obligations.AcceptedCmdWriteIsTheStartStep := by
  unfold Obligations.AcceptedCmdWriteIsTheStartStep
  exact fun s w rest hb hr hi => step_writeCmd_idle hb hr hi

/-- Settles O28: NOP has no length precondition and no work. -/
theorem nopCompletesWithNoWrite : Obligations.NopCompletesWithNoWrite := by
  unfold Obligations.NopCompletesWithNoWrite
  exact fun s => exec_of_not_hasWork rfl fun hw => hw.1 rfl

end Sys2Proof.Machine
end

section
/-! SUPPORT. Signals compared sample by sample, the bit-reversal permuter, the pairs of a stage, the datapath at length 1
and the bounds of the Bluestein length (41_transform.md R172–R191; 42_convolution.md R231). -/

namespace Sys2Proof.Machine

/-! ### Equality of Signals -/

theorem list_ext_elem {x y : List FNum} {n : Nat} (hx : x.length = n) (hy : y.length = n)
    (h : ∀ i, i < n → elem x i = elem y i) : x = y := by
  refine List.ext_getElem (hx.trans hy.symm) fun i hi hj => ?_
  rw [← elem_eq_getElem x hi, ← elem_eq_getElem y hj, h i (hx ▸ hi)]

/-- Two Signals of length n with the same n samples are equal (00_scope.md R8). -/
theorem signal_ext {x y : Signal} {n : Nat} (hx : x.HasLength n) (hy : y.HasLength n)
    (h : ∀ i, i < n → x.sample i = y.sample i) : x = y := by
  have hre : x.re = y.re := list_ext_elem hx.1 hy.1 fun i hi => congrArg Cplx.re (h i hi)
  have him : x.im = y.im := list_ext_elem hx.2 hy.2 fun i hi => congrArg Cplx.im (h i hi)
  exact congrArg₂ Signal.mk hre him

/-! ### The permuter -/

theorem permute_sample {n i : Nat} (x : Signal) (h : i < n) :
    (permute n x).sample i = x.sample (bitReverse i n.log2) := sample_ofFn n _ h

/-- A reversed index stays inside a sequence whose length is a power of two. -/
theorem bitReverse_log2_lt {n : Nat} (h : isPow2 n = true) (i : Nat) : bitReverse i n.log2 < n :=
  (bitReverse_lt _ _).trans_eq (isPow2_log2 h)

theorem permute_permute {n : Nat} {x : Signal} (h : isPow2 n = true) (hx : x.HasLength n) :
    permute n (permute n x) = x := by
  refine signal_ext (permute_hasLength n _) hx fun i hi => ?_
  have hi' : i < 2 ^ n.log2 := hi.trans_eq (isPow2_log2 h).symm
  rw [permute_sample _ hi, permute_sample _ (bitReverse_log2_lt h i), bitReverse_bitReverse hi']

/-! ### The pairs of a stage -/

/-- A block of a stage lies inside the Signal (41_transform.md R176). -/
theorem block_inside {n size b : Nat} (hb : b < n / size) : b * size + size ≤ n := by
  rw [← Nat.succ_mul]
  exact Nat.mul_le_of_le_div _ _ _ hb

section

variable {x : Signal} {n h b q : Nat} (hx : x.HasLength n) (hb : b < n / (2 * h))
include hx hb

/-- Inside its own block, a position is where the block puts it. -/
theorem butterflyStage_sample_block {r : Nat} (hr : r < 2 * h) :
    (butterflyStage n (2 * h) x).sample (b * (2 * h) + r) =
      (butterflyBlock n (2 * h) (b * (2 * h)) x).sample (b * (2 * h) + r) := by
  have hdiv : (b * (2 * h) + r) / (2 * h) = b := by
    rw [Nat.div_eq_iff (by omega)]
    omega
  rw [butterflyStage_sample hx (by omega) (by rwa [hdiv]), hdiv]

variable (hq : q < h)
include hq

/-- After a stage, position q of block b holds the sum of its butterfly, taken on the Signal before the stage. -/
theorem butterflyStage_sample_low :
    (butterflyStage n (2 * h) x).sample (b * (2 * h) + q) =
      butterflyLow x (b * (2 * h) + q) h (twiddle n (q * (n / (2 * h)))) := by
  rw [butterflyStage_sample_block hx hb (by omega),
    butterflyBlock_sample n hx (by omega) (block_inside hb), if_pos (by omega), Nat.add_sub_cancel_left]

/-- After a stage, position q + h of block b holds the difference of its butterfly, taken on the Signal before the stage. -/
theorem butterflyStage_sample_high :
    (butterflyStage n (2 * h) x).sample (b * (2 * h) + q + h) =
      butterflyHigh x (b * (2 * h) + q) h (twiddle n (q * (n / (2 * h)))) := by
  rw [Nat.add_assoc, butterflyStage_sample_block hx hb (by omega),
    butterflyBlock_sample n hx (by omega) (block_inside hb), if_neg (by omega), if_pos (by omega),
    ← Nat.add_assoc, Nat.add_sub_cancel, Nat.add_sub_cancel_left]

end

/-! ### The dispatcher off the powers of two, and the datapath at length 1 -/

@[simp] theorem transform_zero (x : Signal) : transform 0 x = x := if_pos rfl

theorem transform_of_not_isPow2 {n : Nat} (h0 : n ≠ 0) (h : isPow2 n = false) (x : Signal) :
    transform n x = bluestein n x := by
  rw [transform, if_neg h0, if_neg (Bool.eq_false_iff.1 h)]

/-- The radix-2 engine has no stage at length 1, and its permuter moves index 0 to index 0 (41_transform.md R177). -/
theorem radix2_one {x : Signal} (hx : x.HasLength 1) : radix2 1 x = x := by
  have hstages : radix2 1 x = permute 1 x := rfl
  rw [hstages]
  refine signal_ext (permute_hasLength 1 x) hx fun i hi => ?_
  obtain rfl : i = 0 := by omega
  exact permute_sample x hi

theorem transform_one {x : Signal} (hx : x.HasLength 1) : transform 1 x = x :=
  (transform_of_isPow2 rfl x).trans (radix2_one hx)

theorem inverse_one {x : Signal} (hx : x.HasLength 1) : inverse 1 x = x := by
  rw [inverse, inverseBy, transform_one (swap_hasLength hx), swap_swap]

/-- The parts of a product are sums, so a division by 1.0 changes no bit of them (00_scope.md R18). -/
theorem divideBy_one_cmulPlain (u v : Cplx) : divideBy 1 (cmulPlain u v) = cmulPlain u v := by
  have hre : fdiv (cmulPlain u v).re (f64 1) = (cmulPlain u v).re := fdiv_one (fadd_isResult _ _)
  have him : fdiv (cmulPlain u v).im (f64 1) = (cmulPlain u v).im := fdiv_one (fadd_isResult _ _)
  rw [divideBy, hre, him]

theorem convolve_one {x y : Signal} (hx : x.HasLength 1) (hy : y.HasLength 1) :
    convolve 1 x y = Signal.ofFn 1 fun k => cmulPlain (x.sample k) (y.sample k) := by
  refine signal_ext (convolve_hasLength 1 x y) (ofFn_hasLength 1 _) fun k hk => ?_
  have hinv := inverse_one (ofFn_hasLength 1 fun k => cmulPlain (x.sample k) (y.sample k))
  rw [inverse] at hinv
  rw [convolve, convolveBy, transform_one hx, transform_one hy, sample_ofFn 1 _ hk, hinv, sample_ofFn 1 _ hk,
    divideBy_one_cmulPlain]

/-! ### The Bluestein length -/

/-- M(n) leaves the size domain exactly from n = 2^30 on (40_command_execution.md R153, 41_transform.md R181). -/
theorem bluesteinLength_overflow_iff {n : Nat} : 2 ^ 32 - 1 < bluesteinLength n ↔ 2 ^ 30 ≤ n := by
  by_cases hn : 2 ^ 30 ≤ n
  · have hge : 2 ^ 32 ≤ bluesteinLength n := two_pow_succ_le_bluesteinLength (k := 31) (by omega)
    exact iff_of_true (by omega) hn
  · have hle : bluesteinLength n ≤ 2 ^ 31 := bluesteinLength_le_two_pow (by omega)
    exact iff_of_false (by omega) hn

theorem bluesteinLength_eq_two_pow_succ {n k : Nat} (hlo : 2 ^ k ≤ 2 * n) (hhi : 2 * n < 2 ^ (k + 1)) :
    bluesteinLength n = 2 ^ (k + 1) :=
  Nat.le_antisymm (bluesteinLength_le_two_pow hhi) (two_pow_succ_le_bluesteinLength hlo)

/-- For 1 ≤ i < n, the place M(n) − i of chirp i lies inside the sequence and is not i (41_transform.md R183). -/
theorem bluesteinLength_places {n i : Nat} (h1 : 1 ≤ i) (hi : i < n) :
    i ≠ bluesteinLength n - i ∧ i < bluesteinLength n ∧ 1 ≤ bluesteinLength n - i ∧
      bluesteinLength n - i < bluesteinLength n := by
  have hgt := bluesteinLength_gt n
  omega

end Sys2Proof.Machine
end

section
/-! SUPPORT. What a ready command leaves: each listed output from its base address on (40_command_execution.md R131, R140,
R147). -/

namespace Sys2Proof.Machine

open Sys2Proof.Safety

/-- A ready command succeeds holding its semantic function's sequences, one per output region. -/
theorem succeedsHolding_of_ready {c : Instr} {s : State} {outs : List Output} (h : CommandReady c s.snapshot s.dmemWords)
    (hr : outputRegions c s.snapshot = outs.map fun o => regionAt o.base o.len)
    (hv : semantics c s.snapshot.length ((inputRegions c s.snapshot).map (readRegion s.dmem)) = outs.map Output.values) :
    SucceedsHolding c s outs := by
  obtain ⟨hcontrol, hcompleted, hholds, hframe⟩ := runCommand_ready h
  have hlen : outs.map (fun o => o.values.length) = outs.map Output.len := by
    have := semantics_lengths c s.snapshot s.dmem
    rwa [hv, hr, List.map_map, List.map_map] at this
  have hwrites : performWrites c (semantics c) s.snapshot s.dmem = outs.map fun o => (o.base.toNat, o.values) := by
    rw [performWrites, hv, hr, List.map_map]
    exact List.zip_map'
  refine ⟨_, exec_eq c s, hcontrol, hcompleted, hr, fun o ho => ⟨List.map_inj_left.1 hlen o ho, ?_⟩, hframe⟩
  exact hholds (o.base.toNat, o.values) (hwrites ▸ List.mem_map_of_mem ho)

/-- Where the length must be a power of two, a ready command's length is one (40_command_execution.md R145). -/
theorem isPow2_of_ready {c : Instr} {l : Operands} {words : Nat} (hc : c ∈ [Instr.fftr2, .bitrev, .twtab])
    (h : CommandReady c l words) : isPow2 l.length = true := by
  have hok := h.length_ok
  rw [lengthPrecondition_isPow2 hc] at hok
  by_contra hp
  rw [if_neg hp] at hok
  cases hok

/-- A held sequence of given words is those words, bit for bit. -/
theorem readWord_of_holdsSeq {m : Memory} {p i : Nat} {vs : List FNum} {w : DWord} (h : HoldsSeq m p vs)
    (hi : i < vs.length) (hv : elem vs i = .word w) : readWord m (p + i) = w := by
  have := h i hi
  rwa [hv] at this

/-- A ready BITREV holds BR of its Signal (41_transform.md R204). -/
theorem bitrev_succeedsHolding {s : State} (h : CommandReady .bitrev s.snapshot s.dmemWords) :
    SucceedsHolding .bitrev s
      [⟨s.snapshot.xr, s.snapshot.length, (permute s.snapshot.length (operandSignal s s.snapshot.xr s.snapshot.xi)).re⟩,
       ⟨s.snapshot.xi, s.snapshot.length, (permute s.snapshot.length (operandSignal s s.snapshot.xr s.snapshot.xi)).im⟩] :=
  succeedsHolding_of_ready h rfl rfl

/-- The permuted operand Signal, word by word: place i takes the word at place rev(i, log2 n) (41_transform.md R173). -/
theorem sample_permute_operandSignal (s : State) (xr xi : Word) {i : Nat} (hn : isPow2 s.snapshot.length = true)
    (hi : i < s.snapshot.length) :
    (permute s.snapshot.length (operandSignal s xr xi)).sample i =
      { re := .word (readWord s.dmem (xr.toNat + bitReverse i s.snapshot.length.log2))
        im := .word (readWord s.dmem (xi.toNat + bitReverse i s.snapshot.length.log2)) } := by
  have hj := bitReverse_log2_lt hn i
  rw [permute_sample _ hi, Signal.sample, operandSignal, operandSeq, operandSeq, elem_readRegion _ _ hj,
    elem_readRegion _ _ hj]

end Sys2Proof.Machine
end

section
/-! PROOFS. The transform family (41_transform.md R200–R206) and its datapath (R172–R191). -/

namespace Sys2Proof.Machine

open Sys2Proof.Safety

/-- Settles O34: F_FFT is T, and the dispatcher hands back a Signal of no samples. -/
theorem fftHoldsTheTransform : Obligations.FftHoldsTheTransform := by
  unfold Obligations.FftHoldsTheTransform
  exact ⟨transform_zero, fun s h => succeedsHolding_of_ready h rfl rfl⟩

/-- Settles O35: F_IFFT swaps, transforms and swaps back. -/
theorem ifftHoldsTheSwappedTransform : Obligations.IfftHoldsTheSwappedTransform := by
  unfold Obligations.IfftHoldsTheSwappedTransform
  exact fun s h => succeedsHolding_of_ready h rfl rfl

/-- Settles O36: F_FFTR2 is R2, and a ready FFTR2 has a power of two as its length, where T is R2. -/
theorem fftr2HoldsTheRadix2Transform : Obligations.Fftr2HoldsTheRadix2Transform := by
  unfold Obligations.Fftr2HoldsTheRadix2Transform
  exact fun s h => ⟨succeedsHolding_of_ready h rfl rfl, transform_of_isPow2 (isPow2_of_ready (by decide) h) _⟩

/-- Settles O37: F_FFTBL is BL, which is also what T takes off the powers of two. -/
theorem fftblHoldsTheBluesteinTransform : Obligations.FftblHoldsTheBluesteinTransform := by
  unfold Obligations.FftblHoldsTheBluesteinTransform
  exact ⟨fun n x h0 hp => transform_of_not_isPow2 h0 hp x, fun s h => succeedsHolding_of_ready h rfl rfl⟩

/-- Settles O38: the permuter takes each word from inside the operand region, and a loaded word is stored as it stands. -/
theorem bitrevMovesWordsUnchanged : Obligations.BitrevMovesWordsUnchanged := by
  unfold Obligations.BitrevMovesWordsUnchanged
  intro s h
  obtain ⟨t, hexec, hcontrol, hcompleted, -, hholds, hframe⟩ := bitrev_succeedsHolding h
  obtain ⟨hlre, hre⟩ := hholds _ (List.mem_cons_self ..)
  obtain ⟨hlim, him⟩ := hholds _ (List.mem_cons_of_mem _ (List.mem_cons_self ..))
  refine ⟨t, hexec, hcontrol, hcompleted, fun i hi => ?_, hframe⟩
  have hword := sample_permute_operandSignal s s.snapshot.xr s.snapshot.xi (isPow2_of_ready (by decide) h) hi
  exact ⟨readWord_of_holdsSeq hre (hi.trans_eq hlre.symm) (congrArg Cplx.re hword),
    readWord_of_holdsSeq him (hi.trans_eq hlim.symm) (congrArg Cplx.im hword)⟩

/-- Settles O39: TWTAB reads no operand and tabulates the twiddle-factor ROM. -/
theorem twtabHoldsTheTwiddleTable : Obligations.TwtabHoldsTheTwiddleTable := by
  unfold Obligations.TwtabHoldsTheTwiddleTable
  exact fun s h => succeedsHolding_of_ready h rfl rfl

/-- Settles O40: CHIRPTAB reads no operand and tabulates the chirp. -/
theorem chirptabHoldsTheChirpTable : Obligations.ChirptabHoldsTheChirpTable := by
  unfold Obligations.ChirptabHoldsTheChirpTable
  exact fun s h => succeedsHolding_of_ready h rfl rfl

/-- Settles O53: bit b of rev(i, w) is bit w − 1 − b of i. -/
theorem bitReverseReversesBits : Obligations.BitReverseReversesBits := by
  unfold Obligations.BitReverseReversesBits
  refine fun w i hi => ⟨bitReverse_lt w i, bitReverse_bitReverse hi, fun b hb => ?_⟩
  rw [bitReverse_testBit, decide_eq_true hb, Bool.true_and]

/-- Settles O54: rev is an involution on the indices of a power of two. -/
theorem bitReversalTwiceIsIdentity : Obligations.BitReversalTwiceIsIdentity := by
  unfold Obligations.BitReversalTwiceIsIdentity
  exact fun n x hn hre him => permute_permute hn ⟨hre, him⟩

/-- Settles O55: the pairs of a stage are disjoint, so each holds its butterfly of the Signal before the stage. -/
theorem stageIsItsButterflies : Obligations.StageIsItsButterflies := by
  unfold Obligations.StageIsItsButterflies
  intro k e b q x _ hb hq hre him
  have hsize : 2 ^ (e + 1) = 2 * 2 ^ e := Nat.pow_succ'
  rw [hsize] at hb ⊢
  exact ⟨butterflyStage_sample_low ⟨hre, him⟩ hb hq, butterflyStage_sample_high ⟨hre, him⟩ hb hq⟩

/-- Settles O56: at n = 1 there is no stage, and the product's parts are results that a division by 1.0 keeps. -/
theorem lengthOneIsExact : Obligations.LengthOneIsExact := by
  unfold Obligations.LengthOneIsExact
  intro a b c d
  have hx : Signal.HasLength { re := [a], im := [b] } 1 := ⟨rfl, rfl⟩
  have hy : Signal.HasLength { re := [c], im := [d] } 1 := ⟨rfl, rfl⟩
  exact ⟨radix2_one hx, transform_one hx, inverse_one hx, convolve_one hx hy⟩

/-- Settles O57: M(n) lies above 2n and not above any power of two that does. -/
theorem bluesteinLengthIsLeastPowerOfTwo : Obligations.BluesteinLengthIsLeastPowerOfTwo := by
  unfold Obligations.BluesteinLengthIsLeastPowerOfTwo
  refine ⟨fun n => ⟨?_, bluesteinLength_gt n, fun k => bluesteinLength_le_two_pow, bluesteinLength_overflow_iff, fun hn => ?_⟩,
    by decide, bluesteinLength_eq_two_pow_succ (k := 30) (by decide) (by decide), fun n i => bluesteinLength_places⟩
  · exact (isPow2_iff _).1 (bluesteinLength_isPow2 n)
  · exact bluesteinLength_le_two_pow (by omega)

end Sys2Proof.Machine
end

section
/-! SUPPORT. The samples of an operand Signal and pointwise equal Signals (00_scope.md R7, R8; 42_convolution.md R230, R232). -/

namespace Sys2Proof.Machine

open Sys2Proof.Safety

/-- Sample k of an operand Signal is the pair of words k places after its two base addresses (00_scope.md R8). -/
theorem sample_operandSignal (s : State) (re im : Word) {k : Nat} (hk : k < s.snapshot.length) :
    (operandSignal s re im).sample k =
      { re := .word (readWord s.dmem (re.toNat + k)), im := .word (readWord s.dmem (im.toNat + k)) } :=
  congrArg₂ Cplx.mk (elem_readRegion s.dmem re hk) (elem_readRegion s.dmem im hk)

/-- A tabulated Signal depends on the samples below n only. -/
theorem ofFn_congr {n : Nat} {f g : Nat → Cplx} (h : ∀ k, k < n → f k = g k) : Signal.ofFn n f = Signal.ofFn n g :=
  signal_ext (ofFn_hasLength n f) (ofFn_hasLength n g) fun k hk => by
    rw [sample_ofFn n f hk, sample_ofFn n g hk, h k hk]

end Sys2Proof.Machine
end

section
/-! PROOFS. The convolution family (42_convolution.md R240–R243). -/

namespace Sys2Proof.Machine

open Sys2Proof.Safety

/-- Settles O41: F_CONVC is CC of the two operand Signals. -/
theorem convcHoldsTheConvolution : Obligations.ConvcHoldsTheConvolution := by
  unfold Obligations.ConvcHoldsTheConvolution
  exact fun s h => succeedsHolding_of_ready h rfl rfl

/-- Settles O42: F_CONVR is the real part of CC, the imaginary inputs being n copies of +0.0. -/
theorem convrHoldsTheRealConvolution : Obligations.ConvrHoldsTheRealConvolution := by
  unfold Obligations.ConvrHoldsTheRealConvolution
  exact fun s h => succeedsHolding_of_ready h rfl rfl

/-- Settles O43: sample k of F_CMUL is cmul of sample k of the two operand Signals, and these are words of DMEM. -/
theorem cmulHoldsThePointwiseProducts : Obligations.CmulHoldsThePointwiseProducts := by
  unfold Obligations.CmulHoldsThePointwiseProducts
  intro s h
  have hproducts := ofFn_congr fun k (hk : k < s.snapshot.length) =>
    congrArg₂ cmulPlain (sample_operandSignal s s.snapshot.xr s.snapshot.xi hk)
      (sample_operandSignal s s.snapshot.yr s.snapshot.yi hk)
  exact succeedsHolding_of_ready h rfl (congrArg Signal.outputs hproducts)

/-- Settles O44: sample k of F_SCALE divides sample k of the operand Signal, which is read before the writes in place. -/
theorem scaleHoldsTheQuotients : Obligations.ScaleHoldsTheQuotients := by
  unfold Obligations.ScaleHoldsTheQuotients
  intro s h
  have hquotients := ofFn_congr fun k (hk : k < s.snapshot.length) =>
    congrArg (divideBy s.snapshot.length) (sample_operandSignal s s.snapshot.xr s.snapshot.xi hk)
  exact succeedsHolding_of_ready h rfl (congrArg Signal.outputs hquotients)

end Sys2Proof.Machine
end

section
/-! SUPPORT. The three kinds of bin of a spectrum unpacked by conjugate symmetry (43_packing.md R261, R262). -/

namespace Sys2Proof.Machine

section
variable {n k : Nat} (special interior : Nat → Cplx)

/-- Bins 0 and n/2 are the special ones (R261). -/
theorem sample_unpackBin_special (hn : 2 ≤ n) (h : k = 0 ∨ k = n / 2) :
    (Signal.ofFn n (unpackBin n special interior)).sample k = special k := by
  rw [sample_ofFn n _ (by omega), unpackBin, if_pos h]

/-- Bins 1 … n/2 − 1 are computed (R261). -/
theorem sample_unpackBin_interior (hlo : 1 ≤ k) (hhi : k < n / 2) :
    (Signal.ofFn n (unpackBin n special interior)).sample k = interior k := by
  rw [sample_ofFn n _ (by omega), unpackBin, if_neg (by omega), if_pos hhi]

/-- Bin n − k lies above n/2, where bin k is mirrored (R261, R262). -/
theorem sample_unpackBin_mirror (hlo : 1 ≤ k) (hhi : k < n / 2) :
    (Signal.ofFn n (unpackBin n special interior)).sample (n - k) =
      ((Signal.ofFn n (unpackBin n special interior)).sample k).mirror := by
  rw [sample_unpackBin_interior special interior hlo hhi, sample_ofFn n _ (by omega), unpackBin, if_neg (by omega),
    if_neg (by omega), Nat.sub_sub_self (by omega)]

end

/-- fneg of +0.0 is −0.0 (00_scope.md R13). -/
theorem fneg_pzero : fneg pzero = .word 0x8000000000000000 := by decide

/-- An imaginary part +0.0 mirrors to −0.0 (R262). -/
theorem mirror_im_of_pzero {z w : Cplx} (hw : w = z.mirror) (hz : z.im = pzero) : w.im = .word 0x8000000000000000 := by
  rw [hw, Cplx.mirror, hz, fneg_pzero]

end Sys2Proof.Machine
end

section
/-! PROOFS. The packing family (43_packing.md R260–R272). -/

namespace Sys2Proof.Machine

/-- Settles O26: an odd length fails the precondition, which comes first; 0 is a length with no work to do. -/
theorem oddLengthFailsInPacking : Obligations.OddLengthFailsInPacking := by
  unfold Obligations.OddLengthFailsInPacking
  intro c s hc
  refine ⟨fun hodd => exec_of_precondition ?_ (by decide), zeroLengthSucceedsWithNoWrite c s ?_⟩
  · have hne : s.snapshot.length % 2 ≠ 0 := by
      rw [Operands.length, hodd]
      decide
    rw [lengthPrecondition_even hc, if_neg hne]
  · fin_cases hc <;> decide

/-- Settles O45: F_FFT2R packs the two sequences, transforms once and lists X1 before X2. -/
theorem fft2rHoldsBothSpectra : Obligations.Fft2rHoldsBothSpectra := by
  unfold Obligations.Fft2rHoldsBothSpectra
  exact fun s h => succeedsHolding_of_ready h rfl rfl

/-- Settles O46: F_ABSFFT tabulates MAG over the transform, the imaginary input being n copies of +0.0. -/
theorem absfftHoldsTheMagnitudes : Obligations.AbsfftHoldsTheMagnitudes := by
  unfold Obligations.AbsfftHoldsTheMagnitudes
  exact fun s h => succeedsHolding_of_ready h rfl rfl

/-- Settles O47: F_ABSFFT2 tabulates MAG over X1 and over X2 of one packed transform. -/
theorem absfft2HoldsBothMagnitudes : Obligations.Absfft2HoldsBothMagnitudes := by
  unfold Obligations.Absfft2HoldsBothMagnitudes
  exact fun s h => succeedsHolding_of_ready h rfl rfl

/-- Settles O59: both spectra unpack by one scheme of special, interior and mirrored bins. -/
theorem unpackingIsConjugateSymmetric : Obligations.UnpackingIsConjugateSymmetric := by
  unfold Obligations.UnpackingIsConjugateSymmetric
  intro n x _ hn
  refine ⟨sample_unpackBin_special _ _ hn (.inl rfl), sample_unpackBin_special _ _ hn (.inl rfl),
    sample_unpackBin_special _ _ hn (.inr rfl), sample_unpackBin_special _ _ hn (.inr rfl), fun k hlo hhi => ?_⟩
  have hmirror1 : (unpack1 n x).sample (n - k) = ((unpack1 n x).sample k).mirror :=
    sample_unpackBin_mirror _ _ hlo hhi
  have hmirror2 : (unpack2 n x).sample (n - k) = ((unpack2 n x).sample k).mirror :=
    sample_unpackBin_mirror _ _ hlo hhi
  exact ⟨sample_unpackBin_interior _ _ hlo hhi, sample_unpackBin_interior _ _ hlo hhi, hmirror1, hmirror2,
    mirror_im_of_pzero hmirror1, mirror_im_of_pzero hmirror2⟩

end Sys2Proof.Machine
end

section
/-! SUPPORT. What each part of a step does to irq: only a completion and a write to IRQ_EN can raise it
(60_exceptions.md R310–R312). -/

namespace Sys2Proof.Machine

variable {v : Word} {s : State}

@[simp] theorem irq_withInbox (rest : List Event) : irq (withInbox rest s) = irq s := rfl

@[simp] theorem irq_respond (r : Response) : irq (respond r s) = irq s := rfl

@[simp] theorem irq_releaseReset : irq (releaseReset s) = irq s := rfl

@[simp] theorem irq_assertReset : irq (assertReset s) = false := rfl

@[simp] theorem irq_startStep : irq (startStep v s) = false := rfl

theorem irq_writeIrqEn : irq (writeIrqEn v s) = (s.done && v.getLsbD 0) := rfl

/-- A completion sets DONE, so irq is DONE_IE after it, whatever the result (60_exceptions.md R311). -/
@[simp] theorem irq_completed : irq (completed s) = s.doneIe := by
  obtain ⟨-, -, hie, -⟩ := completed_sameControl s
  rw [irq, completed_done, hie, Bool.true_and]

/-- A CMD write either starts a command, which clears DONE, or sets only OVR (60_exceptions.md R312). -/
theorem irq_of_irq_writeCmd (h : irq (writeCmd v s) = true) : irq s = true := by
  unfold writeCmd at h
  split at h
  · exact h
  · simp at h

/-- The W1C write clears DONE or keeps it (10_state.md R34). -/
theorem irq_of_irq_writeStatus (h : irq (writeStatus v s) = true) : irq s = true := by
  simp only [irq, writeStatus_done, writeStatus_doneIe, Bool.and_eq_true] at h ⊢
  obtain ⟨⟨hdone, -⟩, hie⟩ := h
  exact ⟨hdone, hie⟩

/-- No register but IRQ_EN raises irq when written. -/
theorem irq_of_irq_writeRegister {r : RegName} (hr : r ≠ .irqEn) (h : irq (writeRegister v s r) = true) :
    irq s = true := by
  cases r with
  | irqEn => exact absurd rfl hr
  | cmd => exact irq_of_irq_writeCmd h
  | status => exact irq_of_irq_writeStatus h
  | _ => exact h

/-- A transaction that raises irq writes 1 to IRQ_EN bit 0 while DONE = 1 (60_exceptions.md R310, R312). -/
theorem irqEnWrite_of_irq_rises {tr : Transaction} (hlow : irq s = false) (hhigh : irq (hostTransaction tr s) = true) :
    s.done = true ∧ ∃ v : Word, tr = { access := .write v, offset := 0x014, whole := true } ∧ v.getLsbD 0 = true := by
  obtain ⟨r, he⟩ | ⟨v, r, hwhole, hacc, hoff, he⟩ | ⟨v, w, g, -, -, -, -, -, -, he⟩ := hostTransaction_cases tr s <;>
    rw [he, irq_respond] at hhigh
  · simp [hlow] at hhigh
  · by_cases hr : r = .irqEn
    · subst hr
      obtain ⟨hdone, hbit⟩ := Bool.and_eq_true_iff.1 (irq_writeIrqEn.symm.trans hhigh)
      have hoff : tr.offset = 0x014 := BitVec.eq_of_toNat_eq hoff
      obtain ⟨access, offset, whole⟩ := tr
      subst hacc hoff hwhole
      exact ⟨hdone, v, rfl, hbit⟩
    · simp [irq_of_irq_writeRegister hr hhigh] at hlow
  · exact absurd (hlow.symm.trans hhigh) (by decide)

end Sys2Proof.Machine
end

section
/-! PROOF. The statement about the interrupt output (60_exceptions.md R310–R312). -/

namespace Sys2Proof.Machine

/-- Settles O14, by the cases of a step: besides a completion, only a transaction that enables irq can raise it. -/
theorem irqRisesOnCompletionOrEnableOnly : Obligations.IrqRisesOnCompletionOrEnableOnly := by
  unfold Obligations.IrqRisesOnCompletionOrEnableOnly
  refine ⟨fun s hb hturn hie => ⟨_, step_completes hb hturn, by simpa using hie⟩, fun s t hstep hlow hhigh => ?_⟩
  cases step_cases hstep with
  | transaction tr rest hi _ ht =>
    subst ht
    obtain ⟨hdone, v, rfl, hbit⟩ := irqEnWrite_of_irq_rises (s := withInbox rest s) hlow hhigh
    exact .inr ⟨hdone, v, rest, hi, hbit⟩
  | completion rest hi hb ht =>
    subst ht
    have hie : s.doneIe = true := by simpa using hhigh
    exact .inl ⟨hb, completed_busy _, completed_done _, hie, hi.imp And.left fun hturn => ⟨rest, hturn⟩⟩
  | idle rest _ _ ht => simp [ht, hlow] at hhigh
  | asserted rest _ ht => simp [ht] at hhigh
  | released rest _ ht => simp [ht, hlow] at hhigh

end Sys2Proof.Machine
end

section
/-! SUPPORT. The steps that the rules of reset and of concurrent access speak of: a run taken one step at a time, an operand
write beside a completion, an assertion of the reset input, and the progress of a busy machine (70_reset_and_hazards.md
R330–R352). -/

namespace Sys2Proof.Machine

open Sys2Proof.Safety

/-! ### Runs -/

theorem run_succ {M : Host.Core} {s t : M.State} (k : Nat) (h : M.step s = .next t) : M.run (k + 1) s = M.run k t := by
  rw [Host.Core.run, h]

theorem run_two {s t u : State} (h1 : step s = .next t) (h2 : step t = .next u) : Sys2Proof.core.run 2 s = .next u :=
  (run_succ (M := Sys2Proof.core) 1 h1).trans (run_succ 0 h2)

/-! ### An operand write and a completion (R341) -/

/-- The operand registers (10_state.md R36–R38). -/
def operandRegisters : List RegName := [.n, .xr, .xi, .yr, .yi, .outR, .outI, .out2R, .out2I, .scrBase, .scrSize]

/-- A whole host write to a register. -/
def registerWrite (v : Word) (r : RegName) : Event :=
  .transaction { access := .write v, offset := registerWord r, whole := true }

/-- A completion commutes with a change of the state that Exec does not read and the completion step does not set. -/
theorem completed_comm {s : State} {g : State → State} (hread : commandResult (g s) = commandResult s)
    (hset : ∀ r, completionStep r (g s) = g (completionStep r s)) : completed (g s) = g (completed s) := by
  rw [completed_commandResult, completed_commandResult, hread, hset]

theorem completed_withInbox (rest : List Event) (s : State) :
    completed (withInbox rest s) = withInbox rest (completed s) :=
  completed_comm (commandResult_congr rfl rfl rfl rfl) fun _ => rfl

theorem completed_respond (a : Response) (s : State) : completed (respond a s) = respond a (completed s) :=
  completed_comm (commandResult_congr rfl rfl rfl rfl) fun _ => rfl

section
variable {r : RegName} (v : Word) (hmem : r ∈ operandRegisters)
include hmem

/-- The running command uses its snapshot, not the operand registers (10_state.md R55). -/
theorem completed_writeOperand (s : State) : completed (writeRegister v s r) = writeRegister v (completed s) r := by
  have h : commandResult (writeRegister v s r) = commandResult s ∧
      ∀ e, completionStep e (writeRegister v s r) = writeRegister v (completionStep e s) r := by
    cases r with
    | id | version | cap | cmd | status | irqEn | scrNeed | blM => exact absurd hmem (by decide)
    | _ => exact ⟨commandResult_congr rfl rfl rfl rfl, fun _ => rfl⟩
  exact completed_comm (g := fun s => writeRegister v s r) h.1 h.2

theorem writeOperand_withInbox (rest : List Event) (s : State) :
    writeRegister v (withInbox rest s) r = withInbox rest (writeRegister v s r) := by
  cases r with
  | cmd => exact absurd hmem (by decide)
  | _ => rfl

variable {s : State} (hb : s.busy = true) (hr : s.resetLine = false)
include hb hr

/-- The write first, then the completion. -/
theorem run_write_completion :
    Sys2Proof.core.run 2 (withInbox [registerWrite v r, .sequencerTurn] s) =
      .next (respond (.write .okay) (writeRegister v (withInbox [] (completed s)) r)) := by
  have hwrite := step_writeRegister (s := withInbox [registerWrite v r, .sequencerTurn] s) r hr rfl
  rw [withInbox_withInbox, writeOperand_withInbox v hmem] at hwrite
  have hturn := step_turn_busy
    (s := respond (.write .okay) (withInbox [.sequencerTurn] (writeRegister v s r))) rfl (writeRegister_busy r hb).1
  rw [run_two hwrite hturn, completed_withInbox, completed_respond, completed_withInbox, completed_writeOperand v hmem,
    writeOperand_withInbox v hmem]
  rfl

end

/-- The completion first, then the write. -/
theorem run_completion_write {s : State} (v : Word) (r : RegName) (hb : s.busy = true) (hr : s.resetLine = false) :
    Sys2Proof.core.run 2 (withInbox [.sequencerTurn, registerWrite v r] s) =
      .next (respond (.write .okay) (writeRegister v (withInbox [] (completed s)) r)) := by
  have hturn := step_turn_busy (s := withInbox [.sequencerTurn, registerWrite v r] s) rfl hb
  rw [withInbox_withInbox, completed_withInbox] at hturn
  have hwrite := step_writeRegister (s := withInbox [registerWrite v r] (completed s)) r
    ((completed_resetLine s).trans hr) rfl
  exact run_two hturn hwrite

/-! ### Reset (R330, R331) -/

section
variable {s : State}

theorem step_resetAsserted {rest : List Event} (h : s.inbox = .resetAsserted :: rest) :
    step s = .next (assertReset (withInbox rest s)) := by
  simp only [step, h, eventStep]

theorem resetLoss_of_idle (h : s.busy = false) : resetLoss s = [] := by
  rw [resetLoss, if_neg (Bool.eq_false_iff.1 h)]

/-- A word that names no command, and NOP, have no outputs to lose. -/
theorem resetLoss_of_error_or_nop (h : (∃ e, decode s.op = .error e) ∨ decode s.op = .ok .nop) : resetLoss s = [] := by
  have hlost : lostRegions s = [] := by
    obtain ⟨e, h⟩ | h := h <;> simp [lostRegions, h]
  rw [resetLoss, hlost, ite_self]

theorem assertReset_dmem_of_no_loss (h : resetLoss s = []) : (assertReset s).dmem = s.dmem := by
  rw [assertReset_dmem, h]
  rfl

/-- A byte outside DMEM, or outside the output regions and the declared scratch of the running command, survives. -/
theorem readByte_assertReset {c : Instr} {b : Nat} (hc : decode s.op = .ok c)
    (hb : s.dmemWords ≤ b / 8 ∨ ((∀ r ∈ outputRegions c s.snapshot, r.contains (b / 8) = false) ∧
      (scratchDeclared s.snapshot).contains (b / 8) = false)) :
    readByte (assertReset s).dmem b = readByte s.dmem b := by
  refine readByte_havocAll_other _ _ _ fun r hr => Bool.eq_false_iff.2 fun hw => ?_
  obtain ⟨-, hlt, c', hc', -, hlost⟩ := resetLoss_contains hr hw
  obtain rfl : c' = c := Except.ok.inj (hc'.symm.trans hc)
  obtain hout | ⟨hkept, hscr⟩ := hb
  · exact absurd hlt (not_lt.2 hout)
  · obtain ⟨t, ht, hw⟩ | hw := hlost
    · simp [hkept t ht] at hw
    · simp [hscr] at hw

/-! ### Progress (R352) -/

/-- A step of a busy machine with no reset to come completes the command, or takes one event and leaves it running. -/
theorem step_busy (hb : s.busy = true) (hr : s.resetLine = false) (ha : .resetAsserted ∉ s.inbox) :
    ∃ t, step s = .next t ∧ ((t.busy = false ∧ t.done = true) ∨
      (t.busy = true ∧ t.resetLine = false ∧ ∃ e, s.inbox = e :: t.inbox)) := by
  cases hi : s.inbox with
  | nil => exact ⟨_, step_empty_busy hi hb, .inl ⟨completed_busy s, completed_done s⟩⟩
  | cons e rest =>
    cases e with
    | transaction tr =>
      obtain ⟨hbusy, -, -, -, hinbox, hline⟩ := hostTransaction_busy (tr := tr) (s := withInbox rest s) hb
      exact ⟨_, step_transaction hi hr, .inr ⟨hbusy, hline.trans hr, .transaction tr, by rw [hinbox, withInbox_inbox]⟩⟩
    | sequencerTurn => exact ⟨_, step_turn_busy hi hb, .inl ⟨completed_busy _, completed_done _⟩⟩
    | resetAsserted => exact absurd (hi ▸ List.mem_cons_self) ha
    | resetReleased => exact ⟨releaseReset (withInbox rest s), by simp only [step, hi, eventStep], .inr ⟨hb, rfl, _, rfl⟩⟩

/-- The command completes within k steps. -/
def CompletesWithin (k : Nat) (s : State) : Prop :=
  ∃ j t, j ≤ k ∧ Sys2Proof.core.run j s = .next t ∧ t.busy = false ∧ t.done = true

theorem CompletesWithin.of_step {k : Nat} {t : State} (hs : step s = .next t) (h : CompletesWithin k t) :
    CompletesWithin (k + 1) s := by
  obtain ⟨j, u, hj, hrun, hu⟩ := h
  exact ⟨j + 1, u, Nat.succ_le_succ hj, (run_succ (M := Sys2Proof.core) j hs).trans hrun, hu⟩

theorem completesWithin_of_done (k : Nat) (hb : s.busy = false) (hd : s.done = true) : CompletesWithin k s :=
  ⟨0, s, Nat.zero_le k, rfl, hb, hd⟩

end

/-- A busy machine completes within one step more than it has events, unless a reset is among them. -/
theorem completesWithin_of_busy (events : List Event) {s : State} (hi : s.inbox = events) (hb : s.busy = true)
    (hr : s.resetLine = false) (ha : .resetAsserted ∉ events) : CompletesWithin (events.length + 1) s := by
  induction events generalizing s with
  | nil =>
    obtain ⟨t, hstep, ⟨hidle, hdone⟩ | ⟨-, -, e, he⟩⟩ := step_busy hb hr (hi ▸ ha)
    · exact (completesWithin_of_done _ hidle hdone).of_step hstep
    · cases hi.symm.trans he
  | cons e rest ih =>
    obtain ⟨t, hstep, ⟨hidle, hdone⟩ | ⟨hbusy, hline, e', he⟩⟩ := step_busy hb hr (hi ▸ ha)
    · exact (completesWithin_of_done _ hidle hdone).of_step hstep
    · obtain ⟨-, hrest⟩ := List.cons.inj (hi.symm.trans he)
      exact (ih hrest.symm hbusy hline fun h => ha (List.mem_cons_of_mem _ h)).of_step hstep

end Sys2Proof.Machine
end

section
/-! SUPPORT. Two completions of one command on the same inputs: Exec answers the same, and what the two store differs in the
bits of NaNs at most (70_reset_and_hazards.md R361, 40_command_execution.md R143). -/

namespace Sys2Proof.Machine

open Sys2Proof.Safety

/-! ### Exec reads the input regions alone -/

theorem readRegion_congr {m m' : Memory} {r : Region} (h : ∀ w, r.contains w = true → readWord m w = readWord m' w) :
    readRegion m r = readRegion m' r := by
  refine List.map_congr_left fun i hi => congrArg FNum.word (h _ (contains_iff.2 ⟨Nat.le_add_right _ _, ?_⟩))
  exact Nat.add_lt_add_left (List.mem_range.1 hi) _

section
variable {c : Instr} {f : SemFn} {l : Operands} {m m' : Memory}
  (h : ∀ r ∈ inputRegions c l, ∀ w, r.contains w = true → readWord m w = readWord m' w)
include h

theorem performWrites_congr : performWrites c f l m = performWrites c f l m' := by
  rw [performWrites, performWrites, List.map_congr_left fun r hr => readRegion_congr (h r hr)]

theorem execSteps_congr (words : Nat) : execSteps c f l words m = execSteps c f l words m' := by
  rw [execSteps, execSteps, performWrites_congr h]

end

/-! ### A success with work -/

/-- The codes of step 2 (40_command_execution.md R145). -/
theorem lengthPrecondition_codes {c : Instr} {n : Nat} {code : ResultCode} (h : lengthPrecondition c n = some code) :
    code = .errNotPow2 ∨ code = .errOddN := by
  obtain hpow | heven | hfree := lengthPrecondition_kind c
  · rw [lengthPrecondition_isPow2 hpow, Option.ite_none_left_eq_some] at h
    exact .inl (Option.some.inj h.2).symm
  · rw [lengthPrecondition_even heven, Option.ite_none_left_eq_some] at h
    exact .inr (Option.some.inj h.2).symm
  · rw [lengthPrecondition_free hfree] at h
    cases h

/-- A command with work that succeeds was ready: every check of Exec has passed. -/
theorem commandReady_of_ok {c : Instr} {f : SemFn} {s : State} (hok : (runCommand c f s).result = .ok)
    (hw : HasWork c s.snapshot) : CommandReady c s.snapshot s.dmemWords := by
  rw [runCommand, completionStep_result] at hok
  obtain ⟨code, hp, he⟩ | ⟨-, htrivial, -⟩ | ⟨code, -, hcode, he⟩ | ⟨hready, -⟩ :=
    execSteps_cases c f s.snapshot s.dmemWords s.dmem
  · rw [he] at hok
    obtain rfl | rfl := lengthPrecondition_codes hp <;> cases hok
  · exact absurd htrivial (not_or.2 hw)
  · rw [he] at hok
    obtain rfl | rfl | rfl | rfl := hcode <;> cases hok
  · exact hready

/-! ### What two successes store -/

/-- Two words that hold one value are equal, or two quiet NaNs (00_scope.md R16). -/
theorem eq_or_quietNaNs_of_holdsValue {w w' : DWord} {v : FNum} (h : HoldsValue w v) (h' : HoldsValue w' v) :
    w = w' ∨ (isQuietNaN w = true ∧ isQuietNaN w' = true) := by
  cases v with
  | word u => exact .inl (Eq.trans h (Eq.symm h'))
  | nan => exact .inr ⟨h, h'⟩

/-- Every word of an output region is written (40_command_execution.md R143). -/
theorem exists_write_of_outputWord {c : Instr} {l : Operands} (m : Memory) {r : Region} {w : Nat}
    (hr : r ∈ outputRegions c l) (hw : r.contains w = true) :
    ∃ u ∈ performWrites c (semantics c) l m, ∃ i < u.2.length, w = u.1 + i := by
  rw [← performWrites_regions c l m] at hr
  obtain ⟨u, hu, rfl⟩ := List.mem_map.1 hr
  obtain ⟨hlo, hhi⟩ := contains_iff.1 hw
  exact ⟨u, hu, w - u.1, Nat.sub_lt_left_of_lt_add hlo hhi, (Nat.add_sub_cancel' hlo).symm⟩

end Sys2Proof.Machine
end

section
/-! PROOF. The statements about reset, concurrent access and determinism (70_reset_and_hazards.md). -/

namespace Sys2Proof.Machine

open Sys2Proof.Safety

/-- Settles O15: an operand write commutes with the completion, and the response and the inbox with both. -/
theorem operandWriteCommutesWithCompletion : Obligations.OperandWriteCommutesWithCompletion := by
  unfold Obligations.OperandWriteCommutesWithCompletion
  intro s v a hb hr ha
  have ha : a ∈ operandRegisters.map registerWord := ha
  obtain ⟨r, hmem, rfl⟩ := List.mem_map.1 ha
  exact ⟨_, run_write_completion v hmem hb hr, run_completion_write v r hb hr⟩

/-- Settles O20: what an assertion of reset loses are the lost regions, none where nothing with outputs runs. -/
theorem warmResetKeepsDmemAsTheRuleSays : Obligations.WarmResetKeepsDmemAsTheRuleSays := by
  unfold Obligations.WarmResetKeepsDmemAsTheRuleSays
  intro s rest hi
  refine ⟨_, step_resetAsserted hi, assertReset_registersReset _, irq_assertReset, rfl, rfl, fun hb => ?_, fun hop => ?_,
    fun c hc b hb => ?_⟩
  · exact assertReset_dmem_of_no_loss (s := withInbox rest s) (resetLoss_of_idle hb)
  · exact assertReset_dmem_of_no_loss (s := withInbox rest s) (resetLoss_of_error_or_nop hop)
  · exact readByte_assertReset (s := withInbox rest s) hc hb

/-- Settles O22: each step completes the command or uses up one event. -/
theorem startedCommandsComplete : Obligations.StartedCommandsComplete := by
  unfold Obligations.StartedCommandsComplete
  exact fun s hb hr ha => completesWithin_of_busy s.inbox rfl hb hr ha

/-- Settles O33: Exec answers both states alike, and each output word of both holds the same value. -/
theorem resultsDependOnlyOnOperandsAndInputs : Obligations.ResultsDependOnlyOnOperandsAndInputs := by
  unfold Obligations.ResultsDependOnlyOnOperandsAndInputs
  intro c s s' hl hwords hin
  have he : execSteps c (semantics c) s'.snapshot s'.dmemWords s'.dmem =
      execSteps c (semantics c) s.snapshot s.dmemWords s.dmem := by
    rw [← hl, ← hwords, execSteps_congr hin]
  refine ⟨_, _, exec_eq c s, exec_eq c s', ?_, ?_, ?_, fun hok hw r hr w hrw => ?_⟩
  · exact congrArg ExecResult.res he.symm
  · exact congrArg (fun r => BitVec.ofNat 32 r.needR) he.symm
  · exact congrArg (fun r => BitVec.ofNat 32 r.mR) he.symm
  · have hready := commandReady_of_ok hok hw
    have hready' : CommandReady c s'.snapshot s'.dmemWords := hl ▸ hwords ▸ hready
    have hwrites : performWrites c (semantics c) s.snapshot s.dmem = performWrites c (semantics c) s'.snapshot s'.dmem := by
      rw [← hl, performWrites_congr hin]
    obtain ⟨u, hu, i, hi, rfl⟩ := exists_write_of_outputWord s.dmem hr hrw
    obtain ⟨-, -, hholds, -⟩ := runCommand_ready hready
    obtain ⟨-, -, hholds', -⟩ := runCommand_ready hready'
    exact eq_or_quietNaNs_of_holdsValue (hholds u hu i hi) (hholds' u (hwrites ▸ hu) i hi)

/-- Settles O6: while busy a write to CMD sets OVR and nothing else. -/
theorem busyCmdWriteOnlySetsOvr : Obligations.BusyCmdWriteOnlySetsOvr := by
  unfold Obligations.BusyCmdWriteOnlySetsOvr
  intro s w rest hb hr hi
  rw [step_writeRegister .cmd hr hi, writeRegister, writeCmd, withInbox_busy, if_pos hb]
  rfl

/-- Settles O18, by the fields of the invariant. -/
theorem resetMeetsTheInvariant : Obligations.ResetMeetsTheInvariant where
  dmemWords_legal := by decide
  dmem_wf := rfl
  dmem_inside := rfl
  fail_iff := rfl
  busy_clears := nofun
  busy_cmd := nofun
  blM_legal := .inl rfl
  reset_holds := nofun

/-- Settles O19, register by register. -/
theorem powerOnRegistersReadTheirResetValues : Obligations.PowerOnRegistersReadTheirResetValues := by
  unfold Obligations.PowerOnRegistersReadTheirResetValues
  refine ⟨by simp [RegistersReset, State.reset], rfl, rfl, rfl, rfl, rfl, fun r hr => ?_⟩
  cases r with
  | id | version | cap => exact absurd (by decide) hr
  | _ => rfl

/-- Settles O21: under an asserted reset the event of a transaction is refused. -/
theorem transactionsUnderResetAreRefused : Obligations.TransactionsUnderResetAreRefused := by
  unfold Obligations.TransactionsUnderResetAreRefused
  intro s tr rest hr hi
  simp [step, hi, eventStep, hr]

end Sys2Proof.Machine
end
